-- ==== Sys2Proof/Word.lean ====
section
/-! DEFINITION. The words of the engine: the byte of both streams and the 12-bit code. -/

namespace Sys2Proof

/-- One symbol of either stream (`SYMBOL_BITS` = 8, R6). -/
abbrev Byte := BitVec 8

/-- A code, or an index of the dictionary, zero-extended to `CODE_BITS` = 12 bits (R7, R82). -/
abbrev Code := BitVec 12

end Sys2Proof
end

