-- ==== Sys2Proof/Config.lean ====
section
/-! DEFINITION. The identity of the engine (R2), its parameters (R6, R7) and the one value the spec
leaves open. -/

namespace Sys2Proof.Config

/-- What a model records of which hardware it is (R2). There is no ISA string, part number, vendor
or version to record. -/
structure Identity where
  name : String
  origin : String
  options : List String
  deriving DecidableEq, Repr

/-- The identity that R2 gives the engine: it has no options. -/
def identity : Identity where
  name := "XAF-LZW decompressor engine"
  origin := "EmiMidnight/XafTool"
  options := []

/-- `XAF-LZW`, the spec's name for the compression scheme (R2). -/
def scheme : String := "XAF-LZW"

/-- `MIN_CODE_SIZE`: the code width at the start of every epoch (R6). -/
def minCodeSize : Nat := 9

/-- `MAX_CODE_SIZE`: the largest code width (R6). -/
def maxCodeSize : Nat := 12

/-- `N_SINGLETONS`: the entries a dictionary reset leaves (R6). -/
def nSingletons : Nat := 256

/-- `DICT_CAPACITY`: the entry slots of the dictionary memory (R6). -/
def dictCapacity : Nat := 4096

/-- `STACK_DEPTH`: the depth of the reversal buffer (R7, R141); not architectural (R33). -/
def stackDepth : Nat := 4096

/-- The bits that the packed `parent` field of an entry holds while `hasParent = 0`: R51 gives
the field no value then. A FREE VALUE (log entry 4), one for each dictionary index. -/
opaque noParentBits : Nat → BitVec 12

end Sys2Proof.Config
end

