-- ==== Sys2Proof/Syntax.lean ====
section
/-! DEFINITION. The instructions: one code of the compressed bitstream, of one of four formats
(R81) and one of four classes (R84); one constructor for each row of `spec/opcode_table.json`. -/

namespace Sys2Proof

/-- The four formats, one for each code width (R81). -/
inductive Format where
  | c9 | c10 | c11 | c12
  deriving DecidableEq, Repr

/-- The width in bits of a code of the format (R81). -/
def Format.bits : Format → Nat
  | .c9 => 9
  | .c10 => 10
  | .c11 => 11
  | .c12 => 12

/-- The four classes, the engine's opcodes (R84). -/
inductive CodeClass where
  | known | kwkwk | noprev | invalid
  deriving DecidableEq, Repr

/-- The opcode table (R95): a row is a pair (class, format) and its only operand is the whole
code `c`. `NOPREV` exists under `C9` alone. -/
inductive Instr where
  | knownC9 (c : BitVec 9)
  | kwkwkC9 (c : BitVec 9)
  | noprevC9 (c : BitVec 9)
  | invalidC9 (c : BitVec 9)
  | knownC10 (c : BitVec 10)
  | kwkwkC10 (c : BitVec 10)
  | invalidC10 (c : BitVec 10)
  | knownC11 (c : BitVec 11)
  | kwkwkC11 (c : BitVec 11)
  | invalidC11 (c : BitVec 11)
  | knownC12 (c : BitVec 12)
  | kwkwkC12 (c : BitVec 12)
  | invalidC12 (c : BitVec 12)
  deriving DecidableEq, Repr

/-- The format of a row (the table's `format`). -/
def Instr.format : Instr → Format
  | .knownC9 _ | .kwkwkC9 _ | .noprevC9 _ | .invalidC9 _ => .c9
  | .knownC10 _ | .kwkwkC10 _ | .invalidC10 _ => .c10
  | .knownC11 _ | .kwkwkC11 _ | .invalidC11 _ => .c11
  | .knownC12 _ | .kwkwkC12 _ | .invalidC12 _ => .c12

/-- The class of a row (the table's `class`). -/
def Instr.codeClass : Instr → CodeClass
  | .knownC9 _ | .knownC10 _ | .knownC11 _ | .knownC12 _ => .known
  | .kwkwkC9 _ | .kwkwkC10 _ | .kwkwkC11 _ | .kwkwkC12 _ => .kwkwk
  | .noprevC9 _ => .noprev
  | .invalidC9 _ | .invalidC10 _ | .invalidC11 _ | .invalidC12 _ => .invalid

/-- The operand of an instruction, zero-extended to 12 bits (R82). -/
def Instr.code : Instr → Code
  | .knownC9 c | .kwkwkC9 c | .noprevC9 c | .invalidC9 c => c.setWidth 12
  | .knownC10 c | .kwkwkC10 c | .invalidC10 c => c.setWidth 12
  | .knownC11 c | .kwkwkC11 c | .invalidC11 c => c.setWidth 12
  | .knownC12 c | .kwkwkC12 c | .invalidC12 c => c

/-- What selects the row of a code besides its value: no class has bits of its own (R84, R85).
`format` stands for the register `codeSize` (R83). -/
structure Selector where
  format : Format
  dictSize : BitVec 13
  firstOfEpoch : Bool
  deriving DecidableEq, Repr

end Sys2Proof
end

