-- ==== Sys2Proof/WellFormed.lean ====
section
/-! DEFINITION. When an instruction can occur at all, and when a given selector picks its row. -/

namespace Sys2Proof

/-- The smallest number of live entries at which a code of the format is classified (R91). -/
def Format.minDictSize : Format → Nat
  | .c9 => 256
  | .c10 => 511
  | .c11 => 1023
  | .c12 => 2047

/-- The largest number of live entries at which a code of the format is classified (R91, R165);
equally the format's largest value that can be legal (R81). -/
def Format.maxDictSize : Format → Nat
  | .c9 => 510
  | .c10 => 1022
  | .c11 => 2046
  | .c12 => 4094

/-- The selectors that occur between iterations of a run: R40 (b), (c), (d) and the width
schedule of R91. -/
def Selector.legal (σ : Selector) : Bool :=
  decide (σ.format.minDictSize ≤ σ.dictSize.toNat)
    && decide (σ.dictSize.toNat ≤ σ.format.maxDictSize)
    && (!σ.firstOfEpoch || (decide (σ.dictSize.toNat = 256) && decide (σ.format = .c9)))

/-- The selecting condition of the row: the table's `when` (the format) and `cond` (R84). -/
def Instr.selectedBy (i : Instr) (σ : Selector) : Bool :=
  decide (i.format = σ.format) &&
    match i.codeClass with
    | .known => decide (i.code.toNat < σ.dictSize.toNat)
    | .kwkwk => decide (i.code.toNat = σ.dictSize.toNat) && !σ.firstOfEpoch
    | .noprev => decide (i.code.toNat = σ.dictSize.toNat) && σ.firstOfEpoch
    | .invalid => decide (i.code.toNat > σ.dictSize.toNat)

/-- An instruction is well formed when some legal selector picks its row: the value of its code
lies in the range that the class can have under the format (R81, R84, R91). -/
def Instr.wf (i : Instr) : Bool :=
  match i.codeClass with
  | .known => decide (i.code.toNat < i.format.maxDictSize)
  | .kwkwk => decide (i.format.minDictSize ≤ i.code.toNat)
      && decide (i.code.toNat ≤ i.format.maxDictSize)
  | .noprev => decide (i.code.toNat = 256)
  | .invalid => decide (i.format.minDictSize < i.code.toNat)

end Sys2Proof
end

