-- ==== Sys2Proof/Decode.lean ====
section
/-! DEFINITION. From bytes to a code and its row (R56, R82, R84), and back (R93, R94). -/

namespace Sys2Proof

/-- The low `w` bits of `v`, most significant first (R11, R56). -/
def bitsOfNat : Nat → Nat → List Bool
  | 0, _ => []
  | w + 1, v => v.testBit w :: bitsOfNat w v

/-- The number that a string of bits is, most significant first (R82). -/
def natOfBits (bits : List Bool) : Nat :=
  bits.foldl (fun a b => 2 * a + b.toNat) 0

/-- The bit string `B` of a byte sequence: bit 7 of byte 0 first (R56). -/
def bitString (bytes : List Byte) : List Bool :=
  bytes.flatMap fun b => bitsOfNat 8 b.toNat

/-- Why a decoding answers no instruction. -/
inductive DecodeError where
  /-- Fewer bits remain than the format has: the normal end of the stream (R89). Safe. -/
  | endOfStream
  /-- `c = dictSize` with `firstOfEpoch = 1` under a format other than `C9`: the table has no such
  row, because no run reaches it (R84, R40 (d)). The machine raises `NoPrevious`, as R150 says.
  Safe. -/
  | noPreviousOutsideC9 (c : Code)
  deriving DecidableEq, Repr

/-- The class of a code value (R84): the four conditions are exclusive and exhaustive. -/
def classify (σ : Selector) (c : Nat) : CodeClass :=
  if c < σ.dictSize.toNat then .known
  else if c = σ.dictSize.toNat then (if σ.firstOfEpoch then .noprev else .kwkwk)
  else .invalid

/-- The row of the opcode table for a class, a format and a code (R95). -/
def rowInstr : CodeClass → Format → Code → Option Instr
  | .known, .c9, c => some (.knownC9 (c.setWidth 9))
  | .known, .c10, c => some (.knownC10 (c.setWidth 10))
  | .known, .c11, c => some (.knownC11 (c.setWidth 11))
  | .known, .c12, c => some (.knownC12 c)
  | .kwkwk, .c9, c => some (.kwkwkC9 (c.setWidth 9))
  | .kwkwk, .c10, c => some (.kwkwkC10 (c.setWidth 10))
  | .kwkwk, .c11, c => some (.kwkwkC11 (c.setWidth 11))
  | .kwkwk, .c12, c => some (.kwkwkC12 c)
  | .noprev, .c9, c => some (.noprevC9 (c.setWidth 9))
  | .noprev, .c10, _ => none
  | .noprev, .c11, _ => none
  | .noprev, .c12, _ => none
  | .invalid, .c9, c => some (.invalidC9 (c.setWidth 9))
  | .invalid, .c10, c => some (.invalidC10 (c.setWidth 10))
  | .invalid, .c11, c => some (.invalidC11 (c.setWidth 11))
  | .invalid, .c12, c => some (.invalidC12 c)

/-- The instruction that a code is under a selector (R84, R95). -/
def decodeCode (σ : Selector) (c : Code) : Except DecodeError Instr :=
  match rowInstr (classify σ c.toNat) σ.format c with
  | some i => .ok i
  | none => .error (.noPreviousOutsideC9 c)

/-- Cut one code of the selector's format from the front of a bit string (R82, R83); the rest of
the string comes back with it. -/
def decode (σ : Selector) (bits : List Bool) : Except DecodeError (Instr × List Bool) :=
  if bits.length < σ.format.bits then .error .endOfStream
  else
    match decodeCode σ (BitVec.ofNat 12 (natOfBits (bits.take σ.format.bits))) with
    | .ok i => .ok (i, bits.drop σ.format.bits)
    | .error e => .error e

/-- The instruction whose first bit is bit `p` of the bytes (R82; `p` is `bitPos`, R30). -/
def decodeAt (σ : Selector) (bytes : List Byte) (p : Nat) : Except DecodeError Instr :=
  match decode σ ((bitString bytes).drop p) with
  | .ok (i, _) => .ok i
  | .error e => .error e

/-- The format whose width is `w` (R81). -/
def formatOf (w : Nat) : Option Format :=
  match w with
  | 9 => some .c9
  | 10 => some .c10
  | 11 => some .c11
  | 12 => some .c12
  | _ => none

/-- The bits of an instruction: its code, most significant bit first, at the width of its format
(R81, R82). -/
def encode (i : Instr) : List Bool := bitsOfNat i.format.bits i.code.toNat

/-- The byte that the first eight bits of a string are, zero bits standing in for missing ones
(the `PAD` of R94). -/
def byteOfBits (bits : List Bool) : Byte :=
  BitVec.ofNat 8 (natOfBits ((bits ++ List.replicate 8 false).take 8))

/-- The first `n` bytes of a bit string, padded with zero bits. -/
def packBytes : Nat → List Bool → List Byte
  | 0, _ => []
  | n + 1, bits => byteOfBits bits :: packBytes n (bits.drop 8)

/-- The bytes of a bit string: most significant bits first, `PAD` up to the next byte boundary
(R93, R94). -/
def packBits (bits : List Bool) : List Byte := packBytes ((bits.length + 7) / 8) bits

/-- The bytes of a list of codes written `value:width` (R93). -/
def assemble (codes : List (Nat × Nat)) : List Byte :=
  packBits (codes.flatMap fun c => bitsOfNat c.2 c.1)

/-- The bytes of a list of instructions (R80: the codes abut; R93). -/
def encodeStream (is : List Instr) : List Byte := packBits (is.flatMap encode)

/-- The state that selects the row of a code placed alone (log entry 12): for `C9` the state
after `START` (R192), for a wider format the state in which the first code of its segment is
read (R91). -/
def tableSelector (f : Format) : Selector :=
  { format := f, dictSize := BitVec.ofNat 13 f.minDictSize, firstOfEpoch := decide (f = .c9) }

/-- The format of a table word: the one of `nbits` bits, or, where `nbits` counts whole bytes, the
narrowest one that `w` fits in (log entry 12). -/
def tableFormat (nbits w : Nat) : Format :=
  match formatOf nbits with
  | some f => f
  | none => if w < 512 then .c9 else if w < 1024 then .c10 else if w < 2048 then .c11 else .c12

/-- The instruction that the decoder reads from a code whose bits, numbered as the opcode table
numbers them (bit 0 least significant), are `w`: laid out most significant bit first from bit 7
of the first byte, as the stream holds it (R56, R82). -/
def decodeTableWord (nbits w : Nat) : Option Instr :=
  let f := tableFormat nbits w
  if w < 2 ^ f.bits then
    match decodeAt (tableSelector f) (packBits (bitsOfNat f.bits w)) 0 with
    | .ok i => some i
    | .error _ => none
  else none

end Sys2Proof
end

