-- ==== Sys2Proof/Machine/State.lean ====
section
/-! DEFINITION. The state of one engine (R20) with the source and the sink it is joined to (R190,
R191), the state after hardware reset (R39, R250), and the names of the stops. -/

namespace Sys2Proof.Machine

/-- The run state, the status register `phase` (R34). -/
inductive Phase where
  | idle | run | done | fault
  deriving DecidableEq, Repr

/-- Why the last run faulted, the status register `cause` (R35). -/
inductive Cause where
  | none | invalidCode | noPrevious | dictOverflow
  deriving DecidableEq, Repr

/-- The number of a cause (R35, R220). -/
def Cause.number : Cause → BitVec 2
  | .none => 0
  | .invalidCode => 1
  | .noPrevious => 2
  | .dictOverflow => 3

/-- One dictionary entry (R51): the symbol and the back-reference, `none` standing for
`hasParent = 0`, as the rule allows. -/
structure Entry where
  sym : Byte
  parent : Option Code
  deriving DecidableEq, Repr

/-- The dictionary memory (R50): index and entry pairs in one canonical form. An index that is not
listed holds no value (R39, R42); the unit of the memory is the entry, not the byte (R60). -/
abbrev Memory := List (Nat × Entry)

/-- The canonical form: indices strictly rising, all below the capacity (R50). Every listed entry
differs from what an unlisted index holds, which is no value. -/
def Memory.wf (m : Memory) : Bool :=
  decide (m.Pairwise fun a b => a.1 < b.1) && m.all fun c => decide (c.1 < Config.dictCapacity)

/-- A move of one of the agents of R190, or of the host's two commands (R192, R193). -/
inductive Move where
  /-- The engine takes its next step. -/
  | engine
  /-- The host raises `rst` (R250). -/
  | rst
  /-- The host issues `START` (R192). -/
  | start
  /-- The source makes its next byte available (R195). -/
  | offer (b : Byte)
  /-- The source signals the end of the input (R197). -/
  | endInput
  /-- The host drains or resets the source between two runs (R205, R262 (c)). -/
  | drain
  /-- The sink takes the one byte that is offered to it (R199). -/
  | accept
  /-- The sink holds `out_accept` at this level from here on (R191). -/
  | sinkReady (level : Bool)
  deriving DecidableEq, Repr

/-- Everything the spec gives the machine (R20), and below it the model's own fields: the source,
the sink and the schedule of the agents' moves (R190, R191; log entries 5 to 8, 17 and 18). -/
structure State where
  /-- Bits per code (R21). -/
  codeSize : BitVec 4
  /-- The live entry count, and the index the next append writes (R22). -/
  dictSize : BitVec 13
  /-- The code of the previous iteration; may hold no value (R20, R23). -/
  prevCode : Option Code
  /-- The first byte of the previous sequence; may hold no value (R20, R24). -/
  prevFirst : Option Byte
  /-- The next code is the first of its epoch (R25). -/
  firstOfEpoch : Bool
  /-- The bit buffer (R26). -/
  acc : BitVec 19
  /-- How many low bits of `acc` are valid (R27). -/
  nbits : BitVec 5
  /-- How many bytes of the input have been consumed (R29). No step reads it in `IDLE`, where it holds
  no value (R39, R42; log entry 16). -/
  inPos : Nat
  /-- The Dictionary Store (R31). -/
  dict : Memory
  /-- The bytes pushed to the output stream since `START`, oldest first (R32). -/
  out : List Byte
  /-- The run state (R34). -/
  phase : Phase
  /-- Why the last run faulted (R35). -/
  cause : Cause
  /-- The code that faulted; holds no value unless `phase = FAULT` (R36). -/
  faultCode : Option Code
  /-- Model: a fault that is raised while bytes wait for the sink, with its code; it is entered when
  they are all accepted (R226, D18, log entry 17). -/
  raised : Option (Cause × Code)
  /-- Model: the bytes of `IN` that the source has made available in this run (R54, R195). -/
  inBytes : List Byte
  /-- Model: the source has signalled the end of `IN` (`in_end`, R191, R197): outside `RUN`, that of the
  next run (log entry 18). -/
  inEnd : Bool
  /-- Model: how many bytes of `out` the sink has taken (R198, R199). -/
  outTaken : Nat
  /-- Model: the level of `out_accept` (R191). -/
  sinkReady : Bool
  /-- Model: every byte the sink has ever taken, oldest first; a byte once taken stays taken
  (R250). -/
  accepted : List Byte
  /-- Model: the moves to come, soonest first; with none left every turn is the engine's. -/
  moves : List Move
  deriving DecidableEq, Repr

/-- The registers that may hold no value when a rule reads them (R20, R42). -/
inductive Register where
  | prevCode | prevFirst
  deriving DecidableEq, Repr

/-- The faults OF THE MODEL. Each is a read or a step that R42 and R12 leave without a meaning and
that no run reaches. The engine's own faults (R220) are no such stop: their entry is a next
state. -/
inductive Fault where
  /-- Raised by the `KWKWK` operand and the append step on reading a register that holds no value
  (R39, R42, U4). Safe: R42 asks for this fault. -/
  | noValue (r : Register)
  /-- Raised by `DICT_READ` of an index that is not live, or whose entry was never written (R42,
  R133, U5). Safe: R42 asks for this fault. -/
  | deadEntry (index : Nat)
  /-- Raised by a chain walk that has read as many entries as the memory has and met no root: a
  loop, which the engine would walk for ever. R138 rules it out. Safe. -/
  | endlessChain (index : Nat)
  /-- Raised by a step that needs `seq[0]` of an empty sequence, which R12 leaves undefined. No
  walk gives one (R136). Safe. -/
  | emptySequence
  deriving DecidableEq, Repr

/-- The refusals: steps the spec gives no meaning. -/
inductive Refusal where
  /-- Raised by an arm of `exec` whose instruction has no meaning yet; there is none. Safe. -/
  | notModelled (mnemonic : String)
  /-- Raised by a decode step whose `codeSize` is none of 9 to 12: there is no such format (R21,
  R81) and no rule writes such a value. Safe. -/
  | noFormat (codeSize : Nat)
  /-- Raised by a move of the source that has no place in the model: a byte after the end of the
  input, or a change of the input during a run (R205, U10). Safe. -/
  | forbiddenMove (m : Move)
  deriving DecidableEq, Repr

/-- The machine right after hardware reset (R250, R253): `phase` and `cause` as the rule says,
the registers that `may hold no value` (R20) holding none, the dictionary with nothing listed.
R39 gives the other registers no value after this reset: zero stands there (log entry 1). -/
def State.reset : State where
  codeSize := 0
  dictSize := 0
  prevCode := .none
  prevFirst := .none
  firstOfEpoch := false
  acc := 0
  nbits := 0
  inPos := 0
  dict := []
  out := []
  phase := .idle
  cause := .none
  faultCode := .none
  raised := .none
  inBytes := []
  inEnd := false
  outTaken := 0
  sinkReady := true
  accepted := []
  moves := []

end Sys2Proof.Machine
end

