-- ==== Sys2Proof/Machine/Ops.lean ====
section
/-! DEFINITION. The named operations over the dictionary memory and the two streams, the entry of
a fault, the ways out of it, and the end of a run. -/

namespace Sys2Proof.Machine

/-! ### The dictionary memory -/

/-- What the memory holds at an index; `none` for no value (R14, R42). -/
def memRead (m : Memory) (i : Nat) : Option Entry := m.lookup i

/-- Store an entry at an index (R14), keeping the canonical form. -/
def memWrite : Memory → Nat → Entry → Memory
  | [], i, e => [(i, e)]
  | (j, f) :: m, i, e =>
    if i < j then (i, e) :: (j, f) :: m
    else if i = j then (i, e) :: m
    else (j, f) :: memWrite m i e

/-- The 256 entries of the baseline: entry `b` is the symbol `b` with no parent (R52, R131). -/
def singletons : Memory :=
  (List.range Config.nSingletons).map fun b => (b, { sym := BitVec.ofNat 8 b, parent := none })

/-- The 21 bits of the entry at index `i` (R51): `sym` in 20:13, `hasParent` in 12, `parent` in
11:0. The parent field of an entry without a parent holds no value, so it is free (log entry 4). -/
def packEntry (i : Nat) (e : Entry) : BitVec 21 :=
  match e.parent with
  | some p => e.sym ++ (1#1 ++ p)
  | none => e.sym ++ (0#1 ++ Config.noParentBits i)

/-- The entry that 21 bits are (R51). -/
def unpackEntry (v : BitVec 21) : Entry where
  sym := v.extractLsb' 13 8
  parent := if v.getLsbD 12 then some (v.extractLsb' 0 12) else none

/-- `DICT_READ(i)` (R133). A read of an entry that is not live, or that holds no value, is a fault
of the model (R42). -/
def dictRead (s : State) (i : Nat) : Except Fault Entry :=
  if i < s.dictSize.toNat then
    match memRead s.dict i with
    | some e => .ok e
    | none => .error (.deadEntry i)
  else .error (.deadEntry i)

/-- `DICT_RESET` (R131): the 256 singletons, and no value in the entries above them. -/
def dictReset (s : State) : State :=
  { s with dict := singletons, dictSize := BitVec.ofNat 13 Config.nSingletons }

/-- `DICT_APPEND(sym, p)` (R132): `none` where the guard raises `DictOverflow`; nothing is written
then. -/
def dictAppend (sym : Byte) (p : Code) (s : State) : Option State :=
  if s.dictSize.toNat ≥ Config.dictCapacity then none
  else
    some { s with
      dict := memWrite s.dict s.dictSize.toNat { sym := sym, parent := some p }
      dictSize := s.dictSize + 1 }

/-- `CHAIN_WALK(i)` (R134): the bytes of a chain, youngest first. The first argument bounds the
entries read. -/
def chainWalk (s : State) : Nat → Nat → Except Fault (List Byte)
  | 0, i => .error (.endlessChain i)
  | n + 1, i =>
    match dictRead s i with
    | .error f => .error f
    | .ok e =>
      match e.parent with
      | none => .ok [e.sym]
      | some p =>
        match chainWalk s n p.toNat with
        | .error f => .error f
        | .ok w => .ok (e.sym :: w)

/-- `RECONSTRUCT(i)`, the sequence `Seq(i)` (R135, R136). A walk that reads more entries than the
memory has goes round for ever. -/
def reconstruct (s : State) (i : Nat) : Except Fault (List Byte) :=
  match chainWalk s Config.dictCapacity i with
  | .error f => .error f
  | .ok w => .ok w.reverse

/-! ### The input stream -/

/-- What the engine sees when it wants a byte (R195). -/
inductive Avail where
  | byte (b : Byte) | ended | wait
  deriving DecidableEq, Repr

/-- `InAvail()` (R195, R197). Only `ReadCode` asks for it, in `RUN`, where `inPos` holds a value. -/
def inAvail (s : State) : Avail :=
  match s.inBytes[s.inPos]? with
  | some b => .byte b
  | none => if s.inEnd then .ended else .wait

/-- The bytes of the source that the engine has not taken. In `IDLE` the cursor `inPos` holds no value
(R39), so it is not read there (R42): since the last `rst` the engine has taken nothing (R255), and
every byte at the source is untaken. DESIGN CHOICE (log entry 16). -/
def untaken (s : State) : List Byte :=
  match s.phase with
  | .idle => s.inBytes
  | .run | .done | .fault => s.inBytes.drop s.inPos

/-- The state after `InPop()` (R196): the cursor moves on by one byte. -/
def inPop (s : State) : State := { s with inPos := s.inPos + 1 }

/-! ### The output stream -/

/-- A byte is offered to the sink and not yet taken (R191 `out_valid`, R199). In `IDLE` none is, as
`rst` withdraws it (R250); the model has `out` empty there, where R39 gives it no value (DESIGN
CHOICE, log entry 1). -/
def outPending (s : State) : Bool := decide (s.outTaken < s.out.length)

/-- The sink takes the byte that is offered to it, if there is one (R198, R199). -/
def sinkTake (s : State) : State :=
  match s.out[s.outTaken]? with
  | some b => { s with outTaken := s.outTaken + 1, accepted := s.accepted ++ [b] }
  | none => s

/-- `OutPush(b)` (R198): completed at once while the sink holds `out_accept`. -/
def outPush (s : State) (b : Byte) : State :=
  let s' := { s with out := s.out ++ [b] }
  if s.sinkReady then sinkTake s' else s'

/-- The output step (R155): the bytes of the sequence, first byte first. -/
def outPushAll (s : State) (seq : List Byte) : State := seq.foldl outPush s

/-! ### Fault entry, the ways out of it, and the end of a run -/

/-- Fault entry (R226): the cause, the code, the phase, and nothing else. No fault waits after it. -/
def takeFault (k : Cause) (c : Code) (s : State) : State :=
  { s with cause := k, faultCode := some c, phase := .fault, raised := none }

/-- `raise` (R15): fault entry, which takes effect only when the sink has accepted every byte pushed
before it (R226, R200, D18). Until then the fault waits, and the run goes on to show `RUN` (log entry
17). -/
def raiseFault (k : Cause) (c : Code) (s : State) : State :=
  if outPending s then { s with raised := some (k, c) } else takeFault k c s

/-- What `START` does where it is accepted (R192). The bytes the engine has taken are gone from the
source; those it has not taken are the start of the new input (R255). DESIGN CHOICE (log entry 6);
which ones these are in `IDLE`: log entry 16. -/
def startRun (s : State) : State :=
  dictReset { s with
    codeSize := BitVec.ofNat 4 Config.minCodeSize
    firstOfEpoch := true
    acc := 0
    nbits := 0
    inPos := 0
    out := []
    cause := .none
    faultCode := none
    raised := none
    prevCode := none
    prevFirst := none
    phase := .run
    inBytes := untaken s
    outTaken := 0 }

/-- The command `START` (R192): accepted in every phase but `RUN`, ignored there (R203). -/
def startCommand (s : State) : State :=
  match s.phase with
  | .run => s
  | .idle | .done | .fault => startRun s

/-- Hardware reset (R250): the engine as `State.reset` gives it. The source keeps the bytes not yet
taken (in `IDLE` all of them: log entry 16), the sink what it has taken and its level, and the moves
to come stand. DESIGN CHOICE (log entry 6). The end signal of an abandoned run is over with it, that of
the next run stands (R191, log entry 18). -/
def hardwareReset (s : State) : State :=
  { State.reset with
    inBytes := untaken s
    inEnd :=
      match s.phase with
      | .run => false
      | .idle | .done | .fault => s.inEnd
    sinkReady := s.sinkReady
    accepted := s.accepted
    moves := s.moves }

/-- `EndOfRun` (R161): the phase and nothing else. -/
def endOfRun (s : State) : State := { s with phase := .done }

/-! ### The moves of the source -/

/-- The end that the engine has acted on is over with its run: `in_end` speaks of one run (R191), and
the source may go on to the next without a drain (R205). DESIGN CHOICE (log entry 18). -/
def endSpent (s : State) : State := { s with inEnd := false }

/-- A new byte from the source (R195); none can follow the end of the input (R197). -/
def sourceOffer (b : Byte) (s : State) : Option State :=
  if s.inEnd then none else some { s with inBytes := s.inBytes ++ [b] }

/-- The source signals the end of the input (R197). -/
def sourceEnd (s : State) : State := { s with inEnd := true }

/-- The host drains the source between two runs: the bytes not taken are withdrawn and the end
signal falls (R205, R262 (c)). There is no such move during a run (R205). DESIGN CHOICE (log entry
6). In `IDLE`, where `inPos` holds no value (R39), all bytes are withdrawn (log entry 16). -/
def sourceDrain (s : State) : Option State :=
  match s.phase with
  | .run => none
  | .idle => some { s with inBytes := [], inEnd := false }
  | .done | .fault => some { s with inBytes := s.inBytes.take s.inPos, inEnd := false }

end Sys2Proof.Machine
end

