-- ==== Sys2Proof/Machine/Reader.lean ====
section
/-! DEFINITION. The Bitstream Reader (R110 to R118): `REFILL`, `EXTRACT` and `ReadCode`. -/

namespace Sys2Proof.Machine

/-- The bit position in the stream, the engine's program counter (R30, R16). -/
def bitPos (s : State) : Nat := 8 * s.inPos - s.nbits.toNat

/-- `REFILL` with the byte that `InAvail` shows (R111). -/
def refill (b : Byte) (s : State) : State :=
  { inPop s with
    acc := (s.acc <<< 8) ||| b.setWidth 19
    nbits := s.nbits + 8 }

/-- The code that `EXTRACT` delivers (R112): the `codeSize` oldest valid bits. -/
def extractCode (s : State) : Code :=
  BitVec.ofNat 12 ((s.acc.toNat >>> (s.nbits.toNat - s.codeSize.toNat)) % 2 ^ s.codeSize.toNat)

/-- What `EXTRACT` leaves in the bit buffer (R112): the delivered bits are dropped. -/
def extractRest (s : State) : State :=
  { s with
    acc := BitVec.ofNat 19 (s.acc.toNat % 2 ^ (s.nbits.toNat - s.codeSize.toNat))
    nbits := BitVec.ofNat 5 (s.nbits.toNat - s.codeSize.toNat) }

/-- The three answers of the reader (R110), each with the state it leaves. -/
inductive ReadResult where
  | code (c : Code) (s : State)
  | ended (s : State)
  | hold (s : State)
  deriving DecidableEq, Repr

/-- The loop of `ReadCode` (R114), at most `n` refills long. -/
def readLoop : Nat → State → ReadResult
  | 0, s => .code (extractCode s) (extractRest s)
  | n + 1, s =>
    if s.nbits.toNat < s.codeSize.toNat then
      match inAvail s with
      | .byte b => readLoop n (refill b s)
      | .ended => .ended s
      | .wait => .hold s
    else .code (extractCode s) (extractRest s)

/-- `ReadCode` (R114): two refills always reach a code. -/
def readCode (s : State) : ReadResult := readLoop 2 s

end Sys2Proof.Machine
end

