-- ==== Sys2Proof/Machine/Interface.lean ====
section
/-! DEFINITION. The outputs of the engine (R37, R191), functions of its state. -/

namespace Sys2Proof.Machine

/-- `busy` (R37). -/
def busyLine (s : State) : Bool := decide (s.phase = .run)

/-- `done` (R37). -/
def doneLine (s : State) : Bool := decide (s.phase = .done)

/-- `fault` (R37). -/
def faultLine (s : State) : Bool := decide (s.phase = .fault)

/-- `out_valid`: a byte is offered to the sink (R191). -/
def outValid (s : State) : Bool := outPending s

/-- `out_byte`: the byte being pushed, while there is one (R191). -/
def outByte (s : State) : Option Byte := s.out[s.outTaken]?

/-- `in_avail`: the source offers a byte (R191): there is one that the engine has not taken (in
`IDLE`: log entry 16). -/
def inAvailLine (s : State) : Bool := !(untaken s).isEmpty

/-- `in_end`: no byte will ever be offered again in this run (R191). -/
def inEndLine (s : State) : Bool := s.inEnd && !inAvailLine s

/-- `in_take`: the engine's next turn consumes the offered byte (R191); never outside `RUN`
(R255). -/
def inTake (s : State) : Bool :=
  decide (s.phase = .run) && !outPending s && s.raised.isNone && inAvailLine s
    && decide (s.nbits.toNat < s.codeSize.toNat)

end Sys2Proof.Machine
end

