-- ==== Sys2Proof/Machine/Illegal.lean ====
section
/-! DEFINITION. The illegal classes `NOPREV` (R154, R222) and `INVALID` (R153, R221). Each takes the
engine's fault: a next state in phase `FAULT`, or one in which the fault waits for the sink. -/

namespace Sys2Proof.Machine

/-- `NOPREV` (R154): `raise NoPrevious(c)`. -/
def execNoprevC9 (c : BitVec 9) (s : State) : Host.Outcome State Fault Refusal :=
  .next (raiseFault .noPrevious (c.setWidth 12) s)

/-- `INVALID` under `C9` (R153): `raise InvalidCode(c)`. -/
def execInvalidC9 (c : BitVec 9) (s : State) : Host.Outcome State Fault Refusal :=
  .next (raiseFault .invalidCode (c.setWidth 12) s)

/-- `INVALID` under `C10` (R153). -/
def execInvalidC10 (c : BitVec 10) (s : State) : Host.Outcome State Fault Refusal :=
  .next (raiseFault .invalidCode (c.setWidth 12) s)

/-- `INVALID` under `C11` (R153). -/
def execInvalidC11 (c : BitVec 11) (s : State) : Host.Outcome State Fault Refusal :=
  .next (raiseFault .invalidCode (c.setWidth 12) s)

/-- `INVALID` under `C12` (R153). -/
def execInvalidC12 (c : BitVec 12) (s : State) : Host.Outcome State Fault Refusal :=
  .next (raiseFault .invalidCode c s)

end Sys2Proof.Machine
end

