-- ==== Sys2Proof/Machine/Flags.lean ====
section
/-! DEFINITION. The one flag and what is computed beside it: the record step (R157), the growth
test (R158), `GROW` (R159) and `EPOCH_RESET` (R160). -/

namespace Sys2Proof.Machine

/-- The record step (R157): the previous pair is written and `firstOfEpoch` cleared. -/
def recordStep (first : Byte) (c : Code) (s : State) : State :=
  { s with prevFirst := some first, prevCode := some c, firstOfEpoch := false }

/-- The growth test (R158): `dictSize` equals the threshold of the width. -/
def growthDue (s : State) : Bool :=
  decide (s.dictSize.toNat = 2 ^ s.codeSize.toNat - 1)

/-- `GROW` (R159). -/
def grow (s : State) : State := { s with codeSize := s.codeSize + 1 }

/-- `EPOCH_RESET` (R160): the flag is set again. -/
def epochReset (s : State) : State :=
  { dictReset s with codeSize := BitVec.ofNat 4 Config.minCodeSize, firstOfEpoch := true }

/-- Step 6 of the iteration (R150, R158). -/
def growthStep (s : State) : State :=
  if growthDue s then
    if s.codeSize.toNat < Config.maxCodeSize then grow s else epochReset s
  else s

end Sys2Proof.Machine
end

