-- ==== Sys2Proof/Machine/Operands.lean ====
section
/-! DEFINITION. The operand forms: the sequence that a code of a legal class stands for (R151,
R152). The only addressing mode is the direct index (R130). -/

namespace Sys2Proof.Machine

/-- The sequence of a `KNOWN` code: the chain of its entry (R151). -/
def seqKnown (c : Code) (s : State) : Except Fault (List Byte) := reconstruct s c.toNat

/-- The sequence of a `KWKWK` code: the previous sequence and its own first byte once more
(R152). The entry of the code itself is not read. A read of `prevCode` or `prevFirst` while it holds
no value is a fault of the model, as R42 demands (U4). -/
def seqKwkwk (s : State) : Except Fault (List Byte) :=
  match s.prevCode with
  | none => .error (.noValue .prevCode)
  | some p =>
    match s.prevFirst with
    | none => .error (.noValue .prevFirst)
    | some b =>
      match reconstruct s p.toNat with
      | .error f => .error f
      | .ok w => .ok (w ++ [b])

end Sys2Proof.Machine
end

