-- ==== Sys2Proof/Machine/Iteration.lean ====
section
/-! DEFINITION. What the legal classes share: steps 3 to 6 of the iteration (R150). -/

namespace Sys2Proof.Machine

/-- The append step (R156): nothing in the first iteration of an epoch, else one entry whose parent
is the previous code. `none` where the append overflows (R132). A read of `prevCode` while it holds no
value is a fault of the model, as R42 demands (U4). -/
def appendStep (first : Byte) (s : State) : Except Fault (Option State) :=
  if s.firstOfEpoch then .ok (some s)
  else
    match s.prevCode with
    | none => .error (.noValue .prevCode)
    | some p => .ok (dictAppend first p s)

/-- Steps 3 to 6 of the iteration of code `c` with its sequence (R150): output, append, record,
growth test. An overflow faults after the output step (R223), once its bytes are accepted (R226). -/
def finishCode (c : Code) (seq : List Byte) (s : State) : Host.Outcome State Fault Refusal :=
  match seq with
  | [] => .fault .emptySequence
  | first :: _ =>
    match appendStep first (outPushAll s seq) with
    | .error f => .fault f
    | .ok none => .next (raiseFault .dictOverflow c (outPushAll s seq))
    | .ok (some s') => .next (growthStep (recordStep first c s'))

/-- The iteration of a code whose sequence has been looked up (R150, step 2 on). -/
def runSequence (c : Code) (seq : Except Fault (List Byte)) (s : State) :
    Host.Outcome State Fault Refusal :=
  match seq with
  | .error f => .fault f
  | .ok w => finishCode c w s

end Sys2Proof.Machine
end

