-- ==== Sys2Proof/Machine/Known.lean ====
section
/-! DEFINITION. The class `KNOWN` (R151), one meaning for each format. -/

namespace Sys2Proof.Machine

/-- `KNOWN` under `C9` (R151). -/
def execKnownC9 (c : BitVec 9) (s : State) : Host.Outcome State Fault Refusal :=
  runSequence (c.setWidth 12) (seqKnown (c.setWidth 12) s) s

/-- `KNOWN` under `C10` (R151). -/
def execKnownC10 (c : BitVec 10) (s : State) : Host.Outcome State Fault Refusal :=
  runSequence (c.setWidth 12) (seqKnown (c.setWidth 12) s) s

/-- `KNOWN` under `C11` (R151). -/
def execKnownC11 (c : BitVec 11) (s : State) : Host.Outcome State Fault Refusal :=
  runSequence (c.setWidth 12) (seqKnown (c.setWidth 12) s) s

/-- `KNOWN` under `C12` (R151). -/
def execKnownC12 (c : BitVec 12) (s : State) : Host.Outcome State Fault Refusal :=
  runSequence c (seqKnown c s) s

end Sys2Proof.Machine
end

