-- ==== Sys2Proof/Machine/Kwkwk.lean ====
section
/-! DEFINITION. The class `KWKWK` (R152), one meaning for each format. -/

namespace Sys2Proof.Machine

/-- `KWKWK` under `C9` (R152). -/
def execKwkwkC9 (c : BitVec 9) (s : State) : Host.Outcome State Fault Refusal :=
  runSequence (c.setWidth 12) (seqKwkwk s) s

/-- `KWKWK` under `C10` (R152). -/
def execKwkwkC10 (c : BitVec 10) (s : State) : Host.Outcome State Fault Refusal :=
  runSequence (c.setWidth 12) (seqKwkwk s) s

/-- `KWKWK` under `C11` (R152). -/
def execKwkwkC11 (c : BitVec 11) (s : State) : Host.Outcome State Fault Refusal :=
  runSequence (c.setWidth 12) (seqKwkwk s) s

/-- `KWKWK` under `C12` (R152). -/
def execKwkwkC12 (c : BitVec 12) (s : State) : Host.Outcome State Fault Refusal :=
  runSequence c (seqKwkwk s) s

end Sys2Proof.Machine
end

