-- ==== Sys2Proof/Machine/Dispatch.lean ====
section
/-! DEFINITION. The meaning of every row of the opcode table (R95). -/

namespace Sys2Proof.Machine

/-- The effect of a code once its class is known, in the state that `ReadCode` left (R150). -/
def exec (i : Instr) (s : State) : Host.Outcome State Fault Refusal :=
  match i with
  | .knownC9 c => Sys2Proof.Machine.execKnownC9 c s
  | .kwkwkC9 c => Sys2Proof.Machine.execKwkwkC9 c s
  | .noprevC9 c => Sys2Proof.Machine.execNoprevC9 c s
  | .invalidC9 c => Sys2Proof.Machine.execInvalidC9 c s
  | .knownC10 c => Sys2Proof.Machine.execKnownC10 c s
  | .kwkwkC10 c => Sys2Proof.Machine.execKwkwkC10 c s
  | .invalidC10 c => Sys2Proof.Machine.execInvalidC10 c s
  | .knownC11 c => Sys2Proof.Machine.execKnownC11 c s
  | .kwkwkC11 c => Sys2Proof.Machine.execKwkwkC11 c s
  | .invalidC11 c => Sys2Proof.Machine.execInvalidC11 c s
  | .knownC12 c => Sys2Proof.Machine.execKnownC12 c s
  | .kwkwkC12 c => Sys2Proof.Machine.execKwkwkC12 c s
  | .invalidC12 c => Sys2Proof.Machine.execInvalidC12 c s

end Sys2Proof.Machine
end

