-- ==== Sys2Proof/Machine/Loop.lean ====
section
/-! DEFINITION. The turns: the engine's (`DecodeStep`, R150) and those of the other agents
(R190). -/

namespace Sys2Proof.Machine

/-- What selects the row of the code just read (R84), under the format it was read in. -/
def selectorOf (f : Format) (s : State) : Selector :=
  { format := f, dictSize := s.dictSize, firstOfEpoch := s.firstOfEpoch }

/-- Classify and run the code just read (R150). The `NOPREV` condition under a format other than
`C9`, which has no row and which no run reaches, raises `NoPrevious` as R150 says. -/
def runCode (f : Format) (c : Code) (s : State) : Host.Outcome State Fault Refusal :=
  match decodeCode (selectorOf f s) c with
  | .ok i => exec i s
  | .error _ => .next (raiseFault .noPrevious c s)

/-- One iteration, `DecodeStep` (R150). A hold leaves what `ReadCode` has done (R150, R201). The end of
the input ends the run (R161), and the end signal with it. -/
def decodeStep (s : State) : Host.Outcome State Fault Refusal :=
  match formatOf s.codeSize.toNat with
  | none => .refused (.noFormat s.codeSize.toNat)
  | some f =>
    match readCode s with
    | .hold s' => .next s'
    | .ended s' => .next (endSpent (endOfRun s'))
    | .code c s' => runCode f c s'

/-- The engine's turn. While a pushed byte is not accepted it holds, and goes on with the sink's
`out_accept` (R199, R200); a fault that waited for the sink is entered then (R226). Outside `RUN` the
engine has no step (R194, R201). -/
def engineTurn (s : State) : Host.Outcome State Fault Refusal :=
  if outPending s then .next (if s.sinkReady then sinkTake s else s)
  else
    match s.phase with
    | .run =>
      match s.raised with
      | some (k, c) => .next (takeFault k c s)
      | none => decodeStep s
    | .idle | .done | .fault => .next s

/-- The turn of the agent whose move it is (R190). -/
def moveTurn (m : Move) (s : State) : Host.Outcome State Fault Refusal :=
  match m with
  | .engine => engineTurn s
  | .rst => .next (hardwareReset s)
  | .start => .next (startCommand s)
  | .offer b =>
    match sourceOffer b s with
    | some s' => .next s'
    | none => .refused (.forbiddenMove m)
  | .endInput => .next (sourceEnd s)
  | .drain =>
    match sourceDrain s with
    | some s' => .next s'
    | none => .refused (.forbiddenMove m)
  | .accept => .next (sinkTake s)
  | .sinkReady level => .next { s with sinkReady := level }

/-- The next turn: the soonest scheduled move, or the engine's own when none is scheduled. -/
def nextTurn (s : State) : Host.Outcome State Fault Refusal :=
  match s.moves with
  | [] => engineTurn s
  | m :: ms => moveTurn m { s with moves := ms }

end Sys2Proof.Machine
end

