-- ==== Sys2Proof/Machine/Load.lean ====
section
/-! DEFINITION. Placing one code where the next engine turn reads it (log entry 12). -/

namespace Sys2Proof.Machine

/-- Entries 256 to `n - 1`, each the byte 0 followed by itself: what the literal 0, given over and
over from the start of an epoch, appends (R156). -/
def fillerEntries (n : Nat) : Memory :=
  (List.range (n - 256)).map fun k => (256 + k, { sym := 0, parent := some 0 })

/-- The engine where the first code of the format's segment is read (R91): for `C9` the state after
`START`, for a wider format that of the epoch which has read the literal 0 up to there. -/
def formatStart (f : Format) (s : State) : State :=
  match f with
  | .c9 => startRun s
  | .c10 | .c11 | .c12 =>
    { startRun s with
      codeSize := BitVec.ofNat 4 f.bits
      dictSize := BitVec.ofNat 13 f.minDictSize
      dict := singletons ++ fillerEntries f.minDictSize
      firstOfEpoch := false
      prevCode := some 0
      prevFirst := some 0 }

/-- The engine about to read the code `w` of the format, which is the whole of its input. -/
def placeCode (f : Format) (w : Nat) (s : State) : State :=
  { formatStart f s with
    inBytes := packBits (bitsOfNat f.bits w)
    inEnd := true
    sinkReady := true
    moves := [] }

end Sys2Proof.Machine
end

