-- ==== Sys2Proof/Machine/Step.lean ====
section
/-! DEFINITION. One step of the machine, and the placing of one instruction for it. -/

namespace Sys2Proof.Machine

/-- One step: one turn of one agent (R190); the engine's turn is one iteration (R150). -/
def step (s : State) : Host.Outcome State Fault Refusal := nextTurn s

/-- The state with the code `w` of the opcode table's format placed so that the next step reads
and runs it (log entry 12). -/
def State.withFetchWord (s : State) (nbits w : Nat) : State :=
  placeCode (tableFormat nbits w) w s

end Sys2Proof.Machine
end

