-- ==== Sys2Proof/Safety.lean ====
section
/-! DEFINITION. What the statements speak of: the invariants of a run (R28, R40), the effect of an
iteration written out field by field (R155 to R160), runs, and the two readings of a whole stream
that do not mention the machine (R91, R96, R136, R139, R152). -/

namespace Sys2Proof.Machine

/-! ### Invariants -/

/-- The reader's invariant (R28, R115): the valid bits of `acc` are the bits of the input from
`bitPos` up to the bytes consumed. -/
structure ReaderOk (s : State) : Prop where
  cursor : s.inPos ≤ s.inBytes.length
  held : s.nbits.toNat ≤ 8 * s.inPos
  bits : s.acc.toNat = natOfBits (((bitString s.inBytes).take (8 * s.inPos)).drop (bitPos s))

/-- The dictionary's invariant (R40 (f), R52, R53, R138). -/
structure DictOk (s : State) : Prop where
  singleton : ∀ b, b < 256 → memRead s.dict b = some { sym := BitVec.ofNat 8 b, parent := none }
  dynamic : ∀ i, 256 ≤ i → i < s.dictSize.toNat →
    ∃ e p, memRead s.dict i = some e ∧ e.parent = some p ∧ p.toNat < i
  dead : ∀ i, s.dictSize.toNat ≤ i → memRead s.dict i = none

/-- The previous pair's invariant (R40 (e), R164). -/
def PreviousOk (s : State) : Prop :=
  s.firstOfEpoch = false →
    ∃ p b w, s.prevCode = some p ∧ s.prevFirst = some b ∧ p.toNat < s.dictSize.toNat ∧
      reconstruct s p.toNat = .ok (b :: w)

/-- What holds of the decoder in phase `RUN` (R40). -/
structure RunOk (s : State) : Prop where
  format : ∃ f, formatOf s.codeSize.toNat = some f ∧ (selectorOf f s).legal = true
  dict : DictOk s
  previous : PreviousOk s

/-- The invariant of the machine: it holds at reset and every step keeps it. In `IDLE`, where R39 gives
`out` no value, `taken` and `sink` speak of the empty `out` of log entry 1. -/
structure MachineOk (s : State) : Prop where
  memory : s.dict.wf = true
  causeSet : s.cause ≠ .none ↔ s.phase = .fault
  faultCodeSet : s.faultCode.isSome = true ↔ s.phase = .fault
  taken : s.outTaken ≤ s.out.length
  endTaken : s.phase = .done ∨ s.phase = .fault → s.outTaken = s.out.length
  noneRaised : s.raised = none
  sink : ∃ earlier, s.accepted = earlier ++ s.out.take s.outTaken
  reader : s.phase ≠ .idle → ReaderOk s ∧ s.nbits.toNat < s.codeSize.toNat
  run : s.phase = .run → RunOk s

/-- The moves that have a place in the model (R205): no byte after the end of the input, no change
of the input during a run. -/
def Move.allowed (m : Move) (s : State) : Bool :=
  match m with
  | .offer _ => !s.inEnd
  | .drain => decide (s.phase ≠ .run)
  | .engine | .rst | .start | .endInput | .accept | .sinkReady _ => true

/-! ### The effect of an iteration -/

/-- The append of this iteration cannot stop it: it appends nothing, or the previous code has a
value and the memory has room (R132, R156). -/
def Appendable (s : State) : Prop :=
  s.firstOfEpoch = true ∨ (s.prevCode.isSome = true ∧ s.dictSize.toNat < 4096)

/-- `dictSize` after the append step (R156). -/
def sizeAfterAppend (s : State) : Nat :=
  if s.firstOfEpoch then s.dictSize.toNat else s.dictSize.toNat + 1

/-- The growth test of this iteration finds its equality (R158). -/
def reachesThreshold (s : State) : Prop := sizeAfterAppend s = 2 ^ s.codeSize.toNat - 1

/-- Steps 3 to 6 of the iteration of code `c` with sequence `seq`, as fields of the state after it
(R155 to R160), and what they leave alone. -/
structure IterationEffect (c : Code) (seq : List Byte) (s t : State) : Prop where
  out : t.out = s.out ++ seq
  prevCode : t.prevCode = some c
  prevFirst : t.prevFirst = seq.head?
  widens : reachesThreshold s → s.codeSize.toNat < 12 →
    t.codeSize.toNat = s.codeSize.toNat + 1 ∧ t.dictSize.toNat = sizeAfterAppend s ∧
      t.firstOfEpoch = false
  resets : reachesThreshold s → 12 ≤ s.codeSize.toNat →
    t.codeSize.toNat = 9 ∧ t.dictSize.toNat = 256 ∧ t.firstOfEpoch = true ∧
      (∀ i, memRead t.dict i =
        if i < 256 then some { sym := BitVec.ofNat 8 i, parent := none } else none)
  stays : ¬ reachesThreshold s →
    t.codeSize = s.codeSize ∧ t.dictSize.toNat = sizeAfterAppend s ∧ t.firstOfEpoch = false
  appends : s.firstOfEpoch = false → (reachesThreshold s → s.codeSize.toNat < 12) →
    ∃ first p, seq.head? = some first ∧ s.prevCode = some p ∧
      memRead t.dict s.dictSize.toNat = some { sym := first, parent := some p }
  keepsEntries : (reachesThreshold s → s.codeSize.toNat < 12) →
    ∀ i, (s.firstOfEpoch = false → i ≠ s.dictSize.toNat) → memRead t.dict i = memRead s.dict i
  keepsReader : t.acc = s.acc ∧ t.nbits = s.nbits ∧ t.inPos = s.inPos
  keepsStatus : t.phase = s.phase ∧ t.cause = s.cause ∧ t.faultCode = s.faultCode ∧
    t.raised = s.raised
  sinkTakes : s.sinkReady = true → s.outTaken = s.out.length →
    t.outTaken = t.out.length ∧ t.accepted = s.accepted ++ seq
  sinkHolds : s.sinkReady = false → t.outTaken = s.outTaken ∧ t.accepted = s.accepted
  keepsOutside : t.inBytes = s.inBytes ∧ t.inEnd = s.inEnd ∧ t.sinkReady = s.sinkReady ∧
    t.moves = s.moves

/-! ### Runs -/

/-- `n` steps, up to the first fault or refusal. -/
def runSteps : Nat → State → Host.Outcome State Fault Refusal
  | 0, s => .next s
  | n + 1, s =>
    match step s with
    | .next t => runSteps n t
    | .fault f => .fault f
    | .refused r => .refused r

/-- The state after `START` with the whole of `IN` at the source and a sink that takes every byte
at once (R162, R195). -/
def started (input : List Byte) : State :=
  startCommand { State.reset with inBytes := input, inEnd := true }

/-- `Decode(IN)` (R162): the run, for as many steps as it can need. -/
def decodeRun (input : List Byte) : Host.Outcome State Fault Refusal :=
  runSteps (8 * input.length / 9 + 1) (started input)

/-! ### A stream read without the machine -/

/-- The format of code `n` of an epoch (R91). -/
def scheduleFormat (n : Nat) : Format :=
  if n ≤ 256 then .c9 else if n ≤ 768 then .c10 else if n ≤ 1792 then .c11 else .c12

/-- The index of the code after code `n` (R91, R92). -/
def nextIndex (n : Nat) : Nat := if n = 3840 then 1 else n + 1

/-- The values code `n` of an epoch may have (R96). -/
def legalCode (n c : Nat) : Bool :=
  if n = 1 then decide (c ≤ 255) else decide (c ≤ 254 + n)

/-- Every code of the stream is legal, cut from code `n` of an epoch on by the schedule (R96). The
first argument bounds the number of codes. -/
def legalFrom : Nat → Nat → List Bool → Bool
  | 0, _, _ => true
  | k + 1, n, bits =>
    if bits.length < (scheduleFormat n).bits then true
    else
      legalCode n (natOfBits (bits.take (scheduleFormat n).bits)) &&
        legalFrom k (nextIndex n) (bits.drop (scheduleFormat n).bits)

/-- A byte sequence that decodes without fault (R96). -/
def legalStream (input : List Byte) : Bool :=
  legalFrom (8 * input.length) 1 (bitString input)

/-- The sequence of a code in a table of whole sequences: `table` holds those of the codes from 256
up, `prev` is the previous sequence (the source's wording of step 2, R152). -/
def tableSequence (table : List (List Byte)) (prev : List Byte) (c : Nat) : List Byte :=
  if c < 256 then [BitVec.ofNat 8 c]
  else if c < 256 + table.length then table.getD (c - 256) []
  else prev ++ prev.take 1

/-- The output of the stream by a decoder that keeps whole sequences in place of chains (R136,
R139, R152), from code `n` of an epoch on; it stops at the first illegal code. -/
def tableOutput : Nat → Nat → List (List Byte) → List Byte → List Bool → List Byte
  | 0, _, _, _, _ => []
  | k + 1, n, table, prev, bits =>
    if bits.length < (scheduleFormat n).bits then []
    else if legalCode n (natOfBits (bits.take (scheduleFormat n).bits)) then
      let seq := tableSequence table prev (natOfBits (bits.take (scheduleFormat n).bits))
      let table' := if n = 1 then table else table ++ [prev ++ seq.take 1]
      seq ++ tableOutput k (nextIndex n) (if n = 3840 then [] else table') seq
        (bits.drop (scheduleFormat n).bits)
    else []

end Sys2Proof.Machine
end

