-- ==== Sys2Proof/Certificates/Slice0/Obligations.lean ====
section
/-! DEFINITION. The statements for the provers. A docstring names the rule of the spec a statement
formalises; where that rule is an inference the spec marks as its own, the docstring says so. -/

open Sys2Proof Sys2Proof.Machine

/-! ### Reset, `START` and the host's procedure -/

/-- R250, R253: after hardware reset the engine is idle with its status lines low and no entry of
the dictionary holds a value, and with no outside move it stays as it is. -/
def Obligations.ResetRestsInIdle : Prop :=
  State.reset.phase = .idle ∧ State.reset.cause = .none ∧ State.reset.faultCode = none ∧
    busyLine State.reset = false ∧ doneLine State.reset = false ∧ faultLine State.reset = false ∧
    (∀ i, memRead State.reset.dict i = none) ∧ step State.reset = .next State.reset

/-- R250: `rst` is accepted in every phase. The run is abandoned, a byte offered and not accepted is
withdrawn and bytes accepted stay accepted. That the source keeps the bytes not yet taken is the
model's choice (log entry 6): R250 says only that the bytes taken are lost. Which bytes are untaken in
`IDLE`, where `inPos` holds no value, and that the end signal of an abandoned run is over with it, are
the model's choices too (log entries 16 and 18). -/
def Obligations.HardwareResetAbandonsTheRun : Prop :=
  ∀ (s : State) ms, s.moves = .rst :: ms →
    ∃ t, step s = .next t ∧ t.phase = .idle ∧ t.cause = .none ∧ t.faultCode = none ∧
      t.prevCode = none ∧ t.prevFirst = none ∧ (∀ i, memRead t.dict i = none) ∧
      outPending t = false ∧ t.accepted = s.accepted ∧
      untaken t = untaken s ∧ t.moves = ms ∧ t.raised = none ∧
      (s.phase = .run → t.inEnd = false) ∧ (s.phase ≠ .run → t.inEnd = s.inEnd)

/-- R192, R203: `START` outside `RUN` writes every register of the engine; in `RUN` it is ignored. -/
def Obligations.StartWritesEveryRegister : Prop :=
  ∀ (s : State) ms, s.moves = .start :: ms →
    (s.phase ≠ .run →
      ∃ t, step s = .next t ∧
        (∀ i, memRead t.dict i =
          if i < 256 then some { sym := BitVec.ofNat 8 i, parent := none } else none) ∧
        t.dictSize = 256 ∧ t.codeSize = 9 ∧ t.firstOfEpoch = true ∧ t.acc = 0 ∧ t.nbits = 0 ∧
        t.inPos = 0 ∧ t.out = [] ∧ t.cause = .none ∧ t.faultCode = none ∧ t.prevCode = none ∧
        t.prevFirst = none ∧ t.phase = .run ∧ t.moves = ms) ∧
    (s.phase = .run → step s = .next { s with moves := ms })

/-- The host's procedure (R204, R205) and the independence of runs (R206, an inference of the spec):
from any state outside `RUN`, draining the source, delivering `input`, signalling the end and
issuing `START` gives the engine that `START` gives after hardware reset, with `input` before it.
Draining is the model's move (log entry 6); in `IDLE`, where `inPos` holds no value, it withdraws every
byte (log entry 16). Runs follow one another without a drain (R205). How they do is the model's choice:
that outside `RUN`, while the end is not signalled, delivering, ending and `START` load the untaken bytes
and then `input`, also after a fault, where R205 and R262 (c) have the host drain (log entry 6); that an
end raised before `START` is kept by it (log entries 5 and 18; R255 says it of an empty input alone); and
that where a run ends in `DONE` the end signal is over with it (log entry 18). -/
def Obligations.HostProcedureLoadsAFreshRun : Prop :=
  (∀ (s : State) (input : List Byte) (ms : List Move), s.phase ≠ .run →
    (s.phase ≠ .idle → s.inPos ≤ s.inBytes.length) →
    s.moves = .drain :: (input.map Move.offer ++ [.endInput, .start]) ++ ms →
    runSteps (input.length + 3) s =
      .next { started input with
        sinkReady := s.sinkReady, accepted := s.accepted, moves := ms }) ∧
  (∀ (s : State) (input : List Byte) (ms : List Move), s.phase ≠ .run → s.inEnd = false →
    (s.phase ≠ .idle → s.inPos ≤ s.inBytes.length) →
    s.moves = input.map Move.offer ++ [.endInput, .start] ++ ms →
    runSteps (input.length + 2) s =
      .next { started (untaken s ++ input) with
        sinkReady := s.sinkReady, accepted := s.accepted, moves := ms }) ∧
  (∀ s t : State, s.phase = .run → step s = .next t → t.phase = .done →
    t.inEnd = false ∧ untaken t = [])

/-- R194, R201: in `IDLE`, `DONE` and `FAULT` the engine has no step. -/
def Obligations.EngineRestsOutsideRun : Prop :=
  ∀ (s : State), s.moves = [] → s.phase ≠ .run → outPending s = false → step s = .next s

/-! ### Holds and the other agents -/

/-- R199, R201: while the sink does not accept, the engine holds and no state changes; a step of the
sink takes the oldest byte offered. That the engine reads no input meanwhile is the model's choice
(log entry 7). -/
def Obligations.SinkStallHoldsTheEngine : Prop :=
  (∀ (s : State), s.moves = [] → outPending s = true → s.sinkReady = false → step s = .next s) ∧
    (∀ (s : State) ms b, s.moves = .accept :: ms → s.out[s.outTaken]? = some b →
      step s = .next { s with
        moves := ms, outTaken := s.outTaken + 1, accepted := s.accepted ++ [b] })

/-- R150, R201: a hold for want of input has changed `acc`, `nbits` and `inPos` alone, and there is
neither a byte nor the end to be had. -/
def Obligations.SourceStallTouchesTheReaderOnly : Prop :=
  ∀ (s : State) t f, s.moves = [] → s.phase = .run → outPending s = false → s.raised = none →
    formatOf s.codeSize.toNat = some f → readCode s = .hold t →
    step s = .next t ∧ t = { s with acc := t.acc, nbits := t.nbits, inPos := t.inPos } ∧
      inAvail t = .wait ∧ t.nbits.toNat < t.codeSize.toNat

/-- R197, R205: the source adds bytes at the end of its stream, none after its end; the input of a
run is not withdrawn. The refusals are the model's (log entry 6). -/
def Obligations.SourceKeepsToItsProtocol : Prop :=
  (∀ (s : State) ms b, s.moves = .offer b :: ms → s.inEnd = false →
      step s = .next { s with moves := ms, inBytes := s.inBytes ++ [b] }) ∧
    (∀ (s : State) ms b, s.moves = .offer b :: ms → s.inEnd = true →
      step s = .refused (.forbiddenMove (.offer b))) ∧
    (∀ (s : State) ms, s.moves = .endInput :: ms → step s = .next { s with moves := ms, inEnd := true }) ∧
    (∀ (s : State) ms, s.moves = .drain :: ms → s.phase = .run → step s = .refused (.forbiddenMove .drain))

/-- R190: no agent other than the engine touches the decoder's state, the output or the status
registers; only the host's two commands do. -/
def Obligations.SourceAndSinkLeaveTheDecoderAlone : Prop :=
  ∀ (s : State) t m ms, s.moves = m :: ms → m ≠ .engine → m ≠ .rst → m ≠ .start → step s = .next t →
    t = { s with
      inBytes := t.inBytes, inEnd := t.inEnd, outTaken := t.outTaken, sinkReady := t.sinkReady,
      accepted := t.accepted, moves := ms } ∧ s.accepted <+: t.accepted

/-- The stream lines of R191 and what they tell (R195, R255): a byte or the end is to be had, a byte
waits for the sink, and the engine's next turn takes a byte exactly when `in_take` is high, which it
never is outside `RUN`. In `IDLE`, where `inPos` holds no value, the first two lines tell of every byte
at the source: the model's choice (log entry 16). That `in_take` is low while a byte waits for the sink is the model's choice
(log entry 7), and so is the moment at which a byte is fetched (log entry 10). -/
def Obligations.LinesTellTheStreams : Prop :=
  (∀ s, (s.phase ≠ .idle → (inAvailLine s = true ↔ ∃ b, inAvail s = .byte b) ∧
        (inEndLine s = true ↔ inAvail s = .ended)) ∧
      (s.phase = .idle → (inAvailLine s = true ↔ s.inBytes ≠ []) ∧
        (inEndLine s = true ↔ s.inEnd = true ∧ s.inBytes = [])) ∧
      (outValid s = true ↔ (outByte s).isSome = true) ∧ (s.phase ≠ .run → inTake s = false)) ∧
    (∀ s t, MachineOk s → s.moves = [] → step s = .next t →
      (inTake s = true ↔ s.inPos < t.inPos))

/-! ### The Bitstream Reader -/

/-- R111: `REFILL` puts the next byte below the bits already held, and the result fits. -/
def Obligations.RefillPutsTheByteBelow : Prop :=
  ∀ (s : State) b, s.inBytes[s.inPos]? = some b → s.nbits.toNat < s.codeSize.toNat →
    s.codeSize.toNat ≤ 12 → s.acc.toNat < 2 ^ s.nbits.toNat →
    (∀ n, readLoop (n + 1) s = readLoop n (refill b s)) ∧
      (refill b s).inPos = s.inPos + 1 ∧
      (refill b s).acc.toNat = (s.acc.toNat <<< 8) ||| b.toNat ∧
      (refill b s).nbits.toNat = s.nbits.toNat + 8 ∧
      (refill b s).acc.toNat < 2 ^ (refill b s).nbits.toNat ∧
      refill b s = { s with
        inPos := (refill b s).inPos, acc := (refill b s).acc, nbits := (refill b s).nbits }

/-- R112: `EXTRACT` delivers the `codeSize` oldest bits and drops them. -/
def Obligations.ExtractDeliversTheOldestBits : Prop :=
  ∀ (s : State), s.codeSize.toNat ≤ s.nbits.toNat → s.codeSize.toNat ≤ 12 →
    (∀ n, readLoop n s = .code (extractCode s) (extractRest s)) ∧
      (extractCode s).toNat =
        (s.acc.toNat >>> (s.nbits.toNat - s.codeSize.toNat)) &&& ((1 <<< s.codeSize.toNat) - 1) ∧
      (extractCode s).toNat < 2 ^ s.codeSize.toNat ∧
      (extractRest s).nbits.toNat = s.nbits.toNat - s.codeSize.toNat ∧
      (extractRest s).acc.toNat = s.acc.toNat &&& ((1 <<< (extractRest s).nbits.toNat) - 1) ∧
      extractRest s = { s with acc := (extractRest s).acc, nbits := (extractRest s).nbits }

/-- What the reader computes, without the buffer (R115, an inference of the spec; it rests on R56,
R82 and R111 to R114): the next `codeSize` bits of the input if they are there, else the end or a
hold with every byte consumed. -/
def Obligations.ReadCodeFollowsTheStream : Prop :=
  ∀ (s : State) f, formatOf s.codeSize.toNat = some f → ReaderOk s → s.nbits.toNat < s.codeSize.toNat →
    (bitPos s + f.bits ≤ 8 * s.inBytes.length →
      ∃ t, readCode s = .code
          (BitVec.ofNat 12 (natOfBits (((bitString s.inBytes).drop (bitPos s)).take f.bits))) t ∧
        t = { s with acc := t.acc, nbits := t.nbits, inPos := t.inPos } ∧ ReaderOk t ∧
        bitPos t = bitPos s + f.bits ∧ t.nbits.toNat ≤ 7) ∧
    (8 * s.inBytes.length < bitPos s + f.bits →
      ∃ t, readCode s = (if s.inEnd then .ended t else .hold t) ∧
        t = { s with acc := t.acc, nbits := t.nbits, inPos := t.inPos } ∧ ReaderOk t ∧
        bitPos t = bitPos s ∧ t.inPos = t.inBytes.length ∧ t.nbits.toNat < t.codeSize.toNat)

/-- The bounds of the reader (R116, an inference of the spec): from at most 7 held bits, at most 7
remain after a code, and fewer than `codeSize`, so at most 11, at the end or in a hold. -/
def Obligations.ReaderHoldsFewBits : Prop :=
  ∀ (s : State), 9 ≤ s.codeSize.toNat → s.codeSize.toNat ≤ 12 → s.nbits.toNat ≤ 7 →
    (∀ c t, readCode s = .code c t → t.nbits.toNat ≤ 7 ∧ t.inPos ≤ s.inPos + 2) ∧
    (∀ t, readCode s = .ended t ∨ readCode s = .hold t →
      t.nbits.toNat < s.codeSize.toNat ∧ t.nbits.toNat ≤ 11)

/-- R161: where `ReadCode` answers `END` the phase becomes `DONE` and nothing else of the engine is
written. What becomes of the source's end signal is left to `HostProcedureLoadsAFreshRun`. -/
def Obligations.EndOfInputEndsTheRun : Prop :=
  ∀ (s : State) t f, s.moves = [] → s.phase = .run → outPending s = false → s.raised = none →
    formatOf s.codeSize.toNat = some f → readCode s = .ended t →
    (∃ e, step s = .next { t with phase := .done, inEnd := e }) ∧
      t = { s with acc := t.acc, nbits := t.nbits, inPos := t.inPos } ∧
      t.nbits.toNat < s.codeSize.toNat

/-! ### The Dictionary Store -/

/-- R131: `DICT_RESET` leaves the 256 singletons, no value above them, and `dictSize` 256. -/
def Obligations.DictResetIsTheBaseline : Prop :=
  ∀ s, (∀ i, memRead (dictReset s).dict i =
      if i < 256 then some { sym := BitVec.ofNat 8 i, parent := none } else none) ∧
    (dictReset s).dictSize.toNat = 256 ∧
    dictReset s = { s with dict := (dictReset s).dict, dictSize := (dictReset s).dictSize }

/-- R132: `DICT_APPEND` writes the entry at `dictSize` and counts it; at the capacity it writes
nothing and the append step of an iteration raises `DictOverflow` with the iteration's code. The fault
is entered in that iteration where the sink takes its bytes at once. That it waits in `raised`, the
model's own field, where the sink takes none is the model's reading of R200, R226 and D18 (log entry 17,
DEDUCED). -/
def Obligations.DictAppendWritesOneEntry : Prop :=
  (∀ s b p, s.dictSize.toNat < 4096 →
    ∃ t, dictAppend b p s = some t ∧ t.dictSize.toNat = s.dictSize.toNat + 1 ∧
      (∀ i, memRead t.dict i =
        if i = s.dictSize.toNat then some { sym := b, parent := some p } else memRead s.dict i) ∧
      t = { s with dict := t.dict, dictSize := t.dictSize }) ∧
  (∀ s c p first rest, 4096 ≤ s.dictSize.toNat → s.firstOfEpoch = false → s.prevCode = some p →
    ∃ t, finishCode c (first :: rest) s = .next t ∧ t.dict = s.dict ∧ t.dictSize = s.dictSize ∧
      (s.sinkReady = true → s.outTaken = s.out.length →
        t.cause = .dictOverflow ∧ t.faultCode = some c ∧ t.phase = .fault) ∧
      (s.sinkReady = false → s.outTaken ≤ s.out.length → t.raised = some (.dictOverflow, c)))

/-- R223: `DictOverflow` is raised after the iteration's output step, with the code being decoded; the
entry is not written and nothing of the later steps is done. The model's reading beside it (log entry 17,
DEDUCED): fault entry waits in `raised`, the model's own field, until the sink has accepted every byte,
those of this iteration too; `cause` and `faultCode` stand meanwhile as the phase does, where R226 has
only the phase shown late; then the engine's next turn is the entry and nothing else. That the engine
reads no code meanwhile is the model's choice (log entries 7 and 17). -/
def Obligations.OverflowFaultsAfterTheOutput : Prop :=
  (∀ s c p seq, 4096 ≤ s.dictSize.toNat → s.firstOfEpoch = false → s.prevCode = some p → seq ≠ [] →
    ∃ t, finishCode c seq s = .next t ∧ t.out = s.out ++ seq ∧
      (t.out.length ≤ t.outTaken → t = { s with
        out := t.out, outTaken := t.outTaken, accepted := t.accepted, cause := .dictOverflow,
        faultCode := some c, phase := .fault, raised := none }) ∧
      (t.outTaken < t.out.length → t = { s with
        out := t.out, outTaken := t.outTaken, accepted := t.accepted,
        raised := some (.dictOverflow, c) })) ∧
  (∀ (s : State) t k c, s.moves = [] → s.phase = .run → s.raised = some (k, c) → step s = .next t →
    (outPending s = true →
      t = { s with outTaken := t.outTaken, accepted := t.accepted }) ∧
    (outPending s = false →
      t = { s with cause := k, faultCode := some c, phase := .fault, raised := none }))

/-- R133, R42: `DICT_READ` answers the entry of a live index and has no side effect; a read of an
entry that is not live is a fault of the model. -/
def Obligations.DictReadNeedsALiveEntry : Prop :=
  (∀ s i e, i < s.dictSize.toNat → memRead s.dict i = some e → dictRead s i = .ok e) ∧
    (∀ s i, s.dictSize.toNat ≤ i → dictRead s i = .error (.deadEntry i))

/-- The chains of a run (R138, R140, R136, inferences of the spec from R132 and R134): every live
index has a sequence, of one byte for a singleton and of 2 to `i - 254` bytes above. -/
def Obligations.LiveChainsEndAtASingleton : Prop :=
  ∀ s i, DictOk s → s.dictSize.toNat ≤ 4096 → i < s.dictSize.toNat →
    ∃ w, reconstruct s i = .ok w ∧ (i < 256 → w = [BitVec.ofNat 8 i]) ∧
      (256 ≤ i → 2 ≤ w.length ∧ w.length ≤ i - 254)

/-- The sequence and the first byte of an index by recursion on the chain (R136, R137, inferences of
the spec from R134 and R135). -/
def Obligations.SequenceFollowsTheParent : Prop :=
  ∀ s i, DictOk s → s.dictSize.toNat ≤ 4096 → 256 ≤ i → i < s.dictSize.toNat →
    ∃ e p b w, memRead s.dict i = some e ∧ e.parent = some p ∧ p.toNat < i ∧
      reconstruct s p.toNat = .ok (b :: w) ∧ reconstruct s i = .ok (b :: w ++ [e.sym])

/-- Within an epoch no sequence changes (R142, an inference of the spec from R132). -/
def Obligations.AppendKeepsOlderSequences : Prop :=
  ∀ s t b p i w, dictAppend b p s = some t → reconstruct s i = .ok w → reconstruct t i = .ok w

/-- What an appended entry stands for (R139, an inference of the spec from R132 and R134): the
sequence of its parent and the new symbol. -/
def Obligations.AppendedEntryExtendsItsParent : Prop :=
  ∀ s t b p w, dictAppend b p s = some t → reconstruct s p.toNat = .ok w → w.length < 4096 →
    reconstruct t s.dictSize.toNat = .ok (w ++ [b])

/-- R51: the fields of a packed entry stand where the rule puts them, and the entry reads back. What
the parent field of an entry without a parent holds is a free value (log entry 4). -/
def Obligations.PackedEntryReadsBack : Prop :=
  ∀ i e, (packEntry i e).extractLsb' 13 8 = e.sym ∧ (packEntry i e).getLsbD 12 = e.parent.isSome ∧
    (∀ p, e.parent = some p → (packEntry i e).extractLsb' 0 12 = p) ∧
    unpackEntry (packEntry i e) = e

/-! ### Decoding -/

/-- R84: the conditions of the four classes; they are exclusive and exhaustive, and where a run can
meet `NOPREV` the code is 256 and the format `C9`. -/
def Obligations.ClassConditions : Prop :=
  ∀ σ c, (classify σ c = .known ↔ c < σ.dictSize.toNat) ∧
    (classify σ c = .kwkwk ↔ c = σ.dictSize.toNat ∧ σ.firstOfEpoch = false) ∧
    (classify σ c = .noprev ↔ c = σ.dictSize.toNat ∧ σ.firstOfEpoch = true) ∧
    (classify σ c = .invalid ↔ c > σ.dictSize.toNat) ∧
    (σ.legal = true → classify σ c = .noprev → c = 256 ∧ σ.format = .c9)

/-- R86, R95: between iterations of a run every code of the width has a row, with its whole value as
the operand. -/
def Obligations.EveryCodeOfARunHasARow : Prop :=
  ∀ (σ : Selector) (c : Code), σ.legal = true → c.toNat < 2 ^ σ.format.bits →
    ∃ i, decodeCode σ c = .ok i ∧ i.selectedBy σ = true ∧ i.code = c ∧ i.wf = true

/-- Decoding the encoding of any instruction gives it back, whatever follows it in the stream (R81,
R82, R84). -/
def Obligations.DecodeInvertsEncode : Prop :=
  ∀ (i : Instr) σ rest, i.selectedBy σ = true → decode σ (encode i ++ rest) = .ok (i, rest)

/-- Whatever decodes is the encoding of the instruction it decodes to, and the selector picks that
instruction's row (R81, R82, R84). -/
def Obligations.EncodeInvertsDecode : Prop :=
  ∀ σ bits i rest, decode σ bits = .ok (i, rest) → i.selectedBy σ = true ∧ encode i ++ rest = bits

/-- An instruction is well formed exactly when a selector that a run can meet picks its row (R81,
R84, R91). -/
def Obligations.WellFormedMeansSomeLegalSelector : Prop :=
  ∀ i : Instr, i.wf = true ↔ ∃ σ : Selector, σ.legal = true ∧ i.selectedBy σ = true

/-- R93, R94, R56: the bytes of a bit string read back as its bits and fewer than eight zero bits of
`PAD`. -/
def Obligations.PackedBitsReadBack : Prop :=
  ∀ bits, ∃ k < 8, bitString (packBits bits) = bits ++ List.replicate k false

/-- What bits alone tell (R85, R90, inferences of the spec): a code up to 255 is always `KNOWN`, the
code 4095 always `INVALID`. -/
def Obligations.LiteralsAreAlwaysKnown : Prop :=
  ∀ (σ : Selector) c, 256 ≤ σ.dictSize.toNat → σ.dictSize.toNat ≤ 4094 →
    (c ≤ 255 → classify σ c = .known) ∧ (c = 4095 → classify σ c = .invalid)

/-- Words written out from R81 and R82, one for each class and format that has a row. -/
def Obligations.SampleWordsDecode : Prop :=
  decodeAt ⟨.c9, 256, true⟩ [0x20, 0x80] 0 = .ok (.knownC9 0x041) ∧
    decodeAt ⟨.c9, 258, false⟩ [0x20, 0x90, 0xa0, 0x10, 0x20] 27 = .ok (.kwkwkC9 0x102) ∧
    decodeAt ⟨.c9, 256, true⟩ [0x80, 0x00] 0 = .ok (.noprevC9 0x100) ∧
    decodeAt ⟨.c9, 256, true⟩ [0x80, 0x80] 0 = .ok (.invalidC9 0x101) ∧
    decodeAt ⟨.c10, 511, false⟩ [0xab, 0xcd, 0xef] 10 = .ok (.knownC10 0x0de) ∧
    decodeAt ⟨.c11, 1374, false⟩ [0xab, 0xcd, 0xef, 0x01] 0 = .ok (.kwkwkC11 0x55e) ∧
    decodeAt ⟨.c12, 4094, false⟩ [0xff, 0xff, 0xff] 12 = .ok (.invalidC12 0xfff) ∧
    decodeAt ⟨.c9, 256, true⟩ [0x41] 0 = .error .endOfStream

/-! ### The instructions -/

/-- R151, R155 to R160: `KNOWN`, in each format, outputs the sequence of its entry and then has the
effect of steps 4 to 6 and no other. -/
def Obligations.KnownCompletes : Prop :=
  ∀ s seq, Appendable s →
    (∀ c, seqKnown (c.setWidth 12) s = .ok seq →
      ∃ t, exec (.knownC9 c) s = .next t ∧ IterationEffect (c.setWidth 12) seq s t) ∧
    (∀ c, seqKnown (c.setWidth 12) s = .ok seq →
      ∃ t, exec (.knownC10 c) s = .next t ∧ IterationEffect (c.setWidth 12) seq s t) ∧
    (∀ c, seqKnown (c.setWidth 12) s = .ok seq →
      ∃ t, exec (.knownC11 c) s = .next t ∧ IterationEffect (c.setWidth 12) seq s t) ∧
    (∀ c, seqKnown c s = .ok seq →
      ∃ t, exec (.knownC12 c) s = .next t ∧ IterationEffect c seq s t)

/-- R152, R155 to R160: `KWKWK`, in each format, outputs the previous sequence and its own first
byte and then has the effect of steps 4 to 6 and no other. -/
def Obligations.KwkwkCompletes : Prop :=
  ∀ s p b w, Appendable s → s.prevCode = some p → s.prevFirst = some b →
    reconstruct s p.toNat = .ok w →
    (∀ c, ∃ t, exec (.kwkwkC9 c) s = .next t ∧
      IterationEffect (c.setWidth 12) (w ++ [b]) s t) ∧
    (∀ c, ∃ t, exec (.kwkwkC10 c) s = .next t ∧
      IterationEffect (c.setWidth 12) (w ++ [b]) s t) ∧
    (∀ c, ∃ t, exec (.kwkwkC11 c) s = .next t ∧
      IterationEffect (c.setWidth 12) (w ++ [b]) s t) ∧
    (∀ c, ∃ t, exec (.kwkwkC12 c) s = .next t ∧ IterationEffect c (w ++ [b]) s t)

/-- R221: `INVALID` is the row of a code greater than the number of live entries; in each format it
records its cause and its code, zero-extended, and writes nothing else (R226). The clause for a byte
that still waits for the sink is the model's: the fault waits in `raised`, `cause` and `faultCode` not
yet written (log entry 17, DEDUCED); no turn of the engine runs a code then (log entry 7). -/
def Obligations.InvalidTakesItsFault : Prop :=
  (∀ (σ : Selector) c i, decodeCode σ c = .ok i →
    (i.codeClass = .invalid ↔ c.toNat > σ.dictSize.toNat) ∧ i.format = σ.format) ∧
  (∀ s, outPending s = false →
    let entered (c : Code) : State := { s with
      cause := .invalidCode, faultCode := some c, phase := .fault, raised := none }
    (∀ c, exec (.invalidC9 c) s = .next (entered (c.setWidth 12))) ∧
    (∀ c, exec (.invalidC10 c) s = .next (entered (c.setWidth 12))) ∧
    (∀ c, exec (.invalidC11 c) s = .next (entered (c.setWidth 12))) ∧
    (∀ c, exec (.invalidC12 c) s = .next (entered c))) ∧
  (∀ s, outPending s = true →
    let waits (c : Code) : State := { s with raised := some (.invalidCode, c) }
    (∀ c, exec (.invalidC9 c) s = .next (waits (c.setWidth 12))) ∧
    (∀ c, exec (.invalidC10 c) s = .next (waits (c.setWidth 12))) ∧
    (∀ c, exec (.invalidC11 c) s = .next (waits (c.setWidth 12))) ∧
    (∀ c, exec (.invalidC12 c) s = .next (waits c)))

/-- R222: `NOPREV` is the row of the code that equals the number of live entries at the start of an
epoch; it records its cause and its code, which is 256 in every run, and writes nothing else (R226).
The clause for a byte that still waits for the sink is the model's: the fault waits in `raised`, `cause`
and `faultCode` not yet written (log entry 17, DEDUCED); no turn of the engine runs a code then (log
entry 7). -/
def Obligations.NoprevTakesItsFault : Prop :=
  (∀ (σ : Selector) c i, decodeCode σ c = .ok i →
    (i.codeClass = .noprev ↔ c.toNat = σ.dictSize.toNat ∧ σ.firstOfEpoch = true)) ∧
  (∀ s c, outPending s = false → exec (.noprevC9 c) s = .next { s with
      cause := .noPrevious, faultCode := some (c.setWidth 12), phase := .fault, raised := none }) ∧
    (∀ s c, outPending s = true → exec (.noprevC9 c) s = .next { s with
      raised := some (.noPrevious, c.setWidth 12) }) ∧
    (∀ (σ : Selector) c, σ.legal = true → (Instr.noprevC9 c).selectedBy σ = true →
      c.setWidth 12 = (0x100 : Code))

/-- Between iterations of a run every code of a legal class completes and the run goes on (R151,
R152, R40). -/
def Obligations.LegalCodesCompleteInARun : Prop :=
  ∀ (s : State) f (i : Instr), formatOf s.codeSize.toNat = some f → RunOk s → i.selectedBy (selectorOf f s) = true →
    i.codeClass = .known ∨ i.codeClass = .kwkwk →
    ∃ t seq, exec i s = .next t ∧ IterationEffect i.code seq s t ∧ seq ≠ [] ∧ t.phase = s.phase

/-- The frame of the eight legal instructions (R41, R151, R152, R155 to R160): the reader, the
source, the schedule; every entry but the one at `dictSize`, unless the iteration ends the epoch;
the status registers, unless the append overflows. -/
def Obligations.LegalCodesFrame : Prop :=
  ∀ (i : Instr) s t, i.codeClass = .known ∨ i.codeClass = .kwkwk → exec i s = .next t →
    t.acc = s.acc ∧ t.nbits = s.nbits ∧ t.inPos = s.inPos ∧ t.inBytes = s.inBytes ∧
      t.inEnd = s.inEnd ∧ t.sinkReady = s.sinkReady ∧ t.moves = s.moves ∧ s.out <+: t.out ∧
      (Appendable s → t.phase = s.phase ∧ t.cause = s.cause ∧ t.faultCode = s.faultCode ∧
        t.raised = s.raised) ∧
      (¬ reachesThreshold s → t.codeSize = s.codeSize) ∧
      (¬ (reachesThreshold s ∧ 12 ≤ s.codeSize.toNat) →
        ∀ a, a ≠ s.dictSize.toNat → memRead t.dict a = memRead s.dict a) ∧
      (¬ (reachesThreshold s ∧ 12 ≤ s.codeSize.toNat) → s.firstOfEpoch = true →
        ∀ a, memRead t.dict a = memRead s.dict a)

/-- After a `KWKWK` iteration that does not end its epoch the code names exactly the bytes it
emitted (R166, an inference of the spec). -/
def Obligations.KwkwkNamesItsOwnEntry : Prop :=
  ∀ (s : State) t f (i : Instr), formatOf s.codeSize.toNat = some f → RunOk s → i.codeClass = .kwkwk →
    i.selectedBy (selectorOf f s) = true → sizeAfterAppend s ≠ 4095 → exec i s = .next t →
    ∃ seq, t.out = s.out ++ seq ∧ reconstruct t i.code.toNat = .ok seq ∧ 2 ≤ seq.length

/-! ### Growth and the epoch -/

/-- R158: the growth test is the equality with the threshold, on the values after steps 4 and 5.
Where it is true `GROW` or `EPOCH_RESET` is performed, where it is false nothing. -/
def Obligations.GrowthTestIsAnEquality : Prop :=
  (∀ (s : State), s.dictSize.toNat ≠ 2 ^ s.codeSize.toNat - 1 → growthStep s = s) ∧
    (∀ (s : State), s.dictSize.toNat = 2 ^ s.codeSize.toNat - 1 →
      (s.codeSize.toNat < 12 → growthStep s = grow s) ∧
      (12 ≤ s.codeSize.toNat → growthStep s = epochReset s)) ∧
    (∀ (s t : State) c first rest, appendStep first (outPushAll s (first :: rest)) = .ok (some t) →
      finishCode c (first :: rest) s = .next (growthStep (recordStep first c t))) ∧
    (∀ s, (s.codeSize = 9 → (growthDue s = true ↔ s.dictSize.toNat = 511)) ∧
      (s.codeSize = 10 → (growthDue s = true ↔ s.dictSize.toNat = 1023)) ∧
      (s.codeSize = 11 → (growthDue s = true ↔ s.dictSize.toNat = 2047)) ∧
      (s.codeSize = 12 → (growthDue s = true ↔ s.dictSize.toNat = 4095)))

/-- R159: below 12 bits the codes widen by one bit and nothing else changes. -/
def Obligations.GrowWidensByOneBit : Prop :=
  ∀ (s : State), s.dictSize.toNat = 2 ^ s.codeSize.toNat - 1 → s.codeSize.toNat < 12 →
    ∃ t, growthStep s = t ∧ t.codeSize.toNat = s.codeSize.toNat + 1 ∧
      t = { s with codeSize := t.codeSize }

/-- R160: at 12 bits the dictionary, the width and the flag start a new epoch; the previous pair, the
reader, the output and the phase stay. -/
def Obligations.EpochResetStartsANewEpoch : Prop :=
  ∀ (s : State), s.dictSize.toNat = 4095 → s.codeSize = 12 →
    ∃ t, growthStep s = t ∧ t.dictSize = 256 ∧ t.codeSize = 9 ∧ t.firstOfEpoch = true ∧
      (∀ i, memRead t.dict i =
        if i < 256 then some { sym := BitVec.ofNat 8 i, parent := none } else none) ∧
      t = { s with
        dict := t.dict, dictSize := t.dictSize, codeSize := t.codeSize,
        firstOfEpoch := t.firstOfEpoch }

/-- The test can hold only after an append, and then `dictSize` has just reached the threshold
(R168, R165, inferences of the spec). -/
def Obligations.GrowthNeedsAnAppend : Prop :=
  ∀ s, RunOk s → (reachesThreshold s → s.firstOfEpoch = false) ∧
    s.dictSize.toNat < 2 ^ s.codeSize.toNat - 1

/-- The width schedule and the length of an epoch (R91, R92, R165, inferences of the spec from R150
and R156 to R160): after `n` iterations of the first epoch of any run that has not ended,
`dictSize`, the width and the position depend on `n` alone. -/
def Obligations.WidthFollowsTheSchedule : Prop :=
  ∀ input n t, n ≤ 3840 → runSteps n (started input) = .next t → t.phase = .run →
    (n = 0 → t.dictSize.toNat = 256 ∧ t.firstOfEpoch = true) ∧
    (1 ≤ n → n < 3840 → t.dictSize.toNat = 255 + n ∧ t.firstOfEpoch = false) ∧
    (n < 3840 → t.codeSize.toNat = (scheduleFormat (n + 1)).bits) ∧
    (n ≤ 256 → bitPos t = 9 * n) ∧
    (256 ≤ n → n ≤ 768 → bitPos t = 2304 + 10 * (n - 256)) ∧
    (768 ≤ n → n ≤ 1792 → bitPos t = 7424 + 11 * (n - 768)) ∧
    (1792 ≤ n → bitPos t = 18688 + 12 * (n - 1792)) ∧
    (n = 3840 → t.dictSize.toNat = 256 ∧ t.codeSize.toNat = 9 ∧ t.firstOfEpoch = true ∧
      bitPos t = 43264 ∧ t.nbits.toNat = 0)

/-! ### Faults and the ends of a run -/

/-- R226, R228: in `FAULT` the engine stops. Until `START` or `rst` the cause and the code are
stable, no input is consumed and nothing is pushed. -/
def Obligations.FaultLastsUntilStartOrReset : Prop :=
  ∀ n (s : State) t, s.phase = .fault → (∀ m ∈ s.moves, m ≠ .start ∧ m ≠ .rst) →
    runSteps n s = .next t →
    t.phase = .fault ∧ t.cause = s.cause ∧ t.faultCode = s.faultCode ∧ t.inPos = s.inPos ∧
      t.out = s.out ∧ t.dict = s.dict ∧ t.dictSize = s.dictSize

/-- R227: a fault of a run is precise. The faulting iteration has taken its code out of the stream
and recorded it, and has changed nothing else. -/
def Obligations.FaultsArePrecise : Prop :=
  ∀ s t, MachineOk s → s.moves = [] → s.phase = .run → step s = .next t → t.phase = .fault →
    (t.cause = .invalidCode ∨ t.cause = .noPrevious) ∧
      t.faultCode = some (BitVec.ofNat 12
        (natOfBits (((bitString s.inBytes).drop (bitPos s)).take s.codeSize.toNat))) ∧
      bitPos t = bitPos s + s.codeSize.toNat ∧
      t = { s with
        acc := t.acc, nbits := t.nbits, inPos := t.inPos, cause := t.cause,
        faultCode := t.faultCode, phase := .fault }

/-- `DictOverflow` is never raised (R165, an inference of the spec): no step from a state of a run
records it, and none leaves it, or any fault, waiting for the sink (`raised` is the model's own field,
log entry 17). -/
def Obligations.OverflowNeverFires : Prop :=
  ∀ s t, MachineOk s → step s = .next t →
    (t.cause = .dictOverflow → s.cause = .dictOverflow) ∧ t.raised = none

/-- R200, R226: the phase becomes `DONE` or `FAULT` only when the sink has taken every byte that was
pushed; and but for `DictOverflow` the faulting iteration pushes nothing (R227). Two clauses are the
model's: that the fault of `DictOverflow` waits for the bytes of its own iteration too (log entry 17,
DEDUCED), and that the earlier bytes are taken before the faulting code is decoded (log entry 7; R199
leaves it open). -/
def Obligations.RunsEndAfterEveryByteIsTaken : Prop :=
  ∀ (s : State) t, s.outTaken ≤ s.out.length → step s = .next t →
    (s.phase ≠ .done → t.phase = .done → t.outTaken = t.out.length) ∧
    (s.phase ≠ .fault → t.phase = .fault → s.outTaken = s.out.length ∧
      t.outTaken = t.out.length ∧ (t.cause ≠ .dictOverflow → t.out = s.out))

/-- R32, R55, R65: an engine turn only adds to the output, at its end, and the sink's bytes are never
taken back. -/
def Obligations.OutputOnlyGrows : Prop :=
  ∀ (s : State) t, s.moves = [] → step s = .next t → s.out <+: t.out ∧ s.accepted <+: t.accepted

/-- R30: the position in the stream never moves backwards in an engine turn of a run, and stays
within the input. -/
def Obligations.PositionNeverMovesBack : Prop :=
  ∀ s t, MachineOk s → s.moves = [] → s.phase = .run → step s = .next t →
    bitPos s ≤ bitPos t ∧ bitPos t ≤ 8 * t.inBytes.length ∧ s.inPos ≤ t.inPos

/-! ### The machine -/

/-- A step runs the decoded instruction (R150): in `RUN`, with no outside move, no byte pending and no
fault waiting, the step is the meaning of the code read, in the state that the reading left. -/
def Obligations.StepRunsTheDecodedInstruction : Prop :=
  ∀ (s : State) t f c i, s.moves = [] → s.phase = .run → outPending s = false → s.raised = none →
    formatOf s.codeSize.toNat = some f → readCode s = .code c t →
    decodeCode (selectorOf f t) c = .ok i → step s = exec i t

/-- The same said of the bits of the input (R82, R150): where they decode to an instruction, the step
is its meaning, after the reader has moved past the code's bits and nothing else has changed. -/
def Obligations.StepRunsTheCodeInTheStream : Prop :=
  ∀ s f i rest, MachineOk s → s.moves = [] → s.phase = .run → outPending s = false →
    formatOf s.codeSize.toNat = some f →
    decode (selectorOf f s) ((bitString s.inBytes).drop (bitPos s)) = .ok (i, rest) →
    ∃ t, step s = exec i t ∧ t = { s with acc := t.acc, nbits := t.nbits, inPos := t.inPos } ∧
      ReaderOk t ∧ bitPos t = bitPos s + f.bits

/-- The invariant holds at reset. Its clauses on the sink rest there on the model's choice of an empty
`out` (log entry 1), and the one on a waiting fault speaks of the model's own field (log entry 17). -/
def Obligations.InvHoldsAtReset : Prop := MachineOk State.reset

/-- Every step keeps the invariant (R28, R40 (a) to (f), R52, R65, R200): from every state that meets
it, whichever agent moves. In `IDLE` the clauses on the sink rest on the model's choice of an empty
`out` (log entry 1). That no fault waits, and that in `FAULT` the sink has the bytes of the faulting
iteration too, are the model's (log entry 17). -/
def Obligations.EveryStepKeepsInv : Prop :=
  ∀ s t, MachineOk s → step s = .next t → MachineOk t

/-- No step of a state that meets the invariant stops in a fault of the model or a refusal, while the
source keeps to its protocol (R42, R138, inferences of the spec: no rule reads a register or an
entry that holds no value). -/
def Obligations.NoStepStops : Prop :=
  ∀ s, MachineOk s → (∀ m, s.moves.head? = some m → m.allowed s = true) → ∃ t, step s = .next t

/-- R141 (an inference of the spec): no code emits more than 3840 bytes, so a reversal buffer of
`STACK_DEPTH` is deep enough. -/
def Obligations.NoSequenceIsLongerThan3840 : Prop :=
  ∀ s t, MachineOk s → s.moves = [] → step s = .next t →
    t.out.length ≤ s.out.length + 3840 ∧ 3840 ≤ Config.stackDepth

/-- The run function is total (R162, an inference of the spec): every run ends, after at most one
iteration for each 9 bits of its input and the turn that finds the end. -/
def Obligations.EveryRunEnds : Prop :=
  ∀ input, ∃ t, decodeRun input = .next t ∧ (t.phase = .done ∨ t.phase = .fault)

/-- Which streams decode without fault (R96, an inference of the spec from R84 and the schedule). -/
def Obligations.DoneExactlyForLegalStreams : Prop :=
  ∀ input t, decodeRun input = .next t → (t.phase = .done ↔ legalStream input = true)

/-- The chains compute what whole sequences would (R136, R139, R142, inferences of the spec; the
source's wording of step 2, R152): the output of every run is that of the decoder that keeps a
table of sequences and the previous sequence. -/
def Obligations.OutputIsThatOfWholeSequences : Prop :=
  ∀ input t, decodeRun input = .next t →
    t.out = tableOutput (8 * input.length) 1 [] [] (bitString input)

/-- R202 (an inference of the spec): whatever the schedule of the source, the sink and the engine, a
run that ends has ended as `Decode(IN)` does on the bytes it has taken; after a fault, on every input that
begins with them. That the source may offer bytes after `DONE` without a drain is the model's choice (log
entry 18). -/
def Obligations.ScheduleDoesNotChangeTheResult : Prop :=
  ∀ (ms : List Move) (t : State), (∀ m ∈ ms, m ≠ .start ∧ m ≠ .rst ∧ m ≠ .drain) →
    runSteps ms.length { startCommand State.reset with moves := ms } = .next t →
    t.phase ≠ .run →
    ∀ input, t.inBytes.take t.inPos <+: input →
      (t.phase = .done → input = t.inBytes.take t.inPos) →
    ∃ u, decodeRun input = .next u ∧ u.out = t.out ∧ u.phase = t.phase ∧ u.cause = t.cause ∧
      u.faultCode = t.faultCode ∧ u.codeSize = t.codeSize ∧ u.dictSize = t.dictSize ∧
      u.prevCode = t.prevCode ∧ u.prevFirst = t.prevFirst ∧ u.firstOfEpoch = t.firstOfEpoch ∧
      u.dict = t.dict ∧ u.acc = t.acc ∧ u.nbits = t.nbits ∧ u.inPos = t.inPos
end

