-- ==== Sys2Proof/Laws/Bits.lean ====
section
/-! SUPPORT. Bit strings and the numbers they are (R56, R82). -/

namespace Sys2Proof

theorem foldl_bits (bits : List Bool) (a : Nat) :
    bits.foldl (fun a b => 2 * a + b.toNat) a = a * 2 ^ bits.length + natOfBits bits := by
  unfold natOfBits
  induction bits generalizing a with
  | nil => simp
  | cons b bits ih =>
    simp only [List.foldl_cons, List.length_cons]
    rw [ih, ih (2 * 0 + b.toNat), pow_succ]
    ring

@[simp] theorem natOfBits_nil : natOfBits [] = 0 := rfl

theorem natOfBits_cons (b : Bool) (bits : List Bool) :
    natOfBits (b :: bits) = b.toNat * 2 ^ bits.length + natOfBits bits := by
  rw [natOfBits, List.foldl_cons, foldl_bits]
  simp

theorem natOfBits_append (xs ys : List Bool) :
    natOfBits (xs ++ ys) = natOfBits xs * 2 ^ ys.length + natOfBits ys := by
  rw [natOfBits, List.foldl_append, foldl_bits]
  rfl

theorem natOfBits_lt (bits : List Bool) : natOfBits bits < 2 ^ bits.length := by
  induction bits with
  | nil => simp
  | cons b bits ih =>
    rw [natOfBits_cons, List.length_cons, pow_succ]
    have : b.toNat ≤ 1 := Bool.toNat_le b
    nlinarith

@[simp] theorem length_bitsOfNat (w v : Nat) : (bitsOfNat w v).length = w := by
  induction w with
  | zero => rfl
  | succ w ih => simp [bitsOfNat, ih]

theorem natOfBits_bitsOfNat (w v : Nat) : natOfBits (bitsOfNat w v) = v % 2 ^ w := by
  induction w with
  | zero => simp [bitsOfNat, Nat.mod_one]
  | succ w ih =>
    rw [bitsOfNat, natOfBits_cons, length_bitsOfNat, ih, Nat.mod_pow_succ, Nat.toNat_testBit]
    ring

/-- A bit string is the bits of its number. -/
theorem bitsOfNat_natOfBits (bits : List Bool) :
    bitsOfNat bits.length (natOfBits bits) = bits := by
  suffices h : ∀ (k : Nat), bitsOfNat bits.length (k * 2 ^ bits.length + natOfBits bits) = bits by
    simpa using h 0
  induction bits with
  | nil => intro k; rfl
  | cons b bits ih =>
    intro k
    have hb : natOfBits bits < 2 ^ bits.length := natOfBits_lt bits
    have hv : k * 2 ^ (b :: bits).length + natOfBits (b :: bits) =
        (2 * k + b.toNat) * 2 ^ bits.length + natOfBits bits := by
      rw [natOfBits_cons, List.length_cons, pow_succ]; ring
    rw [hv, List.length_cons, bitsOfNat, ih]
    congr 1
    rw [Nat.testBit_eq_decide_div_mod_eq]
    have hd : ((2 * k + b.toNat) * 2 ^ bits.length + natOfBits bits) / 2 ^ bits.length =
        2 * k + b.toNat := by
      rw [mul_comm, Nat.mul_add_div (by positivity), Nat.div_eq_of_lt hb, add_zero]
    rw [hd]
    cases b <;> simp

/-- The leading bits of a string, as a shift of its number. -/
theorem natOfBits_take (bits : List Bool) (k : Nat) :
    natOfBits (bits.take k) = natOfBits bits / 2 ^ (bits.length - k) := by
  conv_rhs => rw [← List.take_append_drop k bits, natOfBits_append]
  rw [List.take_append_drop, List.length_drop, mul_comm, Nat.mul_add_div (by positivity),
    Nat.div_eq_of_lt, add_zero]
  have h := natOfBits_lt (bits.drop k)
  rwa [List.length_drop] at h

/-- The trailing bits of a string, as a remainder of its number. -/
theorem natOfBits_drop (bits : List Bool) (k : Nat) :
    natOfBits (bits.drop k) = natOfBits bits % 2 ^ (bits.length - k) := by
  conv_rhs => rw [← List.take_append_drop k bits, natOfBits_append]
  rw [List.take_append_drop, List.length_drop, mul_comm, Nat.mul_add_mod, Nat.mod_eq_of_lt]
  have h := natOfBits_lt (bits.drop k)
  rwa [List.length_drop] at h

@[simp] theorem bitString_nil : bitString [] = [] := rfl

@[simp] theorem bitString_append (xs ys : List Byte) :
    bitString (xs ++ ys) = bitString xs ++ bitString ys := by
  simp [bitString]

@[simp] theorem length_bitString (bytes : List Byte) : (bitString bytes).length = 8 * bytes.length := by
  induction bytes with
  | nil => rfl
  | cons b bytes ih =>
    have h : bitString (b :: bytes) = bitsOfNat 8 b.toNat ++ bitString bytes := rfl
    rw [h, List.length_append, ih, length_bitsOfNat, List.length_cons]
    ring

/-- The bits of the first `n` bytes are the first `8 * n` bits. -/
theorem bitString_take (bytes : List Byte) (n : Nat) :
    bitString (bytes.take n) = (bitString bytes).take (8 * n) := by
  rcases le_total n bytes.length with h | h
  · have hl : (bitString (bytes.take n)).length = 8 * n := by simp [h]
    conv_rhs => rw [← List.take_append_drop n bytes, bitString_append, ← hl]
    exact (List.take_left' rfl).symm
  · rw [List.take_of_length_le h, List.take_of_length_le (by simp [h])]

theorem bitString_drop (bytes : List Byte) (n : Nat) :
    bitString (bytes.drop n) = (bitString bytes).drop (8 * n) := by
  rcases le_total n bytes.length with h | h
  · have hl : (bitString (bytes.take n)).length = 8 * n := by simp [h]
    conv_rhs => rw [← List.take_append_drop n bytes, bitString_append, ← hl]
    exact (List.drop_left' rfl).symm
  · rw [List.drop_eq_nil_of_le h, List.drop_eq_nil_of_le (by simp [h])]
    rfl

theorem formatOf_bits {w : Nat} {f : Format} (h : formatOf w = some f) : f.bits = w := by
  unfold formatOf at h
  split at h <;> simp_all <;> subst h <;> rfl

@[simp] theorem formatOf_format_bits (f : Format) : formatOf f.bits = some f := by cases f <;> rfl

end Sys2Proof
end

