-- ==== Sys2Proof/Laws/Decode.lean ====
section
/-! SUPPORT. The rows of the opcode table and the selectors (R81, R84, R91, R95). -/

namespace Sys2Proof

/-- A code fits the width of its format (R81). -/
theorem code_lt (i : Instr) : i.code.toNat < 2 ^ i.format.bits := by
  cases i <;> simp only [Instr.code, Instr.format, Format.bits, BitVec.toNat_setWidth] <;> omega

/-- The bounds of a format: the sizes at which it is read (R91) and its largest legal value
(R81). -/
theorem format_facts (f : Format) :
    f.maxDictSize ≤ 4094 ∧ 256 ≤ f.minDictSize ∧ f.minDictSize ≤ f.maxDictSize ∧
      f.maxDictSize + 2 = 2 ^ f.bits ∧ 9 ≤ f.bits ∧ f.bits ≤ 12 := by
  cases f <;> decide

/-- What a row is: the class, the format and the code it was looked up with (R95). -/
theorem rowInstr_spec {k : CodeClass} {f : Format} {c : Code} {i : Instr}
    (h : rowInstr k f c = some i) (hc : c.toNat < 2 ^ f.bits) :
    i.codeClass = k ∧ i.format = f ∧ i.code = c := by
  cases k <;> cases f <;> simp only [rowInstr, Option.some.injEq, reduceCtorEq] at h <;>
    subst h <;> refine ⟨rfl, rfl, ?_⟩ <;> simp only [Instr.code, Format.bits] at * <;>
    apply BitVec.eq_of_toNat_eq <;> simp only [BitVec.toNat_setWidth] <;> omega

/-- Every instruction is the row of its own class, format and code (R95). -/
theorem rowInstr_self (i : Instr) : rowInstr i.codeClass i.format i.code = some i := by
  cases i <;> simp only [rowInstr, Instr.codeClass, Instr.format, Instr.code, Option.some.injEq] <;>
    congr 1 <;> apply BitVec.eq_of_toNat_eq <;> simp only [BitVec.toNat_setWidth] <;> omega

/-- The selectors of a run, as propositions (R40 (b) to (d), R91). -/
theorem legal_iff (σ : Selector) :
    σ.legal = true ↔ σ.format.minDictSize ≤ σ.dictSize.toNat ∧
      σ.dictSize.toNat ≤ σ.format.maxDictSize ∧
      (σ.firstOfEpoch = true → σ.dictSize.toNat = 256 ∧ σ.format = .c9) := by
  unfold Selector.legal
  cases hf : σ.firstOfEpoch <;> simp [and_assoc]

end Sys2Proof
end

