-- ==== Sys2Proof/Laws/State.lean ====
section
/-! SUPPORT. What each update of the state leaves in each field. -/

namespace Sys2Proof.Machine

/-! `recordStep` -/

@[simp] theorem recordStep_codeSize (b : Byte) (c : Code) (s : State) : (recordStep b c s).codeSize = s.codeSize := rfl
@[simp] theorem recordStep_dictSize (b : Byte) (c : Code) (s : State) : (recordStep b c s).dictSize = s.dictSize := rfl
@[simp] theorem recordStep_prevCode (b : Byte) (c : Code) (s : State) : (recordStep b c s).prevCode = some c := rfl
@[simp] theorem recordStep_prevFirst (b : Byte) (c : Code) (s : State) : (recordStep b c s).prevFirst = some b := rfl
@[simp] theorem recordStep_firstOfEpoch (b : Byte) (c : Code) (s : State) : (recordStep b c s).firstOfEpoch = false := rfl
@[simp] theorem recordStep_acc (b : Byte) (c : Code) (s : State) : (recordStep b c s).acc = s.acc := rfl
@[simp] theorem recordStep_nbits (b : Byte) (c : Code) (s : State) : (recordStep b c s).nbits = s.nbits := rfl
@[simp] theorem recordStep_inPos (b : Byte) (c : Code) (s : State) : (recordStep b c s).inPos = s.inPos := rfl
@[simp] theorem recordStep_dict (b : Byte) (c : Code) (s : State) : (recordStep b c s).dict = s.dict := rfl
@[simp] theorem recordStep_out (b : Byte) (c : Code) (s : State) : (recordStep b c s).out = s.out := rfl
@[simp] theorem recordStep_phase (b : Byte) (c : Code) (s : State) : (recordStep b c s).phase = s.phase := rfl
@[simp] theorem recordStep_cause (b : Byte) (c : Code) (s : State) : (recordStep b c s).cause = s.cause := rfl
@[simp] theorem recordStep_faultCode (b : Byte) (c : Code) (s : State) : (recordStep b c s).faultCode = s.faultCode := rfl
@[simp] theorem recordStep_raised (b : Byte) (c : Code) (s : State) : (recordStep b c s).raised = s.raised := rfl
@[simp] theorem recordStep_inBytes (b : Byte) (c : Code) (s : State) : (recordStep b c s).inBytes = s.inBytes := rfl
@[simp] theorem recordStep_inEnd (b : Byte) (c : Code) (s : State) : (recordStep b c s).inEnd = s.inEnd := rfl
@[simp] theorem recordStep_outTaken (b : Byte) (c : Code) (s : State) : (recordStep b c s).outTaken = s.outTaken := rfl
@[simp] theorem recordStep_sinkReady (b : Byte) (c : Code) (s : State) : (recordStep b c s).sinkReady = s.sinkReady := rfl
@[simp] theorem recordStep_accepted (b : Byte) (c : Code) (s : State) : (recordStep b c s).accepted = s.accepted := rfl
@[simp] theorem recordStep_moves (b : Byte) (c : Code) (s : State) : (recordStep b c s).moves = s.moves := rfl

/-! `grow` -/

@[simp] theorem grow_codeSize (s : State) : (grow s).codeSize = s.codeSize + 1 := rfl
@[simp] theorem grow_dictSize (s : State) : (grow s).dictSize = s.dictSize := rfl
@[simp] theorem grow_prevCode (s : State) : (grow s).prevCode = s.prevCode := rfl
@[simp] theorem grow_prevFirst (s : State) : (grow s).prevFirst = s.prevFirst := rfl
@[simp] theorem grow_firstOfEpoch (s : State) : (grow s).firstOfEpoch = s.firstOfEpoch := rfl
@[simp] theorem grow_acc (s : State) : (grow s).acc = s.acc := rfl
@[simp] theorem grow_nbits (s : State) : (grow s).nbits = s.nbits := rfl
@[simp] theorem grow_inPos (s : State) : (grow s).inPos = s.inPos := rfl
@[simp] theorem grow_dict (s : State) : (grow s).dict = s.dict := rfl
@[simp] theorem grow_out (s : State) : (grow s).out = s.out := rfl
@[simp] theorem grow_phase (s : State) : (grow s).phase = s.phase := rfl
@[simp] theorem grow_cause (s : State) : (grow s).cause = s.cause := rfl
@[simp] theorem grow_faultCode (s : State) : (grow s).faultCode = s.faultCode := rfl
@[simp] theorem grow_raised (s : State) : (grow s).raised = s.raised := rfl
@[simp] theorem grow_inBytes (s : State) : (grow s).inBytes = s.inBytes := rfl
@[simp] theorem grow_inEnd (s : State) : (grow s).inEnd = s.inEnd := rfl
@[simp] theorem grow_outTaken (s : State) : (grow s).outTaken = s.outTaken := rfl
@[simp] theorem grow_sinkReady (s : State) : (grow s).sinkReady = s.sinkReady := rfl
@[simp] theorem grow_accepted (s : State) : (grow s).accepted = s.accepted := rfl
@[simp] theorem grow_moves (s : State) : (grow s).moves = s.moves := rfl

/-! `epochReset` -/

@[simp] theorem epochReset_codeSize (s : State) : (epochReset s).codeSize = 9 := rfl
@[simp] theorem epochReset_dictSize (s : State) : (epochReset s).dictSize = 256 := rfl
@[simp] theorem epochReset_prevCode (s : State) : (epochReset s).prevCode = s.prevCode := rfl
@[simp] theorem epochReset_prevFirst (s : State) : (epochReset s).prevFirst = s.prevFirst := rfl
@[simp] theorem epochReset_firstOfEpoch (s : State) : (epochReset s).firstOfEpoch = true := rfl
@[simp] theorem epochReset_acc (s : State) : (epochReset s).acc = s.acc := rfl
@[simp] theorem epochReset_nbits (s : State) : (epochReset s).nbits = s.nbits := rfl
@[simp] theorem epochReset_inPos (s : State) : (epochReset s).inPos = s.inPos := rfl
@[simp] theorem epochReset_dict (s : State) : (epochReset s).dict = singletons := rfl
@[simp] theorem epochReset_out (s : State) : (epochReset s).out = s.out := rfl
@[simp] theorem epochReset_phase (s : State) : (epochReset s).phase = s.phase := rfl
@[simp] theorem epochReset_cause (s : State) : (epochReset s).cause = s.cause := rfl
@[simp] theorem epochReset_faultCode (s : State) : (epochReset s).faultCode = s.faultCode := rfl
@[simp] theorem epochReset_raised (s : State) : (epochReset s).raised = s.raised := rfl
@[simp] theorem epochReset_inBytes (s : State) : (epochReset s).inBytes = s.inBytes := rfl
@[simp] theorem epochReset_inEnd (s : State) : (epochReset s).inEnd = s.inEnd := rfl
@[simp] theorem epochReset_outTaken (s : State) : (epochReset s).outTaken = s.outTaken := rfl
@[simp] theorem epochReset_sinkReady (s : State) : (epochReset s).sinkReady = s.sinkReady := rfl
@[simp] theorem epochReset_accepted (s : State) : (epochReset s).accepted = s.accepted := rfl
@[simp] theorem epochReset_moves (s : State) : (epochReset s).moves = s.moves := rfl

/-! `dictReset` -/

@[simp] theorem dictReset_codeSize (s : State) : (dictReset s).codeSize = s.codeSize := rfl
@[simp] theorem dictReset_dictSize (s : State) : (dictReset s).dictSize = 256 := rfl
@[simp] theorem dictReset_prevCode (s : State) : (dictReset s).prevCode = s.prevCode := rfl
@[simp] theorem dictReset_prevFirst (s : State) : (dictReset s).prevFirst = s.prevFirst := rfl
@[simp] theorem dictReset_firstOfEpoch (s : State) : (dictReset s).firstOfEpoch = s.firstOfEpoch := rfl
@[simp] theorem dictReset_acc (s : State) : (dictReset s).acc = s.acc := rfl
@[simp] theorem dictReset_nbits (s : State) : (dictReset s).nbits = s.nbits := rfl
@[simp] theorem dictReset_inPos (s : State) : (dictReset s).inPos = s.inPos := rfl
@[simp] theorem dictReset_dict (s : State) : (dictReset s).dict = singletons := rfl
@[simp] theorem dictReset_out (s : State) : (dictReset s).out = s.out := rfl
@[simp] theorem dictReset_phase (s : State) : (dictReset s).phase = s.phase := rfl
@[simp] theorem dictReset_cause (s : State) : (dictReset s).cause = s.cause := rfl
@[simp] theorem dictReset_faultCode (s : State) : (dictReset s).faultCode = s.faultCode := rfl
@[simp] theorem dictReset_raised (s : State) : (dictReset s).raised = s.raised := rfl
@[simp] theorem dictReset_inBytes (s : State) : (dictReset s).inBytes = s.inBytes := rfl
@[simp] theorem dictReset_inEnd (s : State) : (dictReset s).inEnd = s.inEnd := rfl
@[simp] theorem dictReset_outTaken (s : State) : (dictReset s).outTaken = s.outTaken := rfl
@[simp] theorem dictReset_sinkReady (s : State) : (dictReset s).sinkReady = s.sinkReady := rfl
@[simp] theorem dictReset_accepted (s : State) : (dictReset s).accepted = s.accepted := rfl
@[simp] theorem dictReset_moves (s : State) : (dictReset s).moves = s.moves := rfl

/-! `endOfRun` -/

@[simp] theorem endOfRun_codeSize (s : State) : (endOfRun s).codeSize = s.codeSize := rfl
@[simp] theorem endOfRun_dictSize (s : State) : (endOfRun s).dictSize = s.dictSize := rfl
@[simp] theorem endOfRun_prevCode (s : State) : (endOfRun s).prevCode = s.prevCode := rfl
@[simp] theorem endOfRun_prevFirst (s : State) : (endOfRun s).prevFirst = s.prevFirst := rfl
@[simp] theorem endOfRun_firstOfEpoch (s : State) : (endOfRun s).firstOfEpoch = s.firstOfEpoch := rfl
@[simp] theorem endOfRun_acc (s : State) : (endOfRun s).acc = s.acc := rfl
@[simp] theorem endOfRun_nbits (s : State) : (endOfRun s).nbits = s.nbits := rfl
@[simp] theorem endOfRun_inPos (s : State) : (endOfRun s).inPos = s.inPos := rfl
@[simp] theorem endOfRun_dict (s : State) : (endOfRun s).dict = s.dict := rfl
@[simp] theorem endOfRun_out (s : State) : (endOfRun s).out = s.out := rfl
@[simp] theorem endOfRun_phase (s : State) : (endOfRun s).phase = .done := rfl
@[simp] theorem endOfRun_cause (s : State) : (endOfRun s).cause = s.cause := rfl
@[simp] theorem endOfRun_faultCode (s : State) : (endOfRun s).faultCode = s.faultCode := rfl
@[simp] theorem endOfRun_raised (s : State) : (endOfRun s).raised = s.raised := rfl
@[simp] theorem endOfRun_inBytes (s : State) : (endOfRun s).inBytes = s.inBytes := rfl
@[simp] theorem endOfRun_inEnd (s : State) : (endOfRun s).inEnd = s.inEnd := rfl
@[simp] theorem endOfRun_outTaken (s : State) : (endOfRun s).outTaken = s.outTaken := rfl
@[simp] theorem endOfRun_sinkReady (s : State) : (endOfRun s).sinkReady = s.sinkReady := rfl
@[simp] theorem endOfRun_accepted (s : State) : (endOfRun s).accepted = s.accepted := rfl
@[simp] theorem endOfRun_moves (s : State) : (endOfRun s).moves = s.moves := rfl

/-! `endSpent` -/

@[simp] theorem endSpent_codeSize (s : State) : (endSpent s).codeSize = s.codeSize := rfl
@[simp] theorem endSpent_dictSize (s : State) : (endSpent s).dictSize = s.dictSize := rfl
@[simp] theorem endSpent_prevCode (s : State) : (endSpent s).prevCode = s.prevCode := rfl
@[simp] theorem endSpent_prevFirst (s : State) : (endSpent s).prevFirst = s.prevFirst := rfl
@[simp] theorem endSpent_firstOfEpoch (s : State) : (endSpent s).firstOfEpoch = s.firstOfEpoch := rfl
@[simp] theorem endSpent_acc (s : State) : (endSpent s).acc = s.acc := rfl
@[simp] theorem endSpent_nbits (s : State) : (endSpent s).nbits = s.nbits := rfl
@[simp] theorem endSpent_inPos (s : State) : (endSpent s).inPos = s.inPos := rfl
@[simp] theorem endSpent_dict (s : State) : (endSpent s).dict = s.dict := rfl
@[simp] theorem endSpent_out (s : State) : (endSpent s).out = s.out := rfl
@[simp] theorem endSpent_phase (s : State) : (endSpent s).phase = s.phase := rfl
@[simp] theorem endSpent_cause (s : State) : (endSpent s).cause = s.cause := rfl
@[simp] theorem endSpent_faultCode (s : State) : (endSpent s).faultCode = s.faultCode := rfl
@[simp] theorem endSpent_raised (s : State) : (endSpent s).raised = s.raised := rfl
@[simp] theorem endSpent_inBytes (s : State) : (endSpent s).inBytes = s.inBytes := rfl
@[simp] theorem endSpent_inEnd (s : State) : (endSpent s).inEnd = false := rfl
@[simp] theorem endSpent_outTaken (s : State) : (endSpent s).outTaken = s.outTaken := rfl
@[simp] theorem endSpent_sinkReady (s : State) : (endSpent s).sinkReady = s.sinkReady := rfl
@[simp] theorem endSpent_accepted (s : State) : (endSpent s).accepted = s.accepted := rfl
@[simp] theorem endSpent_moves (s : State) : (endSpent s).moves = s.moves := rfl

/-! `takeFault` -/

@[simp] theorem takeFault_codeSize (k : Cause) (c : Code) (s : State) : (takeFault k c s).codeSize = s.codeSize := rfl
@[simp] theorem takeFault_dictSize (k : Cause) (c : Code) (s : State) : (takeFault k c s).dictSize = s.dictSize := rfl
@[simp] theorem takeFault_prevCode (k : Cause) (c : Code) (s : State) : (takeFault k c s).prevCode = s.prevCode := rfl
@[simp] theorem takeFault_prevFirst (k : Cause) (c : Code) (s : State) : (takeFault k c s).prevFirst = s.prevFirst := rfl
@[simp] theorem takeFault_firstOfEpoch (k : Cause) (c : Code) (s : State) : (takeFault k c s).firstOfEpoch = s.firstOfEpoch := rfl
@[simp] theorem takeFault_acc (k : Cause) (c : Code) (s : State) : (takeFault k c s).acc = s.acc := rfl
@[simp] theorem takeFault_nbits (k : Cause) (c : Code) (s : State) : (takeFault k c s).nbits = s.nbits := rfl
@[simp] theorem takeFault_inPos (k : Cause) (c : Code) (s : State) : (takeFault k c s).inPos = s.inPos := rfl
@[simp] theorem takeFault_dict (k : Cause) (c : Code) (s : State) : (takeFault k c s).dict = s.dict := rfl
@[simp] theorem takeFault_out (k : Cause) (c : Code) (s : State) : (takeFault k c s).out = s.out := rfl
@[simp] theorem takeFault_phase (k : Cause) (c : Code) (s : State) : (takeFault k c s).phase = .fault := rfl
@[simp] theorem takeFault_cause (k : Cause) (c : Code) (s : State) : (takeFault k c s).cause = k := rfl
@[simp] theorem takeFault_faultCode (k : Cause) (c : Code) (s : State) : (takeFault k c s).faultCode = some c := rfl
@[simp] theorem takeFault_raised (k : Cause) (c : Code) (s : State) : (takeFault k c s).raised = none := rfl
@[simp] theorem takeFault_inBytes (k : Cause) (c : Code) (s : State) : (takeFault k c s).inBytes = s.inBytes := rfl
@[simp] theorem takeFault_inEnd (k : Cause) (c : Code) (s : State) : (takeFault k c s).inEnd = s.inEnd := rfl
@[simp] theorem takeFault_outTaken (k : Cause) (c : Code) (s : State) : (takeFault k c s).outTaken = s.outTaken := rfl
@[simp] theorem takeFault_sinkReady (k : Cause) (c : Code) (s : State) : (takeFault k c s).sinkReady = s.sinkReady := rfl
@[simp] theorem takeFault_accepted (k : Cause) (c : Code) (s : State) : (takeFault k c s).accepted = s.accepted := rfl
@[simp] theorem takeFault_moves (k : Cause) (c : Code) (s : State) : (takeFault k c s).moves = s.moves := rfl

/-! `raiseFault`, in the fields that neither fault entry nor its wait writes -/

@[simp] theorem raiseFault_codeSize (k : Cause) (c : Code) (s : State) : (raiseFault k c s).codeSize = s.codeSize := by
  unfold raiseFault; split <;> rfl
@[simp] theorem raiseFault_dictSize (k : Cause) (c : Code) (s : State) : (raiseFault k c s).dictSize = s.dictSize := by
  unfold raiseFault; split <;> rfl
@[simp] theorem raiseFault_prevCode (k : Cause) (c : Code) (s : State) : (raiseFault k c s).prevCode = s.prevCode := by
  unfold raiseFault; split <;> rfl
@[simp] theorem raiseFault_prevFirst (k : Cause) (c : Code) (s : State) : (raiseFault k c s).prevFirst = s.prevFirst := by
  unfold raiseFault; split <;> rfl
@[simp] theorem raiseFault_firstOfEpoch (k : Cause) (c : Code) (s : State) : (raiseFault k c s).firstOfEpoch = s.firstOfEpoch := by
  unfold raiseFault; split <;> rfl
@[simp] theorem raiseFault_acc (k : Cause) (c : Code) (s : State) : (raiseFault k c s).acc = s.acc := by
  unfold raiseFault; split <;> rfl
@[simp] theorem raiseFault_nbits (k : Cause) (c : Code) (s : State) : (raiseFault k c s).nbits = s.nbits := by
  unfold raiseFault; split <;> rfl
@[simp] theorem raiseFault_inPos (k : Cause) (c : Code) (s : State) : (raiseFault k c s).inPos = s.inPos := by
  unfold raiseFault; split <;> rfl
@[simp] theorem raiseFault_dict (k : Cause) (c : Code) (s : State) : (raiseFault k c s).dict = s.dict := by
  unfold raiseFault; split <;> rfl
@[simp] theorem raiseFault_out (k : Cause) (c : Code) (s : State) : (raiseFault k c s).out = s.out := by
  unfold raiseFault; split <;> rfl
@[simp] theorem raiseFault_inBytes (k : Cause) (c : Code) (s : State) : (raiseFault k c s).inBytes = s.inBytes := by
  unfold raiseFault; split <;> rfl
@[simp] theorem raiseFault_inEnd (k : Cause) (c : Code) (s : State) : (raiseFault k c s).inEnd = s.inEnd := by
  unfold raiseFault; split <;> rfl
@[simp] theorem raiseFault_outTaken (k : Cause) (c : Code) (s : State) : (raiseFault k c s).outTaken = s.outTaken := by
  unfold raiseFault; split <;> rfl
@[simp] theorem raiseFault_sinkReady (k : Cause) (c : Code) (s : State) : (raiseFault k c s).sinkReady = s.sinkReady := by
  unfold raiseFault; split <;> rfl
@[simp] theorem raiseFault_accepted (k : Cause) (c : Code) (s : State) : (raiseFault k c s).accepted = s.accepted := by
  unfold raiseFault; split <;> rfl
@[simp] theorem raiseFault_moves (k : Cause) (c : Code) (s : State) : (raiseFault k c s).moves = s.moves := by
  unfold raiseFault; split <;> rfl

/-! `refill` -/

@[simp] theorem refill_codeSize (b : Byte) (s : State) : (refill b s).codeSize = s.codeSize := rfl
@[simp] theorem refill_dictSize (b : Byte) (s : State) : (refill b s).dictSize = s.dictSize := rfl
@[simp] theorem refill_prevCode (b : Byte) (s : State) : (refill b s).prevCode = s.prevCode := rfl
@[simp] theorem refill_prevFirst (b : Byte) (s : State) : (refill b s).prevFirst = s.prevFirst := rfl
@[simp] theorem refill_firstOfEpoch (b : Byte) (s : State) : (refill b s).firstOfEpoch = s.firstOfEpoch := rfl
@[simp] theorem refill_acc (b : Byte) (s : State) : (refill b s).acc = (s.acc <<< 8) ||| b.setWidth 19 := rfl
@[simp] theorem refill_nbits (b : Byte) (s : State) : (refill b s).nbits = s.nbits + 8 := rfl
@[simp] theorem refill_inPos (b : Byte) (s : State) : (refill b s).inPos = s.inPos + 1 := rfl
@[simp] theorem refill_dict (b : Byte) (s : State) : (refill b s).dict = s.dict := rfl
@[simp] theorem refill_out (b : Byte) (s : State) : (refill b s).out = s.out := rfl
@[simp] theorem refill_phase (b : Byte) (s : State) : (refill b s).phase = s.phase := rfl
@[simp] theorem refill_cause (b : Byte) (s : State) : (refill b s).cause = s.cause := rfl
@[simp] theorem refill_faultCode (b : Byte) (s : State) : (refill b s).faultCode = s.faultCode := rfl
@[simp] theorem refill_raised (b : Byte) (s : State) : (refill b s).raised = s.raised := rfl
@[simp] theorem refill_inBytes (b : Byte) (s : State) : (refill b s).inBytes = s.inBytes := rfl
@[simp] theorem refill_inEnd (b : Byte) (s : State) : (refill b s).inEnd = s.inEnd := rfl
@[simp] theorem refill_outTaken (b : Byte) (s : State) : (refill b s).outTaken = s.outTaken := rfl
@[simp] theorem refill_sinkReady (b : Byte) (s : State) : (refill b s).sinkReady = s.sinkReady := rfl
@[simp] theorem refill_accepted (b : Byte) (s : State) : (refill b s).accepted = s.accepted := rfl
@[simp] theorem refill_moves (b : Byte) (s : State) : (refill b s).moves = s.moves := rfl

/-! `extractRest` -/

@[simp] theorem extractRest_codeSize (s : State) : (extractRest s).codeSize = s.codeSize := rfl
@[simp] theorem extractRest_dictSize (s : State) : (extractRest s).dictSize = s.dictSize := rfl
@[simp] theorem extractRest_prevCode (s : State) : (extractRest s).prevCode = s.prevCode := rfl
@[simp] theorem extractRest_prevFirst (s : State) : (extractRest s).prevFirst = s.prevFirst := rfl
@[simp] theorem extractRest_firstOfEpoch (s : State) : (extractRest s).firstOfEpoch = s.firstOfEpoch := rfl
@[simp] theorem extractRest_acc (s : State) : (extractRest s).acc = BitVec.ofNat 19 (s.acc.toNat % 2 ^ (s.nbits.toNat - s.codeSize.toNat)) := rfl
@[simp] theorem extractRest_nbits (s : State) : (extractRest s).nbits = BitVec.ofNat 5 (s.nbits.toNat - s.codeSize.toNat) := rfl
@[simp] theorem extractRest_inPos (s : State) : (extractRest s).inPos = s.inPos := rfl
@[simp] theorem extractRest_dict (s : State) : (extractRest s).dict = s.dict := rfl
@[simp] theorem extractRest_out (s : State) : (extractRest s).out = s.out := rfl
@[simp] theorem extractRest_phase (s : State) : (extractRest s).phase = s.phase := rfl
@[simp] theorem extractRest_cause (s : State) : (extractRest s).cause = s.cause := rfl
@[simp] theorem extractRest_faultCode (s : State) : (extractRest s).faultCode = s.faultCode := rfl
@[simp] theorem extractRest_raised (s : State) : (extractRest s).raised = s.raised := rfl
@[simp] theorem extractRest_inBytes (s : State) : (extractRest s).inBytes = s.inBytes := rfl
@[simp] theorem extractRest_inEnd (s : State) : (extractRest s).inEnd = s.inEnd := rfl
@[simp] theorem extractRest_outTaken (s : State) : (extractRest s).outTaken = s.outTaken := rfl
@[simp] theorem extractRest_sinkReady (s : State) : (extractRest s).sinkReady = s.sinkReady := rfl
@[simp] theorem extractRest_accepted (s : State) : (extractRest s).accepted = s.accepted := rfl
@[simp] theorem extractRest_moves (s : State) : (extractRest s).moves = s.moves := rfl

/-! `startRun` -/

@[simp] theorem startRun_codeSize (s : State) : (startRun s).codeSize = 9 := rfl
@[simp] theorem startRun_dictSize (s : State) : (startRun s).dictSize = 256 := rfl
@[simp] theorem startRun_prevCode (s : State) : (startRun s).prevCode = none := rfl
@[simp] theorem startRun_prevFirst (s : State) : (startRun s).prevFirst = none := rfl
@[simp] theorem startRun_firstOfEpoch (s : State) : (startRun s).firstOfEpoch = true := rfl
@[simp] theorem startRun_acc (s : State) : (startRun s).acc = 0 := rfl
@[simp] theorem startRun_nbits (s : State) : (startRun s).nbits = 0 := rfl
@[simp] theorem startRun_inPos (s : State) : (startRun s).inPos = 0 := rfl
@[simp] theorem startRun_dict (s : State) : (startRun s).dict = singletons := rfl
@[simp] theorem startRun_out (s : State) : (startRun s).out = [] := rfl
@[simp] theorem startRun_phase (s : State) : (startRun s).phase = .run := rfl
@[simp] theorem startRun_cause (s : State) : (startRun s).cause = .none := rfl
@[simp] theorem startRun_faultCode (s : State) : (startRun s).faultCode = none := rfl
@[simp] theorem startRun_raised (s : State) : (startRun s).raised = none := rfl
@[simp] theorem startRun_inBytes (s : State) : (startRun s).inBytes = untaken s := rfl
@[simp] theorem startRun_inEnd (s : State) : (startRun s).inEnd = s.inEnd := rfl
@[simp] theorem startRun_outTaken (s : State) : (startRun s).outTaken = 0 := rfl
@[simp] theorem startRun_sinkReady (s : State) : (startRun s).sinkReady = s.sinkReady := rfl
@[simp] theorem startRun_accepted (s : State) : (startRun s).accepted = s.accepted := rfl
@[simp] theorem startRun_moves (s : State) : (startRun s).moves = s.moves := rfl

/-! `hardwareReset` -/

@[simp] theorem hardwareReset_codeSize (s : State) : (hardwareReset s).codeSize = State.reset.codeSize := rfl
@[simp] theorem hardwareReset_dictSize (s : State) : (hardwareReset s).dictSize = State.reset.dictSize := rfl
@[simp] theorem hardwareReset_prevCode (s : State) : (hardwareReset s).prevCode = none := rfl
@[simp] theorem hardwareReset_prevFirst (s : State) : (hardwareReset s).prevFirst = none := rfl
@[simp] theorem hardwareReset_firstOfEpoch (s : State) : (hardwareReset s).firstOfEpoch = State.reset.firstOfEpoch := rfl
@[simp] theorem hardwareReset_acc (s : State) : (hardwareReset s).acc = State.reset.acc := rfl
@[simp] theorem hardwareReset_nbits (s : State) : (hardwareReset s).nbits = State.reset.nbits := rfl
@[simp] theorem hardwareReset_inPos (s : State) : (hardwareReset s).inPos = 0 := rfl
@[simp] theorem hardwareReset_dict (s : State) : (hardwareReset s).dict = [] := rfl
@[simp] theorem hardwareReset_out (s : State) : (hardwareReset s).out = [] := rfl
@[simp] theorem hardwareReset_phase (s : State) : (hardwareReset s).phase = .idle := rfl
@[simp] theorem hardwareReset_cause (s : State) : (hardwareReset s).cause = .none := rfl
@[simp] theorem hardwareReset_faultCode (s : State) : (hardwareReset s).faultCode = none := rfl
@[simp] theorem hardwareReset_raised (s : State) : (hardwareReset s).raised = none := rfl
@[simp] theorem hardwareReset_inBytes (s : State) : (hardwareReset s).inBytes = untaken s := rfl
theorem hardwareReset_inEnd_run {s : State} (h : s.phase = .run) : (hardwareReset s).inEnd = false := by
  simp [hardwareReset, h]
theorem hardwareReset_inEnd_of_ne_run {s : State} (h : s.phase ≠ .run) : (hardwareReset s).inEnd = s.inEnd := by
  cases hp : s.phase <;> simp_all [hardwareReset]
@[simp] theorem hardwareReset_outTaken (s : State) : (hardwareReset s).outTaken = 0 := rfl
@[simp] theorem hardwareReset_sinkReady (s : State) : (hardwareReset s).sinkReady = s.sinkReady := rfl
@[simp] theorem hardwareReset_accepted (s : State) : (hardwareReset s).accepted = s.accepted := rfl
@[simp] theorem hardwareReset_moves (s : State) : (hardwareReset s).moves = s.moves := rfl

/-! `sourceEnd` -/

@[simp] theorem sourceEnd_codeSize (s : State) : (sourceEnd s).codeSize = s.codeSize := rfl
@[simp] theorem sourceEnd_dictSize (s : State) : (sourceEnd s).dictSize = s.dictSize := rfl
@[simp] theorem sourceEnd_prevCode (s : State) : (sourceEnd s).prevCode = s.prevCode := rfl
@[simp] theorem sourceEnd_prevFirst (s : State) : (sourceEnd s).prevFirst = s.prevFirst := rfl
@[simp] theorem sourceEnd_firstOfEpoch (s : State) : (sourceEnd s).firstOfEpoch = s.firstOfEpoch := rfl
@[simp] theorem sourceEnd_acc (s : State) : (sourceEnd s).acc = s.acc := rfl
@[simp] theorem sourceEnd_nbits (s : State) : (sourceEnd s).nbits = s.nbits := rfl
@[simp] theorem sourceEnd_inPos (s : State) : (sourceEnd s).inPos = s.inPos := rfl
@[simp] theorem sourceEnd_dict (s : State) : (sourceEnd s).dict = s.dict := rfl
@[simp] theorem sourceEnd_out (s : State) : (sourceEnd s).out = s.out := rfl
@[simp] theorem sourceEnd_phase (s : State) : (sourceEnd s).phase = s.phase := rfl
@[simp] theorem sourceEnd_cause (s : State) : (sourceEnd s).cause = s.cause := rfl
@[simp] theorem sourceEnd_faultCode (s : State) : (sourceEnd s).faultCode = s.faultCode := rfl
@[simp] theorem sourceEnd_raised (s : State) : (sourceEnd s).raised = s.raised := rfl
@[simp] theorem sourceEnd_inBytes (s : State) : (sourceEnd s).inBytes = s.inBytes := rfl
@[simp] theorem sourceEnd_inEnd (s : State) : (sourceEnd s).inEnd = true := rfl
@[simp] theorem sourceEnd_outTaken (s : State) : (sourceEnd s).outTaken = s.outTaken := rfl
@[simp] theorem sourceEnd_sinkReady (s : State) : (sourceEnd s).sinkReady = s.sinkReady := rfl
@[simp] theorem sourceEnd_accepted (s : State) : (sourceEnd s).accepted = s.accepted := rfl
@[simp] theorem sourceEnd_moves (s : State) : (sourceEnd s).moves = s.moves := rfl

end Sys2Proof.Machine
end

