-- ==== Sys2Proof/Laws/Memory.lean ====
section
/-! SUPPORT. The laws of the dictionary memory: a read after a write, and the canonical form. -/

namespace Sys2Proof.Machine

@[simp] theorem memRead_nil (i : Nat) : memRead [] i = none := rfl

theorem memRead_cons (c : Nat × Entry) (m : Memory) (i : Nat) :
    memRead (c :: m) i = if i = c.1 then some c.2 else memRead m i := by
  obtain ⟨j, e⟩ := c
  by_cases h : i = j
  · simp [memRead, List.lookup, h]
  · simp [memRead, List.lookup, h, beq_false_of_ne h]

/-- A read after a write: the entry written at its index, every other index as before. -/
theorem memRead_memWrite (m : Memory) (i : Nat) (e : Entry) (j : Nat) :
    memRead (memWrite m i e) j = if j = i then some e else memRead m j := by
  induction m with
  | nil => simp [memWrite, memRead_cons]
  | cons c m ih =>
    obtain ⟨k, f⟩ := c
    simp only [memWrite]
    split_ifs <;> simp_all [memRead_cons]

@[simp] theorem memRead_memWrite_same (m : Memory) (i : Nat) (e : Entry) :
    memRead (memWrite m i e) i = some e := by simp [memRead_memWrite]

theorem memRead_memWrite_ne (m : Memory) {i j : Nat} (e : Entry) (h : j ≠ i) :
    memRead (memWrite m i e) j = memRead m j := by simp [memRead_memWrite, h]

theorem memory_wf_iff (m : Memory) :
    m.wf = true ↔ m.Pairwise (fun a b => a.1 < b.1) ∧ ∀ c ∈ m, c.1 < 4096 := by
  unfold Memory.wf
  rw [Bool.and_eq_true, decide_eq_true_eq, List.all_eq_true]
  exact and_congr Iff.rfl (forall₂_congr fun c _ => decide_eq_true_iff)

theorem mem_memWrite {m : Memory} {i : Nat} {e : Entry} {c : Nat × Entry}
    (h : c ∈ memWrite m i e) : c = (i, e) ∨ c ∈ m := by
  induction m with
  | nil => simpa [memWrite] using h
  | cons d m ih =>
    obtain ⟨k, f⟩ := d
    simp only [memWrite] at h
    split_ifs at h <;> simp only [List.mem_cons] at h ⊢ <;> tauto

/-- A write inside the capacity keeps the canonical form. -/
theorem memWrite_wf {m : Memory} {i : Nat} (e : Entry) (hi : i < 4096) (h : m.wf = true) :
    (memWrite m i e).wf = true := by
  rw [memory_wf_iff] at *
  refine ⟨?_, fun c hc => (mem_memWrite hc).elim (fun h' => h' ▸ hi) (h.2 c)⟩
  obtain ⟨hp, -⟩ := h
  induction m with
  | nil => simp [memWrite]
  | cons d m ih =>
    obtain ⟨k, f⟩ := d
    obtain ⟨hk, hm⟩ := List.pairwise_cons.1 hp
    simp only [memWrite]
    split_ifs with h1 h2
    · refine List.pairwise_cons.2 ⟨fun c hc => ?_, hp⟩
      rcases List.mem_cons.1 hc with rfl | hc
      · exact h1
      · exact h1.trans (hk c hc)
    · exact List.pairwise_cons.2 ⟨fun c hc => h2 ▸ hk c hc, hm⟩
    · refine List.pairwise_cons.2 ⟨fun c hc => ?_, ih hm⟩
      rcases mem_memWrite hc with rfl | hc
      · show k < i; omega
      · exact hk c hc

/-! The baseline -/

theorem memRead_map_range (g : Nat → Entry) (n i : Nat) :
    memRead ((List.range n).map fun b => (b, g b)) i = if i < n then some (g i) else none := by
  suffices h : ∀ (k : Nat), memRead ((List.range' k n).map fun b => (b, g b)) i =
      if k ≤ i ∧ i < k + n then some (g i) else none by
    simpa [List.range_eq_range'] using h 0
  induction n with
  | zero => intro k; simp
  | succ n ih =>
    intro k
    rw [List.range'_succ, List.map_cons, memRead_cons, ih]
    by_cases hk : i = k
    · simp [hk]
    · simp only [hk, if_false]
      congr 1
      simp only [eq_iff_iff]
      omega

/-- What the dictionary holds after a reset (R52, R131). -/
theorem memRead_singletons (i : Nat) :
    memRead singletons i =
      if i < 256 then some { sym := BitVec.ofNat 8 i, parent := none } else none :=
  memRead_map_range _ _ _

theorem singletons_wf : singletons.wf = true := by
  rw [memory_wf_iff]
  refine ⟨?_, ?_⟩
  · exact List.pairwise_map.2 (List.pairwise_lt_range.imp fun h => h)
  · intro c hc
    obtain ⟨b, hb, rfl⟩ := List.mem_map.1 hc
    have : b < 256 := by simpa [Config.nSingletons] using hb
    show b < 4096
    omega

/-! The operations keep the canonical form -/

theorem reset_wf : State.reset.dict.wf = true := by decide

theorem dictReset_wf (s : State) : (dictReset s).dict.wf = true := singletons_wf

theorem startRun_wf (s : State) : (startRun s).dict.wf = true := singletons_wf

theorem epochReset_wf (s : State) : (epochReset s).dict.wf = true := singletons_wf

/-- All that an append can do (R132). -/
theorem dictAppend_cases {b : Byte} {p : Code} {s t : State} (h : dictAppend b p s = some t) :
    s.dictSize.toNat < 4096 ∧
      t = { s with
        dict := memWrite s.dict s.dictSize.toNat { sym := b, parent := some p }
        dictSize := s.dictSize + 1 } := by
  unfold dictAppend at h
  split_ifs at h with hg
  exact ⟨not_le.1 hg, (Option.some.inj h).symm⟩

theorem dictAppend_wf {b : Byte} {p : Code} {s t : State} (h : dictAppend b p s = some t)
    (hs : s.dict.wf = true) : t.dict.wf = true := by
  obtain ⟨hd, rfl⟩ := dictAppend_cases h
  exact memWrite_wf _ hd hs

theorem dictAppend_none {b : Byte} {p : Code} {s : State} :
    dictAppend b p s = none ↔ 4096 ≤ s.dictSize.toNat := by
  simp [dictAppend, Config.dictCapacity]

end Sys2Proof.Machine
end

