-- ==== Sys2Proof/Laws/Ops.lean ====
section
/-! SUPPORT. One lemma for each shared operation: all that it can do. -/

namespace Sys2Proof.Machine

/-! ### The streams -/

/-- In `IDLE` no byte at the source has been taken (R255, log entry 16). -/
theorem untaken_idle {s : State} (h : s.phase = .idle) : untaken s = s.inBytes := by
  simp [untaken, h]

/-- Once `START` has given the cursor a value, it counts the bytes taken (R29). -/
theorem untaken_of_ne_idle {s : State} (h : s.phase ≠ .idle) :
    untaken s = s.inBytes.drop s.inPos := by
  cases hp : s.phase <;> simp_all [untaken]

/-- All that a drain can do (R205): it is refused in `RUN`; elsewhere the end falls and no untaken
byte is left. -/
theorem sourceDrain_cases (s : State) :
    (s.phase = .run ∧ sourceDrain s = none) ∨
    (s.phase ≠ .run ∧ ∃ m, sourceDrain s = some { s with inBytes := m, inEnd := false } ∧
      untaken { s with inBytes := m, inEnd := false } = []) := by
  unfold sourceDrain untaken
  cases hp : s.phase with
  | run => exact .inl ⟨rfl, rfl⟩
  | idle => exact .inr ⟨by decide, [], rfl, rfl⟩
  | done | fault => exact .inr ⟨by decide, s.inBytes.take s.inPos, rfl, by simp⟩

/-- A byte offered comes after all the untaken ones, while the cursor is within the input (R195). -/
theorem untaken_offer {s : State} (b : Byte) (h : s.phase ≠ .idle → s.inPos ≤ s.inBytes.length) :
    untaken { s with inBytes := s.inBytes ++ [b] } = untaken s ++ [b] := by
  by_cases hp : s.phase = .idle
  · simp [untaken, hp]
  · rw [untaken_of_ne_idle hp, ← List.drop_append_of_le_length (h hp)]
    exact untaken_of_ne_idle hp

/-- All that `sinkTake` can do: the oldest offered byte is taken, or nothing is offered. -/
theorem sinkTake_cases (s : State) :
    (∃ b, s.out[s.outTaken]? = some b ∧
      sinkTake s = { s with outTaken := s.outTaken + 1, accepted := s.accepted ++ [b] }) ∨
    (s.out.length ≤ s.outTaken ∧ sinkTake s = s) := by
  unfold sinkTake
  cases h : s.out[s.outTaken]? with
  | some b => exact .inl ⟨b, rfl, rfl⟩
  | none => exact .inr ⟨List.getElem?_eq_none_iff.1 h, rfl⟩

/-- What the sink holds of the output: the bytes taken so far, in order, and no more (R65). -/
def SinkOk (s : State) : Prop :=
  s.outTaken ≤ s.out.length ∧ ∃ earlier, s.accepted = earlier ++ s.out.take s.outTaken

theorem sinkTake_sinkOk {s : State} (h : SinkOk s) : SinkOk (sinkTake s) := by
  obtain ⟨hle, e, he⟩ := h
  rcases sinkTake_cases s with ⟨b, hb, hs⟩ | ⟨-, hs⟩
  · obtain ⟨hlt, hb⟩ := List.getElem?_eq_some_iff.1 hb
    rw [hs]
    refine ⟨hlt, e, ?_⟩
    show s.accepted ++ [b] = e ++ s.out.take (s.outTaken + 1)
    rw [he, List.append_assoc, List.take_succ_eq_append_getElem hlt, hb]
  · rw [hs]; exact ⟨hle, e, he⟩

/-- All that `OutPush` can do (R198). -/
theorem outPush_cases (s : State) (b : Byte) :
    ∃ n a, outPush s b = { s with out := s.out ++ [b], outTaken := n, accepted := a } ∧
      (s.sinkReady = false → n = s.outTaken ∧ a = s.accepted) ∧
      (s.sinkReady = true → s.outTaken = s.out.length →
        n = s.out.length + 1 ∧ a = s.accepted ++ [b]) := by
  by_cases hr : s.sinkReady = true
  · have ho : outPush s b = sinkTake { s with out := s.out ++ [b] } := by simp [outPush, hr]
    rcases sinkTake_cases { s with out := s.out ++ [b] } with ⟨x, hx, hs⟩ | ⟨hle, hs⟩
    · refine ⟨_, _, ho.trans hs, by simp [hr], fun _ ht => ?_⟩
      have hxb : x = b := by simpa [ht] using hx.symm
      simp [ht, hxb]
    · refine ⟨_, _, ho.trans hs, by simp [hr], fun _ ht => ?_⟩
      simp [ht] at hle
  · exact ⟨s.outTaken, s.accepted, by simp [outPush, hr], by simp, by simp [hr]⟩

theorem outPush_sinkOk {s : State} (b : Byte) (h : SinkOk s) : SinkOk (outPush s b) := by
  have h' : SinkOk { s with out := s.out ++ [b] } := by
    obtain ⟨hle, e, he⟩ := h
    refine ⟨?_, e, ?_⟩
    · show s.outTaken ≤ (s.out ++ [b]).length; simp; omega
    · show s.accepted = e ++ (s.out ++ [b]).take s.outTaken
      rw [he, List.take_append_of_le_length hle]
  unfold outPush
  dsimp only
  split_ifs
  · exact sinkTake_sinkOk h'
  · exact h'

/-- All that the output step can do (R155): the output grows by the sequence, and the sink takes
all of it or none of it. -/
theorem outPushAll_cases (s : State) (seq : List Byte) :
    ∃ n a, outPushAll s seq = { s with out := s.out ++ seq, outTaken := n, accepted := a } ∧
      (s.sinkReady = false → n = s.outTaken ∧ a = s.accepted) ∧
      (s.sinkReady = true → s.outTaken = s.out.length →
        n = (s.out ++ seq).length ∧ a = s.accepted ++ seq) := by
  induction seq generalizing s with
  | nil => exact ⟨s.outTaken, s.accepted, by simp [outPushAll], by simp, by simp⟩
  | cons b seq ih =>
    obtain ⟨n, a, hb, hf, ht⟩ := outPush_cases s b
    obtain ⟨n', a', hs, hf', ht'⟩ := ih (outPush s b)
    refine ⟨n', a', ?_, ?_, ?_⟩
    · show outPushAll (outPush s b) seq = _
      rw [hs, hb]
      simp
    · intro h
      obtain ⟨h1, h2⟩ := hf' (by simpa [hb] using h)
      simpa [hb, h1, h2] using hf h
    · intro h h0
      obtain ⟨h1, h2⟩ := ht h h0
      obtain ⟨h3, h4⟩ := ht' (by simpa [hb] using h) (by simp [hb, h1])
      exact ⟨by simp [h3, hb], by simp [h4, hb, h2]⟩

theorem outPushAll_sinkOk {s : State} (seq : List Byte) (h : SinkOk s) :
    SinkOk (outPushAll s seq) := by
  induction seq generalizing s with
  | nil => exact h
  | cons b seq ih => exact ih (outPush_sinkOk b h)

/-- All that a `raise` can do (R15, R226): the fault is entered where every byte is accepted, and waits
for the sink where one is not. -/
theorem raiseFault_cases (k : Cause) (c : Code) (s : State) :
    (outPending s = false ∧ raiseFault k c s = takeFault k c s) ∨
    (outPending s = true ∧ raiseFault k c s = { s with raised := some (k, c) }) := by
  unfold raiseFault
  cases outPending s <;> simp

/-! ### Reading the dictionary -/

/-- When `DICT_READ` answers (R133): the index is live and the entry holds a value. -/
theorem dictRead_ok {s : State} {i : Nat} {e : Entry} :
    dictRead s i = .ok e ↔ i < s.dictSize.toNat ∧ memRead s.dict i = some e := by
  unfold dictRead
  split_ifs with h
  · cases memRead s.dict i <;> simp [h]
  · simp [h]

/-- A read looks at the dictionary and at `dictSize` alone. -/
theorem dictRead_congr {s t : State} (hd : t.dict = s.dict) (hn : t.dictSize = s.dictSize) (i : Nat) :
    dictRead t i = dictRead s i := by
  simp [dictRead, hd, hn]

theorem chainWalk_congr {s t : State} (hd : t.dict = s.dict) (hn : t.dictSize = s.dictSize)
    (n i : Nat) : chainWalk t n i = chainWalk s n i := by
  induction n generalizing i with
  | zero => rfl
  | succ n ih => simp only [chainWalk, dictRead_congr hd hn, ih]

/-- A sequence depends on the dictionary and on `dictSize` alone. -/
theorem reconstruct_congr {s t : State} (hd : t.dict = s.dict) (hn : t.dictSize = s.dictSize)
    (i : Nat) : reconstruct t i = reconstruct s i := by
  simp only [reconstruct, chainWalk_congr hd hn]

/-- One turn of the loop of `CHAIN_WALK` (R134). -/
theorem chainWalk_root {s : State} {i : Nat} {e : Entry} (n : Nat) (h : dictRead s i = .ok e)
    (hp : e.parent = none) : chainWalk s (n + 1) i = .ok [e.sym] := by
  simp [chainWalk, h, hp]

theorem chainWalk_link {s : State} {i : Nat} {e : Entry} {p : Code} {w : List Byte} {n : Nat}
    (h : dictRead s i = .ok e) (hp : e.parent = some p) (hw : chainWalk s n p.toNat = .ok w) :
    chainWalk s (n + 1) i = .ok (e.sym :: w) := by
  simp [chainWalk, h, hp, hw]

/-- All that a walk which answers has done (R134). -/
theorem chainWalk_cases {s : State} {n i : Nat} {w : List Byte} (h : chainWalk s n i = .ok w) :
    ∃ m e, n = m + 1 ∧ dictRead s i = .ok e ∧
      ((e.parent = none ∧ w = [e.sym]) ∨
        ∃ p v, e.parent = some p ∧ chainWalk s m p.toNat = .ok v ∧ w = e.sym :: v) := by
  cases n with
  | zero => simp [chainWalk] at h
  | succ m =>
    refine ⟨m, ?_⟩
    simp only [chainWalk] at h
    cases hr : dictRead s i with
    | error f => simp [hr] at h
    | ok e =>
      refine ⟨e, rfl, rfl, ?_⟩
      simp only [hr] at h
      cases hp : e.parent with
      | none => simp only [hp, Except.ok.injEq] at h; exact .inl ⟨rfl, h.symm⟩
      | some p =>
        simp only [hp] at h
        cases hw : chainWalk s m p.toNat with
        | error f => simp [hw] at h
        | ok v => simp only [hw, Except.ok.injEq] at h; exact .inr ⟨p, v, rfl, hw, h.symm⟩

/-- A walk gives at least one byte (R136). -/
theorem chainWalk_ne_nil {s : State} {n i : Nat} {w : List Byte} (h : chainWalk s n i = .ok w) :
    w ≠ [] := by
  obtain ⟨m, e, -, -, ⟨-, rfl⟩ | ⟨p, v, -, -, rfl⟩⟩ := chainWalk_cases h <;> simp

/-- A walk that answers within `n` reads answers the same within more. -/
theorem chainWalk_mono {s : State} {n i : Nat} {w : List Byte} (h : chainWalk s n i = .ok w)
    {k : Nat} (hk : n ≤ k) : chainWalk s k i = .ok w := by
  induction n generalizing i w k with
  | zero => simp [chainWalk] at h
  | succ n ih =>
    obtain ⟨k, rfl⟩ : ∃ k', k = k' + 1 := ⟨k - 1, by omega⟩
    obtain ⟨m, e, hm, hr, hc⟩ := chainWalk_cases h
    obtain rfl : n = m := by omega
    rcases hc with ⟨hp, rfl⟩ | ⟨p, v, hp, hv, rfl⟩
    · exact chainWalk_root k hr hp
    · exact chainWalk_link hr hp (ih hv (by omega))

/-- A walk needs as many reads as it gives bytes. -/
theorem chainWalk_length {s : State} {n i : Nat} {w : List Byte} (h : chainWalk s n i = .ok w) :
    w.length ≤ n ∧ chainWalk s w.length i = .ok w := by
  induction n generalizing i w with
  | zero => simp [chainWalk] at h
  | succ n ih =>
    obtain ⟨m, e, hm, hr, hc⟩ := chainWalk_cases h
    obtain rfl : n = m := by omega
    rcases hc with ⟨hp, rfl⟩ | ⟨p, v, hp, hv, rfl⟩
    · exact ⟨by simp, chainWalk_root 0 hr hp⟩
    · obtain ⟨h1, h2⟩ := ih hv
      exact ⟨by simpa using h1, chainWalk_link hr hp h2⟩

/-- When `RECONSTRUCT` answers (R135). -/
theorem reconstruct_ok {s : State} {i : Nat} {w : List Byte} :
    reconstruct s i = .ok w ↔ chainWalk s 4096 i = .ok w.reverse := by
  unfold reconstruct
  simp only [Config.dictCapacity]
  cases chainWalk s 4096 i with
  | error f => simp
  | ok v => simp only [Except.ok.injEq]; constructor <;> rintro rfl <;> simp

theorem reconstruct_ne_nil {s : State} {i : Nat} {w : List Byte} (h : reconstruct s i = .ok w) :
    w ≠ [] := by
  have := chainWalk_ne_nil (reconstruct_ok.1 h)
  simpa using this

/-- When the `KWKWK` operand has a sequence (R152). -/
theorem seqKwkwk_ok {s : State} {seq : List Byte} :
    seqKwkwk s = .ok seq ↔
      ∃ p b w, s.prevCode = some p ∧ s.prevFirst = some b ∧ reconstruct s p.toNat = .ok w ∧
        seq = w ++ [b] := by
  unfold seqKwkwk
  cases s.prevCode with
  | none => simp
  | some p =>
    cases s.prevFirst with
    | none => simp
    | some b =>
      cases h : reconstruct s p.toNat with
      | error f => simp [h]
      | ok w => simp [h, eq_comm]

theorem seqKnown_ne_nil {c : Code} {s : State} {seq : List Byte} (h : seqKnown c s = .ok seq) :
    seq ≠ [] := reconstruct_ne_nil h

theorem seqKwkwk_ne_nil {s : State} {seq : List Byte} (h : seqKwkwk s = .ok seq) : seq ≠ [] := by
  obtain ⟨_, _, w, -, -, -, rfl⟩ := seqKwkwk_ok.1 h
  simp

/-! ### The iteration -/

/-- All that the append step can do (R156). -/
theorem appendStep_cases (first : Byte) (s : State) :
    (s.firstOfEpoch = true ∧ appendStep first s = .ok (some s)) ∨
    (s.firstOfEpoch = false ∧ s.prevCode = none ∧
      appendStep first s = .error (.noValue .prevCode)) ∨
    (s.firstOfEpoch = false ∧ 4096 ≤ s.dictSize.toNat ∧ s.prevCode ≠ none ∧
      appendStep first s = .ok none) ∨
    (s.firstOfEpoch = false ∧ s.dictSize.toNat < 4096 ∧ ∃ p, s.prevCode = some p ∧
      appendStep first s = .ok (some { s with
        dict := memWrite s.dict s.dictSize.toNat { sym := first, parent := some p }
        dictSize := s.dictSize + 1 })) := by
  unfold appendStep
  by_cases hf : s.firstOfEpoch = true
  · simp [hf]
  · rw [Bool.not_eq_true] at hf
    by_cases hd : s.dictSize.toNat < 4096
    · cases hp : s.prevCode <;> simp [hf, hd, hp, dictAppend, Config.dictCapacity]
    · have hd' : 4096 ≤ s.dictSize.toNat := not_lt.1 hd
      cases hp : s.prevCode <;> simp [hf, hd', dictAppend, Config.dictCapacity]

/-- All that step 6 can do (R158 to R160). -/
theorem growthStep_cases (s : State) :
    (s.dictSize.toNat = 2 ^ s.codeSize.toNat - 1 ∧ s.codeSize.toNat < 12 ∧
      growthStep s = grow s) ∨
    (s.dictSize.toNat = 2 ^ s.codeSize.toNat - 1 ∧ 12 ≤ s.codeSize.toNat ∧
      growthStep s = epochReset s) ∨
    (s.dictSize.toNat ≠ 2 ^ s.codeSize.toNat - 1 ∧ growthStep s = s) := by
  unfold growthStep growthDue
  simp only [decide_eq_true_eq, Config.maxCodeSize]
  by_cases h1 : s.dictSize.toNat = 2 ^ s.codeSize.toNat - 1
  · by_cases h2 : s.codeSize.toNat < 12
    · simp [← h1, h2]
    · simp [← h1, h2, not_lt.1 h2]
  · simp [h1]

/-- The append's increment does not wrap (R163). -/
theorem dictSize_succ {a : BitVec 13} (h : a.toNat < 4096) : (a + 1).toNat = a.toNat + 1 := by
  have h1 : BitVec.toNat (1 : BitVec 13) = 1 := rfl
  simp only [BitVec.toNat_add, h1]
  omega

/-- `GROW`'s increment does not wrap (R163). -/
theorem codeSize_succ {a : BitVec 4} (h : a.toNat < 12) : (a + 1).toNat = a.toNat + 1 := by
  have h1 : BitVec.toNat (1 : BitVec 4) = 1 := rfl
  simp only [BitVec.toNat_add, h1]
  omega

end Sys2Proof.Machine
end

