-- ==== Sys2Proof/Laws/Iteration.lean ====
section
/-! SUPPORT. All that steps 3 to 6 of an iteration can do (R150), and with them every meaning of a
legal class. -/

namespace Sys2Proof.Machine

/-- The append step after the output step, and what both leave (R155, R156). -/
theorem appendStep_out (first : Byte) (seq : List Byte) (s : State) (h : Appendable s) :
    ∃ u, appendStep first (outPushAll s seq) = .ok (some u) ∧ u.dictSize.toNat = sizeAfterAppend s ∧
      (∃ n a, u = { s with
          out := s.out ++ seq, outTaken := n, accepted := a, dict := u.dict,
          dictSize := u.dictSize } ∧
        (s.sinkReady = false → n = s.outTaken ∧ a = s.accepted) ∧
        (s.sinkReady = true → s.outTaken = s.out.length →
          n = (s.out ++ seq).length ∧ a = s.accepted ++ seq)) ∧
      ((s.firstOfEpoch = true ∧ u.dict = s.dict) ∨
        (s.firstOfEpoch = false ∧ ∃ p, s.prevCode = some p ∧
          u.dict = memWrite s.dict s.dictSize.toNat { sym := first, parent := some p })) := by
  obtain ⟨n, a, ho, hsink⟩ := outPushAll_cases s seq
  rcases appendStep_cases first (outPushAll s seq) with
    ⟨hf, hr⟩ | ⟨hf, hp, -⟩ | ⟨hf, hd, -, -⟩ | ⟨hf, hd, p, hp, hr⟩
  · have hf' : s.firstOfEpoch = true := by simpa [ho] using hf
    refine ⟨_, hr, ?_, ⟨n, a, by simp [ho], hsink⟩, .inl ⟨hf', by simp [ho]⟩⟩
    simp [ho, sizeAfterAppend, hf']
  · have hf' : s.firstOfEpoch = false := by simpa [ho] using hf
    have hp' : s.prevCode = none := by simpa [ho] using hp
    simp [Appendable, hf', hp'] at h
  · have hf' : s.firstOfEpoch = false := by simpa [ho] using hf
    have hd' : 4096 ≤ s.dictSize.toNat := by simpa [ho] using hd
    simp only [Appendable, hf', Bool.false_eq_true, false_or] at h
    omega
  · have hf' : s.firstOfEpoch = false := by simpa [ho] using hf
    have hd' : s.dictSize.toNat < 4096 := by simpa [ho] using hd
    have hp' : s.prevCode = some p := by simpa [ho] using hp
    refine ⟨_, hr, ?_, ⟨n, a, by simp [ho], hsink⟩, .inr ⟨hf', p, hp', by simp [ho]⟩⟩
    simp [ho, sizeAfterAppend, hf']
    omega

/-- Where nothing stops the append, the iteration has exactly its effect (R155 to R160). -/
theorem finishCode_effect (c : Code) {seq : List Byte} {s : State} (hseq : seq ≠ [])
    (h : Appendable s) : ∃ t, finishCode c seq s = .next t ∧ IterationEffect c seq s t := by
  obtain ⟨first, rest, rfl⟩ := List.exists_cons_of_ne_nil hseq
  obtain ⟨u, hu, hd, ⟨n, a, hue, hs0, hs1⟩, hdict⟩ := appendStep_out first (first :: rest) s h
  refine ⟨growthStep (recordStep first c u), by simp [finishCode, hu], ?_⟩
  have hcs : u.codeSize = s.codeSize := by rw [hue]
  have hread : (recordStep first c u).dictSize.toNat = sizeAfterAppend s := by simp [hd]
  have hold : ∀ i, (s.firstOfEpoch = false → i ≠ s.dictSize.toNat) →
      memRead u.dict i = memRead s.dict i := by
    intro i hi
    rcases hdict with ⟨-, h'⟩ | ⟨hf, p, -, h'⟩
    · rw [h']
    · rw [h', memRead_memWrite_ne _ _ (hi hf)]
  have hnew : s.firstOfEpoch = false → ∃ b p, (first :: rest).head? = some b ∧
      s.prevCode = some p ∧
      memRead u.dict s.dictSize.toNat = some { sym := b, parent := some p } := by
    intro hf
    rcases hdict with ⟨hf', -⟩ | ⟨-, p, hp, h'⟩
    · simp [hf] at hf'
    · exact ⟨first, p, rfl, hp, by rw [h', memRead_memWrite_same]⟩
  have hthr : reachesThreshold s ↔
      (recordStep first c u).dictSize.toNat = 2 ^ (recordStep first c u).codeSize.toNat - 1 := by
    rw [hread, recordStep_codeSize, hcs]; rfl
  rcases growthStep_cases (recordStep first c u) with ⟨h1, h2, hg⟩ | ⟨h1, h2, hg⟩ | ⟨h1, hg⟩
  · rw [hg]
    simp only [recordStep_codeSize, hcs] at h2
    constructor
    case widens =>
      intro _ _
      exact ⟨by simp only [grow_codeSize, recordStep_codeSize, hcs, codeSize_succ h2], by simp [hd], rfl⟩
    case resets => intro _ h'; omega
    case stays => intro h'; exact absurd (hthr.2 h1) h'
    case appends => intro hf _; exact hnew hf
    case keepsEntries => intro _ i hi; exact hold i hi
    case sinkTakes => intro x y; rw [hue]; exact hs1 x y
    case sinkHolds => intro x; rw [hue]; exact hs0 x
    all_goals rw [hue]; simp
  · rw [hg]
    simp only [recordStep_codeSize, hcs] at h2
    constructor
    case widens => intro _ h'; omega
    case resets =>
      intro _ _
      exact ⟨rfl, rfl, rfl, fun i => memRead_singletons i⟩
    case stays => intro h'; exact absurd (hthr.2 h1) h'
    case appends => intro _ h'; have := h' (hthr.2 h1); omega
    case keepsEntries => intro h'; have := h' (hthr.2 h1); omega
    case sinkTakes => intro x y; rw [hue]; exact hs1 x y
    case sinkHolds => intro x; rw [hue]; exact hs0 x
    all_goals rw [hue]; simp
  · have hno : ¬ reachesThreshold s := fun h' => h1 (hthr.1 h')
    rw [hg]
    constructor
    case widens => intro h'; exact absurd h' hno
    case resets => intro h'; exact absurd h' hno
    case stays => intro _; exact ⟨by simp [hcs], by simp [hd], rfl⟩
    case appends => intro hf _; exact hnew hf
    case keepsEntries => intro _ i hi; exact hold i hi
    case sinkTakes => intro x y; rw [hue]; exact hs1 x y
    case sinkHolds => intro x; rw [hue]; exact hs0 x
    all_goals rw [hue]; simp

/-- All that steps 3 to 6 can do when they answer: the effect, or the fault of an append past the
capacity (R132, R223). -/
theorem finishCode_cases {c : Code} {seq : List Byte} {s t : State}
    (h : finishCode c seq s = .next t) :
    seq ≠ [] ∧
      ((Appendable s ∧ IterationEffect c seq s t) ∨
        (s.firstOfEpoch = false ∧ s.prevCode.isSome = true ∧ 4096 ≤ s.dictSize.toNat ∧
          t = raiseFault .dictOverflow c (outPushAll s seq))) := by
  cases seq with
  | nil => simp [finishCode] at h
  | cons first rest =>
    refine ⟨by simp, ?_⟩
    by_cases ha : Appendable s
    · obtain ⟨t', ht', he⟩ := finishCode_effect c (List.cons_ne_nil first rest) ha
      rw [ht'] at h
      cases h
      exact .inl ⟨ha, he⟩
    · right
      obtain ⟨n, a, ho, -⟩ := outPushAll_cases s (first :: rest)
      simp only [Appendable, not_or, Bool.not_eq_true, not_and, not_lt] at ha
      obtain ⟨hf, hd⟩ := ha
      simp only [finishCode] at h
      rcases appendStep_cases first (outPushAll s (first :: rest)) with
        ⟨hf', -⟩ | ⟨-, -, hr⟩ | ⟨-, hd', hp, hr⟩ | ⟨-, hd', p, hp, -⟩
      · simp [ho, hf] at hf'
      · simp [hr] at h
      · have hp' : s.prevCode ≠ none := by simpa [ho] using hp
        have hd'' : 4096 ≤ s.dictSize.toNat := by simpa [ho] using hd'
        simp only [hr, Host.Outcome.next.injEq] at h
        exact ⟨hf, Option.isSome_iff_ne_none.2 hp', hd'', h.symm⟩
      · have hp' : s.prevCode = some p := by simpa [ho] using hp
        have := hd (by simp [hp'])
        simp [ho] at hd'
        omega

/-- The dictionary keeps its canonical form through an iteration. -/
theorem finishCode_wf {c : Code} {seq : List Byte} {s t : State}
    (h : finishCode c seq s = .next t) (hs : s.dict.wf = true) : t.dict.wf = true := by
  cases seq with
  | nil => simp [finishCode] at h
  | cons first rest =>
    obtain ⟨n, a, ho, -⟩ := outPushAll_cases s (first :: rest)
    have growth_wf : ∀ u : State, u.dict.wf = true → (growthStep (recordStep first c u)).dict.wf = true := by
      intro u hu
      rcases growthStep_cases (recordStep first c u) with ⟨-, -, hg⟩ | ⟨-, -, hg⟩ | ⟨-, hg⟩ <;> rw [hg]
      · simpa using hu
      · exact singletons_wf
      · simpa using hu
    simp only [finishCode] at h
    rcases appendStep_cases first (outPushAll s (first :: rest)) with
      ⟨-, hr⟩ | ⟨-, -, hr⟩ | ⟨-, -, -, hr⟩ | ⟨-, hd, p, -, hr⟩ <;> simp only [hr] at h
    · cases h
      exact growth_wf _ (by simpa [ho] using hs)
    · cases h
    · cases h
      simpa [ho] using hs
    · cases h
      exact growth_wf _ (memWrite_wf _ hd (by simpa [ho] using hs))

/-! The meanings: each legal class runs its sequence, each illegal class takes its fault. -/

theorem runSequence_ok (c : Code) (w : List Byte) (s : State) :
    runSequence c (.ok w) s = finishCode c w s := rfl

theorem runSequence_cases {c : Code} {seq : Except Fault (List Byte)} {s t : State}
    (h : runSequence c seq s = .next t) : ∃ w, seq = .ok w ∧ finishCode c w s = .next t := by
  cases seq with
  | error f => simp [runSequence] at h
  | ok w => exact ⟨w, rfl, h⟩

/-- The sequence operand of an instruction of a legal class (R151, R152). -/
def operandSequence (i : Instr) (s : State) : Except Fault (List Byte) :=
  match i.codeClass with
  | .known => seqKnown i.code s
  | .kwkwk | .noprev | .invalid => seqKwkwk s

/-- Every meaning, by class. -/
theorem exec_eq (i : Instr) (s : State) :
    exec i s =
      match i.codeClass with
      | .known => runSequence i.code (seqKnown i.code s) s
      | .kwkwk => runSequence i.code (seqKwkwk s) s
      | .noprev => .next (raiseFault .noPrevious i.code s)
      | .invalid => .next (raiseFault .invalidCode i.code s) := by
  cases i <;> rfl

end Sys2Proof.Machine
end

