-- ==== Sys2Proof/Laws/PerInstr.lean ====
section
/-! SUPPORT. What holds of every instruction as syntax, one lemma for each constructor. -/

namespace Sys2Proof.Laws.Encoding

/-- The encoding of an instruction has the width of its format (R81), and read back as a number it
is the operand (R82). -/
def Statement (i : Instr) : Prop :=
  (encode i).length = i.format.bits ∧ natOfBits (encode i) = i.code.toNat

theorem of_code_lt (i : Instr) : Statement i :=
  ⟨length_bitsOfNat _ _, by
    rw [encode, natOfBits_bitsOfNat, Nat.mod_eq_of_lt (code_lt i)]⟩

theorem knownC9 (c : BitVec 9) : Statement (.knownC9 c) := of_code_lt _

theorem kwkwkC9 (c : BitVec 9) : Statement (.kwkwkC9 c) := of_code_lt _

theorem noprevC9 (c : BitVec 9) : Statement (.noprevC9 c) := of_code_lt _

theorem invalidC9 (c : BitVec 9) : Statement (.invalidC9 c) := of_code_lt _

theorem knownC10 (c : BitVec 10) : Statement (.knownC10 c) := of_code_lt _

theorem kwkwkC10 (c : BitVec 10) : Statement (.kwkwkC10 c) := of_code_lt _

theorem invalidC10 (c : BitVec 10) : Statement (.invalidC10 c) := of_code_lt _

theorem knownC11 (c : BitVec 11) : Statement (.knownC11 c) := of_code_lt _

theorem kwkwkC11 (c : BitVec 11) : Statement (.kwkwkC11 c) := of_code_lt _

theorem invalidC11 (c : BitVec 11) : Statement (.invalidC11 c) := of_code_lt _

theorem knownC12 (c : BitVec 12) : Statement (.knownC12 c) := of_code_lt _

theorem kwkwkC12 (c : BitVec 12) : Statement (.kwkwkC12 c) := of_code_lt _

theorem invalidC12 (c : BitVec 12) : Statement (.invalidC12 c) := of_code_lt _

end Sys2Proof.Laws.Encoding
end

