-- ==== Sys2Proof/Laws/Reader.lean ====
section
/-! SUPPORT. One lemma for each operation of the Bitstream Reader (R110 to R114). -/

namespace Sys2Proof.Machine

/-- The bits that the reader holds: consumed and not yet delivered. -/
def heldBits (s : State) : List Bool := ((bitString s.inBytes).take (8 * s.inPos)).drop (bitPos s)

theorem length_heldBits {s : State} (h : ReaderOk s) : (heldBits s).length = s.nbits.toNat := by
  have h1 := h.cursor
  have h2 := h.held
  simp only [heldBits, bitPos, List.length_drop, List.length_take, length_bitString]
  omega

theorem acc_eq_heldBits {s : State} (h : ReaderOk s) : s.acc.toNat = natOfBits (heldBits s) := h.bits

theorem acc_lt {s : State} (h : ReaderOk s) : s.acc.toNat < 2 ^ s.nbits.toNat := by
  rw [acc_eq_heldBits h, ← length_heldBits h]
  exact natOfBits_lt _

/-- What `InAvail` answers (R195). -/
theorem inAvail_byte {s : State} {b : Byte} : inAvail s = .byte b ↔ s.inBytes[s.inPos]? = some b := by
  unfold inAvail
  cases s.inBytes[s.inPos]? with
  | some c => simp
  | none => cases s.inEnd <;> simp

theorem inAvail_ended {s : State} :
    inAvail s = .ended ↔ s.inBytes.length ≤ s.inPos ∧ s.inEnd = true := by
  unfold inAvail
  rw [← List.getElem?_eq_none_iff]
  cases s.inBytes[s.inPos]? with
  | some c => simp
  | none => cases s.inEnd <;> simp

theorem inAvail_wait {s : State} :
    inAvail s = .wait ↔ s.inBytes.length ≤ s.inPos ∧ s.inEnd = false := by
  unfold inAvail
  rw [← List.getElem?_eq_none_iff]
  cases s.inBytes[s.inPos]? with
  | some c => simp
  | none => cases s.inEnd <;> simp

/-- Where the cursor holds a value, `InAvail` answers the first byte not taken (R195). -/
theorem inAvail_untaken {s : State} (h : s.phase ≠ .idle) :
    inAvail s = match untaken s with
      | b :: _ => .byte b
      | [] => if s.inEnd then .ended else .wait := by
  rw [untaken_of_ne_idle h, inAvail, ← List.head?_drop]
  cases s.inBytes.drop s.inPos <;> rfl

/-- `REFILL` adds eight to the count (R111, R163). -/
theorem refill_nbits_toNat {s : State} (b : Byte) (h : s.nbits.toNat < 16) :
    (refill b s).nbits.toNat = s.nbits.toNat + 8 := by
  have h8 : BitVec.toNat (8 : BitVec 5) = 8 := rfl
  simp only [refill_nbits, BitVec.toNat_add, h8]
  omega

/-- `REFILL` puts the byte below the bits held (R111). -/
theorem refill_acc_toNat {s : State} (b : Byte) (h : s.acc.toNat < 2 ^ 11) :
    (refill b s).acc.toNat = s.acc.toNat * 256 + b.toNat := by
  have hb : b.toNat < 256 := b.isLt
  simp only [refill_acc, BitVec.toNat_or, BitVec.toNat_shiftLeft, BitVec.toNat_setWidth]
  rw [Nat.mod_eq_of_lt (a := s.acc.toNat <<< 8) (by rw [Nat.shiftLeft_eq]; omega),
    Nat.mod_eq_of_lt (by omega), ← Nat.shiftLeft_add_eq_or_of_lt (by omega), Nat.shiftLeft_eq]

/-- A refill keeps the reader's invariant and the position in the stream. -/
theorem refill_readerOk {s : State} {b : Byte} (h : ReaderOk s) (hn : s.nbits.toNat ≤ 11)
    (hb : s.inBytes[s.inPos]? = some b) :
    ReaderOk (refill b s) ∧ bitPos (refill b s) = bitPos s ∧
      (refill b s).nbits.toNat = s.nbits.toNat + 8 := by
  obtain ⟨hlt, hb⟩ := List.getElem?_eq_some_iff.1 hb
  have hnb : (refill b s).nbits.toNat = s.nbits.toNat + 8 := refill_nbits_toNat b (by omega)
  have hpos : bitPos (refill b s) = bitPos s := by
    have := h.held
    simp only [bitPos, refill_inPos, hnb]
    omega
  refine ⟨⟨?_, ?_, ?_⟩, hpos, hnb⟩
  · simp only [refill_inPos, refill_inBytes]; omega
  · have := h.held
    simp only [refill_inPos, hnb]; omega
  · rw [hpos, refill_acc_toNat b ((acc_lt h).trans_le (Nat.pow_le_pow_right (by omega) hn)),
      acc_eq_heldBits h]
    have htake : (bitString s.inBytes).take (8 * (s.inPos + 1)) =
        (bitString s.inBytes).take (8 * s.inPos) ++ bitsOfNat 8 b.toNat := by
      rw [← bitString_take, ← bitString_take, List.take_succ_eq_append_getElem hlt, hb,
        bitString_append]
      simp [bitString]
    simp only [refill_inBytes, refill_inPos]
    rw [htake, List.drop_append_of_le_length, natOfBits_append, natOfBits_bitsOfNat,
      length_bitsOfNat, Nat.mod_eq_of_lt b.isLt]
    · rfl
    · have := h.cursor
      simp only [bitPos, List.length_take, length_bitString]; omega

/-- `EXTRACT` lowers the count by the width (R112, R163). -/
theorem extractRest_nbits_toNat (s : State) :
    (extractRest s).nbits.toNat = s.nbits.toNat - s.codeSize.toNat := by
  have := s.nbits.isLt
  rw [extractRest_nbits, BitVec.toNat_ofNat]
  omega

theorem extractRest_acc_toNat (s : State) :
    (extractRest s).acc.toNat = s.acc.toNat % 2 ^ (s.nbits.toNat - s.codeSize.toNat) := by
  have := s.acc.isLt
  rw [extractRest_acc, BitVec.toNat_ofNat, Nat.mod_eq_of_lt]
  exact (Nat.mod_le _ _).trans_lt this

theorem extractCode_toNat {s : State} (h : s.codeSize.toNat ≤ 12) :
    (extractCode s).toNat =
      (s.acc.toNat >>> (s.nbits.toNat - s.codeSize.toNat)) % 2 ^ s.codeSize.toNat := by
  rw [extractCode, BitVec.toNat_ofNat, Nat.mod_eq_of_lt]
  exact (Nat.mod_lt _ (by positivity)).trans_le (Nat.pow_le_pow_right (by omega) h)

/-- `EXTRACT` delivers the next bits of the stream, keeps the reader's invariant and moves the
position on by the width (R112, R30). -/
theorem extract_readerOk {s : State} (h : ReaderOk s) (hc : s.codeSize.toNat ≤ s.nbits.toNat) :
    extractCode s = BitVec.ofNat 12
        (natOfBits (((bitString s.inBytes).drop (bitPos s)).take s.codeSize.toNat)) ∧
      ReaderOk (extractRest s) ∧ bitPos (extractRest s) = bitPos s + s.codeSize.toNat := by
  have hn := extractRest_nbits_toNat s
  have hpos : bitPos (extractRest s) = bitPos s + s.codeSize.toNat := by
    have := h.held
    simp only [bitPos, extractRest_inPos, hn]
    omega
  refine ⟨?_, ⟨h.cursor, ?_, ?_⟩, hpos⟩
  · have hheld : ((bitString s.inBytes).drop (bitPos s)).take s.codeSize.toNat =
        (heldBits s).take s.codeSize.toNat := by
      have := h.held
      rw [heldBits, List.drop_take, List.take_take]
      congr 1
      simp only [bitPos]
      omega
    rw [hheld, natOfBits_take, length_heldBits h, ← acc_eq_heldBits h, extractCode,
      Nat.shiftRight_eq_div_pow, Nat.mod_eq_of_lt]
    rw [Nat.div_lt_iff_lt_mul (by positivity), ← pow_add]
    have := acc_lt h
    rwa [Nat.add_sub_cancel' hc]
  · have := h.held
    rw [hn, extractRest_inPos]
    omega
  · rw [hpos, extractRest_acc_toNat, extractRest_inBytes, extractRest_inPos, acc_eq_heldBits h,
      ← List.drop_drop]
    show _ = natOfBits ((heldBits s).drop s.codeSize.toNat)
    rw [natOfBits_drop, length_heldBits h]

/-- `ReadCode` writes the reader's three registers alone (R41, R114). -/
theorem readLoop_frame (n : Nat) (s t : State) :
    ((∃ c, readLoop n s = .code c t) ∨ readLoop n s = .ended t ∨ readLoop n s = .hold t) →
      t = { s with acc := t.acc, nbits := t.nbits, inPos := t.inPos } := by
  induction n generalizing s with
  | zero => rintro (⟨c, h⟩ | h | h) <;> (simp only [readLoop] at h; cases h; all_goals rfl)
  | succ n ih =>
    simp only [readLoop]
    split_ifs with hlt
    · cases ha : inAvail s with
      | byte b => exact fun h => ih (refill b s) h
      | ended => rintro (⟨c, h⟩ | h | h) <;> (cases h; all_goals rfl)
      | wait => rintro (⟨c, h⟩ | h | h) <;> (cases h; all_goals rfl)
    · rintro (⟨c, h⟩ | h | h) <;> (cases h; all_goals rfl)

end Sys2Proof.Machine
end

