-- ==== Sys2Proof/Laws/Start.lean ====
section
/-! SUPPORT. The state that `START` leaves meets the invariants (R39, R40, R192), and so does every
state of an epoch of the literal 0, in which the model places a code (log entry 12). -/

namespace Sys2Proof.Machine

theorem startRun_readerOk (s : State) : ReaderOk (startRun s) where
  cursor := Nat.zero_le _
  held := Nat.zero_le _
  bits := by simp

theorem baseline_dictOk {s : State} (hd : s.dict = singletons) (hn : s.dictSize = 256) : DictOk s where
  singleton b hb := by rw [hd, memRead_singletons, if_pos hb]
  dynamic i h1 h2 := by
    rw [hn] at h2
    have : i < 256 := h2
    omega
  dead i hi := by
    rw [hn] at hi
    have : 256 ≤ i := hi
    rw [hd, memRead_singletons, if_neg (by omega)]

theorem startRun_runOk (s : State) : RunOk (startRun s) where
  format := ⟨.c9, rfl, rfl⟩
  dict := baseline_dictOk rfl rfl
  previous := fun h => by simp at h

theorem startRun_machineOk (s : State) : MachineOk (startRun s) where
  memory := singletons_wf
  causeSet := by simp
  faultCodeSet := by simp
  taken := Nat.zero_le _
  endTaken := fun h => by simp at h
  noneRaised := rfl
  sink := ⟨s.accepted, by simp⟩
  reader _ := ⟨startRun_readerOk s, show (0 : Nat) < 9 by decide⟩
  run _ := startRun_runOk s

theorem started_eq (input : List Byte) :
    started input = startRun { State.reset with inBytes := input, inEnd := true } := rfl

theorem started_machineOk (input : List Byte) : MachineOk (started input) := startRun_machineOk _

/-! ### An epoch of the literal 0 -/

/-- The engine in an epoch that has read the literal 0 until `n` entries are live. -/
def zeroEpoch (f : Format) (n : Nat) (s : State) : State :=
  { startRun s with
    codeSize := BitVec.ofNat 4 f.bits
    dictSize := BitVec.ofNat 13 n
    dict := singletons ++ fillerEntries n
    firstOfEpoch := false
    prevCode := some 0
    prevFirst := some 0 }

theorem formatStart_eq (f : Format) (hf : f ≠ .c9) (s : State) :
    formatStart f s = zeroEpoch f f.minDictSize s := by
  cases f <;> first | rfl | exact absurd rfl hf

theorem memRead_append (m m' : Memory) (i : Nat) :
    memRead (m ++ m') i = (memRead m i).or (memRead m' i) := by
  induction m with
  | nil => simp
  | cons c m ih =>
    rw [List.cons_append, memRead_cons, memRead_cons, ih]
    split_ifs <;> simp

theorem memRead_fillerEntries (n i : Nat) :
    memRead (fillerEntries n) i =
      if 256 ≤ i ∧ i < n then some { sym := 0, parent := some 0 } else none := by
  have h : ∀ k j : Nat, memRead ((List.range' j k).map fun k =>
      (256 + k, ({ sym := 0, parent := some 0 } : Entry))) i =
      if 256 + j ≤ i ∧ i < 256 + j + k then some { sym := 0, parent := some 0 } else none := by
    intro k
    induction k with
    | zero => intro j; simp
    | succ k ih =>
      intro j
      rw [List.range'_succ, List.map_cons, memRead_cons, ih]
      by_cases hi : i = 256 + j
      · simp [hi]
      · simp only [hi, if_false]
        congr 1
        simp only [eq_iff_iff]
        omega
  have := h (n - 256) 0
  rw [← List.range_eq_range'] at this
  have e : (256 + 0 ≤ i ∧ i < 256 + 0 + (n - 256)) ↔ (256 ≤ i ∧ i < n) := by omega
  rw [fillerEntries, this]
  simp only [e]

/-- What the dictionary holds in an epoch of the literal 0. -/
theorem memRead_zeroEpoch (f : Format) (n : Nat) (s : State) (i : Nat) :
    memRead (zeroEpoch f n s).dict i =
      if i < 256 then some { sym := BitVec.ofNat 8 i, parent := none }
      else if i < n then some { sym := 0, parent := some 0 } else none := by
  show memRead (singletons ++ fillerEntries n) i = _
  rw [memRead_append, memRead_singletons, memRead_fillerEntries]
  by_cases h : i < 256
  · simp [h]
  · simp only [h, if_false, Option.none_or]
    congr 1
    simp only [eq_iff_iff]
    omega

theorem zeroEpoch_dictSize {f : Format} {n : Nat} (h : n ≤ 4096) (s : State) :
    (zeroEpoch f n s).dictSize.toNat = n := by
  show (BitVec.ofNat 13 n).toNat = n
  rw [BitVec.toNat_ofNat]
  omega

theorem zeroEpoch_codeSize (f : Format) (n : Nat) (s : State) :
    (zeroEpoch f n s).codeSize.toNat = f.bits := by
  cases f <;> rfl

theorem zeroEpoch_reconstruct {f : Format} {n : Nat} (h1 : 1 ≤ n) (h2 : n ≤ 4096) (s : State) :
    reconstruct (zeroEpoch f n s) 0 = .ok [0] := by
  refine reconstruct_ok.2 (chainWalk_root (e := { sym := 0, parent := none }) 4095
    (dictRead_ok.2 ⟨?_, ?_⟩) rfl)
  · rw [zeroEpoch_dictSize h2]; omega
  · rw [memRead_zeroEpoch, if_pos (by omega)]; rfl

/-- Every state of an epoch of the literal 0 is one of a run. -/
theorem zeroEpoch_runOk {f : Format} {n : Nat} (h1 : f.minDictSize ≤ n) (h2 : n ≤ f.maxDictSize)
    (s : State) : RunOk (zeroEpoch f n s) := by
  obtain ⟨g1, g2, -⟩ := format_facts f
  have hn := zeroEpoch_dictSize (f := f) (n := n) (by omega) s
  refine ⟨⟨f, ?_, ?_⟩, ⟨?_, ?_, ?_⟩, ?_⟩
  · rw [zeroEpoch_codeSize, formatOf_format_bits]
  · exact (legal_iff _).2 ⟨by simpa [selectorOf, hn] using h1, by simpa [selectorOf, hn] using h2,
      fun h => by simp [selectorOf, zeroEpoch] at h⟩
  · intro b hb
    rw [memRead_zeroEpoch, if_pos hb]
  · intro i hi hlt
    rw [hn] at hlt
    exact ⟨_, 0, by rw [memRead_zeroEpoch, if_neg (by omega), if_pos hlt], rfl,
      by show 0 < i; omega⟩
  · intro i hi
    rw [hn] at hi
    rw [memRead_zeroEpoch, if_neg (by omega), if_neg (by omega)]
  · intro _
    exact ⟨0, 0, [], rfl, rfl, by rw [hn]; show 0 < n; omega,
      zeroEpoch_reconstruct (by omega) (by omega) s⟩

/-- The canonical form of the dictionary in an epoch of the literal 0. -/
theorem zeroEpoch_wf {f : Format} {n : Nat} (h : n ≤ 4096) (s : State) :
    (zeroEpoch f n s).dict.wf = true := by
  rw [memory_wf_iff]
  obtain ⟨hp, hb⟩ := (memory_wf_iff _).1 singletons_wf
  have hs : ∀ c ∈ singletons, c.1 < 256 := by
    intro c hc
    obtain ⟨b, hb, rfl⟩ := List.mem_map.1 hc
    simpa [Config.nSingletons] using hb
  have hf : ∀ c ∈ fillerEntries n, 256 ≤ c.1 ∧ c.1 < n := by
    intro c hc
    obtain ⟨b, hb, rfl⟩ := List.mem_map.1 hc
    have : b < n - 256 := by simpa using hb
    exact ⟨by show 256 ≤ 256 + b; omega, by show 256 + b < n; omega⟩
  refine ⟨List.pairwise_append.2 ⟨hp, ?_, fun a ha b hb => ?_⟩, fun c hc => ?_⟩
  · exact List.pairwise_map.2 (List.pairwise_lt_range.imp fun h => Nat.add_lt_add_left h 256)
  · have := hs a ha
    have := (hf b hb).1
    omega
  · rcases List.mem_append.1 hc with h' | h'
    · exact hb c h'
    · have := (hf c h').2
      show c.1 < 4096
      omega

/-- Every state of an epoch of the literal 0 meets the invariant of the machine. -/
theorem zeroEpoch_machineOk {f : Format} {n : Nat} (h1 : f.minDictSize ≤ n)
    (h2 : n ≤ f.maxDictSize) (s : State) : MachineOk (zeroEpoch f n s) where
  memory := zeroEpoch_wf (by have := format_facts f; omega) s
  causeSet := by simp [zeroEpoch]
  faultCodeSet := by simp [zeroEpoch]
  taken := Nat.zero_le _
  endTaken := fun h => by simp [zeroEpoch] at h
  noneRaised := rfl
  sink := ⟨s.accepted, by simp [zeroEpoch]⟩
  reader _ := ⟨⟨Nat.zero_le _, Nat.zero_le _, by simp [zeroEpoch]⟩, by
    rw [zeroEpoch_codeSize]
    have := format_facts f
    show 0 < f.bits
    omega⟩
  run _ := zeroEpoch_runOk h1 h2 s

end Sys2Proof.Machine
end

