-- ==== Sys2Proof/Laws/Step.lean ====
section
/-! SUPPORT. What a meaning, an engine turn and a step can do, once each (R150, R190). -/

namespace Sys2Proof.Machine

/-! ### The meanings -/

/-- A legal class runs steps 3 to 6 with its sequence (R151, R152). -/
theorem exec_of_operand {i : Instr} {s : State} {seq : List Byte}
    (hc : i.codeClass = .known ∨ i.codeClass = .kwkwk) (h : operandSequence i s = .ok seq) :
    exec i s = finishCode i.code seq s := by
  rw [exec_eq]
  unfold operandSequence at h
  rcases hc with hc | hc <;> simp only [hc] at h ⊢ <;> rw [h] <;> rfl

/-- Where a legal class answers a next state, its sequence was found (R151, R152). -/
theorem operand_of_exec {i : Instr} {s t : State}
    (hc : i.codeClass = .known ∨ i.codeClass = .kwkwk) (h : exec i s = .next t) :
    ∃ seq, operandSequence i s = .ok seq ∧ finishCode i.code seq s = .next t := by
  rw [exec_eq] at h
  unfold operandSequence
  rcases hc with hc | hc <;> simp only [hc] at h ⊢ <;> exact runSequence_cases h

/-- An illegal class raises one of its two faults (R153, R154). -/
theorem exec_of_illegal {i : Instr} {s : State}
    (h : ¬ (i.codeClass = .known ∨ i.codeClass = .kwkwk)) :
    ∃ k, (k = .invalidCode ∨ k = .noPrevious) ∧ exec i s = .next (raiseFault k i.code s) := by
  rw [exec_eq]
  cases hc : i.codeClass
  · simp [hc] at h
  · simp [hc] at h
  · exact ⟨_, .inr rfl, rfl⟩
  · exact ⟨_, .inl rfl, rfl⟩

/-! ### Sequences under a growing dictionary -/

/-- A chain walk sees the live entries only (R53, R142). -/
theorem chainWalk_extend {s t : State} (hd : s.dictSize.toNat ≤ t.dictSize.toNat)
    (hr : ∀ i, i < s.dictSize.toNat → memRead t.dict i = memRead s.dict i) {n i : Nat}
    {w : List Byte} (h : chainWalk s n i = .ok w) : chainWalk t n i = .ok w := by
  have read : ∀ {j : Nat} {e : Entry}, dictRead s j = .ok e → dictRead t j = .ok e := by
    intro j e he
    obtain ⟨h1, h2⟩ := dictRead_ok.1 he
    exact dictRead_ok.2 ⟨by omega, by rw [hr j h1, h2]⟩
  induction n generalizing i w with
  | zero => simp [chainWalk] at h
  | succ n ih =>
    obtain ⟨m, e, hm, he, hc⟩ := chainWalk_cases h
    obtain rfl : n = m := by omega
    rcases hc with ⟨hp, rfl⟩ | ⟨p, v, hp, hv, rfl⟩
    · exact chainWalk_root n (read he) hp
    · exact chainWalk_link (read he) hp (ih hv)

/-- A sequence is the same in every state that keeps the live entries (R142). -/
theorem reconstruct_extend {s t : State} (hd : s.dictSize.toNat ≤ t.dictSize.toNat)
    (hr : ∀ i, i < s.dictSize.toNat → memRead t.dict i = memRead s.dict i) {i : Nat}
    {w : List Byte} (h : reconstruct s i = .ok w) : reconstruct t i = .ok w := by
  rw [reconstruct_ok] at *
  exact chainWalk_extend hd hr h

/-! ### The output stream -/

/-- A step of the sink touches its own count and history only (R199). -/
theorem sinkTake_frame (s : State) :
    ∃ n a, sinkTake s = { s with outTaken := n, accepted := a } ∧ s.accepted <+: a := by
  rcases sinkTake_cases s with ⟨b, -, e⟩ | ⟨-, e⟩
  · exact ⟨_, _, e, List.prefix_append _ _⟩
  · exact ⟨s.outTaken, s.accepted, e, List.prefix_refl _⟩

/-! ### The turns -/

/-- `ReadCode` touches the reader alone (R41, R114). -/
theorem readCode_frame {s t : State}
    (h : (∃ c, readCode s = .code c t) ∨ readCode s = .ended t ∨ readCode s = .hold t) :
    t = { s with acc := t.acc, nbits := t.nbits, inPos := t.inPos } :=
  readLoop_frame 2 s t h

/-- One iteration where the reader holds (R150). -/
theorem decodeStep_hold {s t : State} {f : Format} (hf : formatOf s.codeSize.toNat = some f)
    (hr : readCode s = .hold t) : decodeStep s = .next t := by
  simp [decodeStep, hf, hr]

/-- One iteration at the end of the input (R150, R161). -/
theorem decodeStep_ended {s t : State} {f : Format} (hf : formatOf s.codeSize.toNat = some f)
    (hr : readCode s = .ended t) : decodeStep s = .next { t with phase := .done, inEnd := false } := by
  simp [decodeStep, hf, hr, endOfRun, endSpent]

/-- One iteration with a code (R150). -/
theorem decodeStep_code {s t : State} {f : Format} {c : Code} {i : Instr}
    (hf : formatOf s.codeSize.toNat = some f) (hr : readCode s = .code c t)
    (hd : decodeCode (selectorOf f t) c = .ok i) : decodeStep s = exec i t := by
  simp [decodeStep, hf, hr, runCode, hd]

/-- The engine's turn while a byte is pending (R199). -/
theorem engineTurn_pending {s : State} (h : outPending s = true) :
    engineTurn s = .next (if s.sinkReady then sinkTake s else s) := by
  simp [engineTurn, h]

/-- The engine's turn in a run with no byte pending and no fault waiting (R150). -/
theorem engineTurn_run {s : State} (hp : s.phase = .run) (h : outPending s = false)
    (hr : s.raised = none) : engineTurn s = decodeStep s := by
  simp [engineTurn, hp, h, hr]

/-- The engine's turn where a fault has waited for the sink (R226). -/
theorem engineTurn_raised {s : State} {k : Cause} {c : Code} (hp : s.phase = .run)
    (h : outPending s = false) (hr : s.raised = some (k, c)) :
    engineTurn s = .next (takeFault k c s) := by
  simp [engineTurn, hp, h, hr]

/-- The engine's turn outside a run with no byte pending (R194). -/
theorem engineTurn_rest {s : State} (hp : s.phase ≠ .run) (h : outPending s = false) :
    engineTurn s = .next s := by
  cases hq : s.phase <;> simp_all [engineTurn]

/-- With no move scheduled the step is the engine's turn. -/
theorem step_of_moves_nil {s : State} (h : s.moves = []) : step s = engineTurn s := by
  simp [step, nextTurn, h]

/-- With a move scheduled the step is that move's turn. -/
theorem step_of_moves_cons {s : State} {m : Move} {ms : List Move} (h : s.moves = m :: ms) :
    step s = moveTurn m { s with moves := ms } := by
  simp [step, nextTurn, h]

/-- A run of one more step ends with that step. -/
theorem runSteps_succ {n : Nat} {s t u : State} (h : runSteps n s = .next t)
    (hs : step t = .next u) : runSteps (n + 1) s = .next u := by
  induction n generalizing s with
  | zero =>
    cases h
    simp [runSteps, hs]
  | succ n ih =>
    simp only [runSteps] at h
    cases hq : step s with
    | next v =>
      rw [hq] at h
      have := ih h
      simpa only [runSteps, hq] using this
    | fault f => rw [hq] at h; cases h
    | refused r => rw [hq] at h; cases h

end Sys2Proof.Machine
end

