-- ==== Sys2Proof/Laws/ZeroRun.lean ====
section
/-! SUPPORT. The run over a long input of zero bits, the literal 0 over and over: it reaches every
point of a whole epoch, so the statements about the width schedule (R91) are not empty. -/

namespace Sys2Proof.Machine

/-- An input longer than a whole epoch (R92), all zero bits. -/
def zeros : List Byte := List.replicate 6000 0

/-- Where the run over `zeros` is after `k` codes of the first epoch. -/
structure AtZero (k : Nat) (s : State) : Prop where
  phase : s.phase = .run
  moves : s.moves = []
  sink : s.sinkReady = true
  taken : s.outTaken = s.out.length
  noneRaised : s.raised = none
  acc : s.acc = 0
  input : s.inBytes = zeros
  few : s.nbits.toNat ≤ 7
  position : ∃ p, p ≤ 12 * k ∧ 8 * s.inPos = p + s.nbits.toNat
  width : s.codeSize.toNat = (scheduleFormat (k + 1)).bits
  size : s.dictSize.toNat = if k = 0 then 256 else 255 + k
  first : s.firstOfEpoch = decide (k = 0)
  previous : k ≠ 0 → s.prevCode.isSome = true
  root : memRead s.dict 0 = some { sym := 0, parent := none }

theorem atZero_started : AtZero 0 (started zeros) where
  phase := rfl
  moves := rfl
  sink := rfl
  taken := rfl
  noneRaised := rfl
  acc := rfl
  input := rfl
  few := Nat.zero_le _
  position := ⟨0, Nat.le_refl _, rfl⟩
  width := rfl
  size := rfl
  first := rfl
  previous := fun h => absurd rfl h
  root := memRead_singletons 0

/-- A refill with a zero byte. -/
theorem refill_zero {s : State} (h : s.acc = 0) (hn : s.nbits.toNat < 16) :
    (refill 0 s).acc = 0 ∧ (refill 0 s).nbits.toNat = s.nbits.toNat + 8 := by
  refine ⟨?_, refill_nbits_toNat 0 hn⟩
  simp [refill, h]

theorem extract_zero {s : State} (h : s.acc = 0) :
    extractCode s = 0 ∧ (extractRest s).acc = 0 := by
  constructor <;> simp [extractCode, extractRest, h]

/-- A delivered code from zero bits. -/
theorem extract_zero_spec {s : State} (n : Nat) (h : s.acc = 0)
    (hc : s.codeSize.toNat ≤ s.nbits.toNat) :
    readLoop n s = .code 0 (extractRest s) ∧ (extractRest s).acc = 0 ∧
      (extractRest s).nbits.toNat + s.codeSize.toNat = s.nbits.toNat := by
  obtain ⟨h1, h2⟩ := extract_zero h
  refine ⟨?_, h2, ?_⟩
  · cases n with
    | zero => simp [readLoop, h1]
    | succ n => simp [readLoop, h1, Nat.not_lt.2 hc]
  · rw [extractRest_nbits_toNat]; omega

/-- One turn of the reader's loop over zero bits. -/
theorem readLoop_zero {s : State} (n : Nat) (hn : s.nbits.toNat < s.codeSize.toNat)
    (hin : s.inBytes = zeros) (hp : s.inPos < 6000) :
    readLoop (n + 1) s = readLoop n (refill 0 s) := by
  have : inAvail s = .byte 0 := by
    rw [inAvail_byte, hin, zeros, List.getElem?_replicate, if_pos hp]
  simp [readLoop, hn, this]

/-- Reading a code from zero bits. -/
theorem readCode_zero {s : State} (h : s.acc = 0) (hn : s.nbits.toNat ≤ 7)
    (h9 : 9 ≤ s.codeSize.toNat) (h12 : s.codeSize.toNat ≤ 12) (hin : s.inBytes = zeros)
    (hp : s.inPos + 2 ≤ 6000) :
    ∃ t, readCode s = .code 0 t ∧ t.acc = 0 ∧ t.nbits.toNat ≤ 7 ∧
      8 * t.inPos + s.nbits.toNat = 8 * s.inPos + s.codeSize.toNat + t.nbits.toNat := by
  obtain ⟨r1, r2⟩ := refill_zero h (by omega)
  have e1 : readCode s = readLoop 1 (refill 0 s) := readLoop_zero 1 (by omega) hin (by omega)
  have c1 : (refill 0 s).codeSize = s.codeSize := rfl
  have p1 : (refill 0 s).inPos = s.inPos + 1 := rfl
  by_cases hc : s.codeSize.toNat ≤ s.nbits.toNat + 8
  · obtain ⟨x1, x2, x3⟩ := extract_zero_spec 1 r1 (by rw [c1, r2]; exact hc)
    refine ⟨_, e1.trans x1, x2, ?_, ?_⟩
    · rw [c1, r2] at x3; omega
    · rw [c1, r2] at x3
      show 8 * (s.inPos + 1) + _ = _
      omega
  · have e2 : readLoop 1 (refill 0 s) = readLoop 0 (refill 0 (refill 0 s)) :=
      readLoop_zero 0 (by rw [c1, r2]; omega) hin (by rw [p1]; omega)
    obtain ⟨q1, q2⟩ := refill_zero r1 (by rw [r2]; omega)
    rw [r2] at q2
    have c2 : (refill 0 (refill 0 s)).codeSize = s.codeSize := rfl
    obtain ⟨x1, x2, x3⟩ := extract_zero_spec 0 q1 (by rw [c2, q2]; omega)
    rw [c2, q2] at x3
    refine ⟨_, e1.trans (e2.trans x1), x2, by omega, ?_⟩
    show 8 * (s.inPos + 1 + 1) + _ = _
    omega

/-- One iteration over zero bits: the literal 0, with the whole effect of an iteration. -/
theorem step_zero {k : Nat} {s : State} (h : AtZero k s) (hk : k < 3840) :
    ∃ t u, step s = .next u ∧ IterationEffect 0 [0] t u ∧
      t = { s with acc := t.acc, nbits := t.nbits, inPos := t.inPos } ∧ t.acc = 0 ∧
      t.nbits.toNat ≤ 7 ∧
      8 * t.inPos + s.nbits.toNat = 8 * s.inPos + s.codeSize.toNat + t.nbits.toNat := by
  obtain ⟨p, hp, hpos⟩ := h.position
  have hw := h.width
  obtain ⟨-, -, -, -, b9, b12⟩ := format_facts (scheduleFormat (k + 1))
  have hsize : 256 ≤ s.dictSize.toNat ∧ s.dictSize.toNat < 4096 := by
    have := h.size
    split_ifs at this <;> omega
  have hfew := h.few
  obtain ⟨t, hr, ha, hn, hq⟩ :=
    readCode_zero h.acc h.few (by omega) (by omega) h.input (by omega)
  have hfr := readCode_frame (.inl ⟨_, hr⟩)
  have hf : formatOf s.codeSize.toNat = some (scheduleFormat (k + 1)) := by
    rw [hw, formatOf_format_bits]
  have hd : t.dictSize = s.dictSize := by rw [hfr]
  obtain ⟨i, hi, hic, hcode⟩ : ∃ i, decodeCode (selectorOf (scheduleFormat (k + 1)) t) 0 = .ok i ∧
      i.codeClass = .known ∧ i.code = 0 := by
    have hcl : classify (selectorOf (scheduleFormat (k + 1)) t) (0 : Code).toNat = .known := by
      simp only [classify, selectorOf, hd]
      rw [if_pos]
      show 0 < _
      omega
    cases hsf : scheduleFormat (k + 1) <;> rw [hsf] at hcl <;> simp only [decodeCode, hcl]
    · exact ⟨.knownC9 0, rfl, rfl, rfl⟩
    · exact ⟨.knownC10 0, rfl, rfl, rfl⟩
    · exact ⟨.knownC11 0, rfl, rfl, rfl⟩
    · exact ⟨.knownC12 0, rfl, rfl, rfl⟩
  have hrec : reconstruct t 0 = .ok [0] := by
    have hread : dictRead t 0 = .ok { sym := 0, parent := none } :=
      dictRead_ok.2 ⟨by rw [hd]; omega, by rw [hfr]; exact h.root⟩
    exact reconstruct_ok.2 (chainWalk_root 4095 hread rfl)
  have hop : operandSequence i t = .ok [0] := by
    simp only [operandSequence, hic, hcode]
    exact hrec
  have happ : Appendable t := by
    rw [hfr]
    by_cases hz : k = 0
    · exact .inl (by simpa [hz] using h.first)
    · exact .inr ⟨h.previous hz, hsize.2⟩
  obtain ⟨u, hu, he⟩ := finishCode_effect 0 (List.cons_ne_nil 0 []) happ
  refine ⟨t, u, ?_, he, hfr, ha, hn, hq⟩
  have hpend : outPending s = false := by simp [outPending, h.taken]
  rw [step_of_moves_nil h.moves, engineTurn_run h.phase hpend h.noneRaised, decodeStep_code hf hr hi,
    exec_of_operand (.inl hic) hop, hcode, hu]

/-- The schedule widens exactly where the growth test holds (R91, R158). -/
theorem scheduleFormat_next (k : Nat) (hk : k + 1 < 3840) :
    if 256 + k = 2 ^ (scheduleFormat (k + 1)).bits - 1 then
      (scheduleFormat (k + 1 + 1)).bits = (scheduleFormat (k + 1)).bits + 1 ∧
        (scheduleFormat (k + 1)).bits < 12
    else (scheduleFormat (k + 1 + 1)).bits = (scheduleFormat (k + 1)).bits := by
  have e : ∀ n, scheduleFormat n = .c9 ∧ n ≤ 256 ∨ scheduleFormat n = .c10 ∧ 256 < n ∧ n ≤ 768 ∨
      scheduleFormat n = .c11 ∧ 768 < n ∧ n ≤ 1792 ∨ scheduleFormat n = .c12 ∧ 1792 < n := by
    intro n
    unfold scheduleFormat
    split_ifs <;> simp <;> omega
  rcases e (k + 1) with ⟨h, h'⟩ | ⟨h, h'⟩ | ⟨h, h'⟩ | ⟨h, h'⟩ <;>
    rcases e (k + 1 + 1) with ⟨g, g'⟩ | ⟨g, g'⟩ | ⟨g, g'⟩ | ⟨g, g'⟩ <;>
    rw [h, g] <;> simp only [Format.bits] <;> split_ifs <;> first | trivial | omega

/-- The next point of the first epoch. -/
theorem atZero_step {k : Nat} {s : State} (h : AtZero k s) (hk : k + 1 < 3840) :
    ∃ u, step s = .next u ∧ AtZero (k + 1) u := by
  obtain ⟨t, u, hs, he, hfr, ha, hn, hq⟩ := step_zero h (by omega)
  obtain ⟨p, hp, hpos⟩ := h.position
  have hw := h.width
  obtain ⟨-, -, -, -, b9, b12⟩ := format_facts (scheduleFormat (k + 1))
  have tsize : t.dictSize = s.dictSize := by rw [hfr]
  have tcode : t.codeSize = s.codeSize := by rw [hfr]
  have tfirst : t.firstOfEpoch = s.firstOfEpoch := by rw [hfr]
  have hsize : sizeAfterAppend t = 256 + k := by
    have := h.size
    unfold sizeAfterAppend
    rw [tsize, tfirst, h.first]
    by_cases hz : k = 0
    · simp [hz] at this ⊢; omega
    · simp [hz] at this ⊢; omega
  have hreach : reachesThreshold t ↔ 256 + k = 2 ^ (scheduleFormat (k + 1)).bits - 1 := by
    unfold reachesThreshold
    rw [hsize, tcode, hw]
  have hbelow : reachesThreshold t → t.codeSize.toNat < 12 := by
    intro hr
    have := scheduleFormat_next k hk
    rw [if_pos (hreach.1 hr)] at this
    rw [tcode, hw]
    exact this.2
  have hnew : u.codeSize.toNat = (scheduleFormat (k + 1 + 1)).bits ∧
      u.dictSize.toNat = 256 + k ∧ u.firstOfEpoch = false := by
    by_cases hr : reachesThreshold t
    · obtain ⟨w1, w2, w3⟩ := he.widens hr (hbelow hr)
      refine ⟨?_, w2.trans hsize, w3⟩
      have := scheduleFormat_next k hk
      rw [if_pos (hreach.1 hr)] at this
      rw [w1, tcode, hw, this.1]
    · obtain ⟨w1, w2, w3⟩ := he.stays hr
      refine ⟨?_, w2.trans hsize, w3⟩
      have := scheduleFormat_next k hk
      rw [if_neg fun h => hr (hreach.2 h)] at this
      rw [w1, tcode, hw, this]
  obtain ⟨r1, r2, r3⟩ := he.keepsReader
  obtain ⟨o1, o2, o3, o4⟩ := he.keepsOutside
  have hsink := he.sinkTakes (by rw [hfr]; exact h.sink) (by rw [hfr]; exact h.taken)
  refine ⟨u, hs, ?_⟩
  constructor
  · rw [he.keepsStatus.1, hfr]; exact h.phase
  · rw [o4, hfr]; exact h.moves
  · rw [o3, hfr]; exact h.sink
  · exact hsink.1
  · rw [he.keepsStatus.2.2.2, hfr]; exact h.noneRaised
  · rw [r1]; exact ha
  · rw [o1, hfr]; exact h.input
  · rw [r2]; exact hn
  · exact ⟨p + s.codeSize.toNat, by omega, by rw [r2, r3]; omega⟩
  · exact hnew.1
  · rw [hnew.2.1, if_neg (by omega)]; omega
  · rw [hnew.2.2]; simp
  · intro _; rw [he.prevCode]; rfl
  · rw [he.keepsEntries hbelow 0 (fun _ => by rw [tsize]; have := h.size; split_ifs at this <;> omega), hfr]
    exact h.root

/-- Every point of the first epoch is reached. -/
theorem atZero_reached (k : Nat) (hk : k < 3840) :
    ∃ t, runSteps k (started zeros) = .next t ∧ AtZero k t := by
  induction k with
  | zero => exact ⟨_, rfl, atZero_started⟩
  | succ k ih =>
    obtain ⟨t, ht, ha⟩ := ih (by omega)
    obtain ⟨u, hu, hb⟩ := atZero_step ha hk
    exact ⟨u, runSteps_succ ht hu, hb⟩

/-- The run over `zeros` is still a run after every iteration of the first epoch, the last one
included. -/
theorem zeros_run (n : Nat) (hn : n ≤ 3840) :
    ∃ t, runSteps n (started zeros) = .next t ∧ t.phase = .run := by
  rcases Nat.lt_or_ge n 3840 with h | h
  · obtain ⟨t, ht, ha⟩ := atZero_reached n h
    exact ⟨t, ht, ha.phase⟩
  · obtain rfl : n = 3839 + 1 := by omega
    obtain ⟨t, ht, ha⟩ := atZero_reached 3839 (by decide)
    obtain ⟨v, u, hs, he, hfr, -⟩ := step_zero ha (by decide)
    exact ⟨u, runSteps_succ ht hs, by rw [he.keepsStatus.1, hfr]; exact ha.phase⟩

end Sys2Proof.Machine
end

