-- ==== Sys2Proof/Tests/Slice0.lean ====
section
/-! SUPPORT. Tests against the vectors and the encodings of the spec, and a refused term for each
check of well-formedness. -/

open Sys2Proof Sys2Proof.Machine

namespace Sys2Proof.Tests

/-! ### Well-formedness: each check refuses an ill-formed term -/

theorem test_wf_known_accepts : (Instr.knownC9 509).wf = true := by decide
theorem test_wf_known_refuses : (Instr.knownC9 510).wf = false := by decide
theorem test_wf_kwkwk_accepts : (Instr.kwkwkC10 511).wf = true := by decide
theorem test_wf_kwkwk_refuses_low : (Instr.kwkwkC10 510).wf = false := by decide
theorem test_wf_kwkwk_refuses_high : (Instr.kwkwkC10 1023).wf = false := by decide
theorem test_wf_noprev_accepts : (Instr.noprevC9 256).wf = true := by decide
theorem test_wf_noprev_refuses : (Instr.noprevC9 257).wf = false := by decide
theorem test_wf_invalid_accepts : (Instr.invalidC12 4095).wf = true := by decide
theorem test_wf_invalid_refuses : (Instr.invalidC12 2047).wf = false := by decide
theorem test_legal_accepts : (Selector.mk .c9 256 true).legal = true := by decide
theorem test_legal_refuses_small : (Selector.mk .c10 510 false).legal = false := by decide
theorem test_legal_refuses_large : (Selector.mk .c9 511 false).legal = false := by decide
theorem test_legal_refuses_first : (Selector.mk .c9 257 true).legal = false := by decide
theorem test_selected_refuses_format :
    (Instr.knownC9 0).selectedBy ⟨.c10, 511, false⟩ = false := by decide
theorem test_selected_refuses_known :
    (Instr.knownC9 256).selectedBy ⟨.c9, 256, false⟩ = false := by decide
theorem test_selected_refuses_kwkwk :
    (Instr.kwkwkC9 256).selectedBy ⟨.c9, 256, true⟩ = false := by decide
theorem test_selected_refuses_noprev :
    (Instr.noprevC9 256).selectedBy ⟨.c9, 256, false⟩ = false := by decide
theorem test_selected_refuses_invalid :
    (Instr.invalidC9 256).selectedBy ⟨.c9, 256, true⟩ = false := by decide

/-! ### Decoding: words written out from R81 and R82, every row -/

/-- V3: `001000001` is `0x041`. -/
theorem test_decode_knownC9 :
    decodeAt ⟨.c9, 256, true⟩ [0x20, 0x80] 0 = .ok (.knownC9 0x041) := by decide
/-- P1, bit 27: `100000010` is `0x102`. -/
theorem test_decode_kwkwkC9 :
    decodeAt ⟨.c9, 258, false⟩ [0x20, 0x90, 0xa0, 0x10, 0x20] 27 = .ok (.kwkwkC9 0x102) := by decide
/-- V21: `100000000` is `0x100`. -/
theorem test_decode_noprevC9 :
    decodeAt ⟨.c9, 256, true⟩ [0x80, 0x00] 0 = .ok (.noprevC9 0x100) := by decide
/-- V20: `100000001` is `0x101`. -/
theorem test_decode_invalidC9 :
    decodeAt ⟨.c9, 256, true⟩ [0x80, 0x80] 0 = .ok (.invalidC9 0x101) := by decide
/-- P4, code 257: `0100000000` is `0x100`. -/
theorem test_decode_knownC10 :
    decodeAt ⟨.c10, 511, false⟩ [0x40, 0x00] 0 = .ok (.knownC10 0x100) := by decide
/-- V25, iteration 257: `0111111111` is `0x1ff`. -/
theorem test_decode_kwkwkC10 :
    decodeAt ⟨.c10, 511, false⟩ [0x7f, 0xc0] 0 = .ok (.kwkwkC10 0x1ff) := by decide
/-- V2a: the first ten bits of `ab cd ef` are `0x2af`. -/
theorem test_decode_invalidC10 :
    decodeAt ⟨.c10, 511, false⟩ [0xab, 0xcd, 0xef] 0 = .ok (.invalidC10 0x2af) := by decide
/-- V2a: the second eleven bits of `ab cd ef 01` are `0x37b`. -/
theorem test_decode_knownC11 :
    decodeAt ⟨.c11, 1023, false⟩ [0xab, 0xcd, 0xef, 0x01] 11 = .ok (.knownC11 0x37b) := by decide
/-- V25, iteration 769: `01111111111` is `0x3ff`. -/
theorem test_decode_kwkwkC11 :
    decodeAt ⟨.c11, 1023, false⟩ [0x7f, 0xe0] 0 = .ok (.kwkwkC11 0x3ff) := by decide
/-- V2a: the first eleven bits of `ab cd ef 01` are `0x55e`. -/
theorem test_decode_invalidC11 :
    decodeAt ⟨.c11, 1023, false⟩ [0xab, 0xcd, 0xef, 0x01] 0 = .ok (.invalidC11 0x55e) := by decide
/-- P2, iteration 3840: `000011111111` is `0x0ff`. -/
theorem test_decode_knownC12 :
    decodeAt ⟨.c12, 4094, false⟩ [0x0f, 0xf0] 0 = .ok (.knownC12 0x0ff) := by decide
/-- V23: `111111111110` is `0xffe`. -/
theorem test_decode_kwkwkC12 :
    decodeAt ⟨.c12, 4094, false⟩ [0xff, 0xe0] 0 = .ok (.kwkwkC12 0xffe) := by decide
/-- V23: `111111111111` is `0xfff`. -/
theorem test_decode_invalidC12 :
    decodeAt ⟨.c12, 4094, false⟩ [0xff, 0xf0] 0 = .ok (.invalidC12 0xfff) := by decide

/-- R93, R94: the stream of P1. -/
theorem test_assemble_P1 :
    assemble [(0x041, 9), (0x042, 9), (0x100, 9), (0x102, 9)] = [0x20, 0x90, 0xa0, 0x10, 0x20] := by
  decide
/-- R93: the same stream from its instructions. -/
theorem test_encode_P1 :
    encodeStream [.knownC9 0x041, .knownC9 0x042, .knownC9 0x100, .kwkwkC9 0x102] =
      [0x20, 0x90, 0xa0, 0x10, 0x20] := by decide
/-- The word of the opcode table's first row, and one that no format holds (log entry 12). -/
theorem test_table_word :
    decodeTableWord 9 0x041 = some (.knownC9 0x041) ∧ decodeTableWord 16 0 = some (.knownC9 0) ∧
      decodeTableWord 9 0x200 = none ∧ decodeTableWord 12 0xfff = some (.invalidC12 0xfff) := by
  decide

/-! ### The reader: V2, V4 -/

/-- A state of the reader alone. -/
def readerState (w : BitVec 4) (bytes : List Byte) (pos : Nat) (n : BitVec 5) (a : BitVec 19) :
    State :=
  { State.reset with
    phase := .run, codeSize := w, inBytes := bytes, inEnd := true, inPos := pos, nbits := n,
    acc := a }

/-- The answer of the reader with `acc`, `nbits` and `inPos` after it. -/
def readView : ReadResult → Option Code × Nat × Nat × Nat
  | .code c s => (some c, s.acc.toNat, s.nbits.toNat, s.inPos)
  | .ended s => (none, s.acc.toNat, s.nbits.toNat, s.inPos)
  | .hold s => (none, s.acc.toNat, s.nbits.toNat, s.inPos)

theorem test_read_V2_1 :
    readView (readCode (readerState 9 [0x12, 0x34, 0x56, 0x78, 0x9a, 0xbc] 0 0 0)) =
      (some 0x024, 0x34, 7, 2) := by decide
theorem test_read_V2_2 :
    readView (readCode (readerState 10 [0x12, 0x34, 0x56, 0x78, 0x9a, 0xbc] 2 7 0x34)) =
      (some 0x1a2, 0x16, 5, 3) := by decide
theorem test_read_V2_4 :
    readView (readCode (readerState 12 [0x12, 0x34, 0x56, 0x78, 0x9a, 0xbc] 4 2 0)) =
      (some 0x26a, 0x3c, 6, 6) := by decide
theorem test_read_V2_5 :
    readView (readCode (readerState 9 [0x12, 0x34, 0x56, 0x78, 0x9a, 0xbc] 6 6 0x3c)) =
      (none, 0x3c, 6, 6) := by decide
/-- V4: one byte of input is consumed and gives no code. -/
theorem test_read_V4 :
    readView (readCode (readerState 9 [0x41] 0 0 0)) = (none, 0x41, 8, 1) := by decide

/-! ### The meanings -/

/-- A small dictionary: the singletons the test needs and the entries appended. -/
def dictState (w : BitVec 4) (n : BitVec 13) (first : Bool) (pc : Option Code) (pf : Option Byte)
    (m : Memory) : State :=
  { State.reset with
    phase := .run, codeSize := w, dictSize := n, firstOfEpoch := first, prevCode := pc,
    prevFirst := pf, dict := m }

/-- The next state of an outcome. -/
def answer : Host.Outcome State Fault Refusal → Option State
  | .next s => some s
  | .fault _ => none
  | .refused _ => none

theorem next_of_answer {o : Host.Outcome State Fault Refusal} (h : (answer o).isSome = true) :
    ∃ t, o = .next t := by
  cases o with
  | next s => exact ⟨s, rfl⟩
  | fault f => cases h
  | refused r => cases h

/-- What a test looks at after an instruction. -/
structure View where
  out : List Byte
  dictSize : Nat
  codeSize : Nat
  first : Bool
  prevCode : Option Code
  prevFirst : Option Byte
  phase : Phase
  faultCode : Option Code
  deriving DecidableEq, Repr

def view (o : Host.Outcome State Fault Refusal) : Option View :=
  (answer o).map fun t =>
    ⟨t.out, t.dictSize.toNat, t.codeSize.toNat, t.firstOfEpoch, t.prevCode, t.prevFirst, t.phase,
      t.faultCode⟩

/-- The entry at an index after an instruction. -/
def entryAfter (i : Nat) (o : Host.Outcome State Fault Refusal) : Option Entry :=
  (answer o).bind fun t => memRead t.dict i

/-- P1 before its third code. -/
def beforeP1_3 : State :=
  dictState 9 257 false (some 0x042) (some 0x42)
    [(0x41, ⟨0x41, none⟩), (0x42, ⟨0x42, none⟩), (256, ⟨0x42, some 0x041⟩)]

/-- V13: emits `41 42`, `dictSize` 258. -/
theorem test_knownC9_V13 :
    view (exec (.knownC9 0x100) beforeP1_3) =
      some ⟨[0x41, 0x42], 258, 9, false, some 0x100, some 0x41, .run, none⟩ := by decide
/-- V13: appends (257, `41`, `0x042`). -/
theorem test_knownC9_V13_entry :
    entryAfter 257 (exec (.knownC9 0x100) beforeP1_3) = some ⟨0x41, some 0x042⟩ := by decide

/-- P1 before its fourth code. -/
def beforeP1_4 : State :=
  dictState 9 258 false (some 0x100) (some 0x41)
    [(0x41, ⟨0x41, none⟩), (0x42, ⟨0x42, none⟩), (256, ⟨0x42, some 0x041⟩),
      (257, ⟨0x41, some 0x042⟩)]

/-- V16: emits `41 42 41`, `dictSize` 259. -/
theorem test_kwkwkC9_V16 :
    view (exec (.kwkwkC9 0x102) beforeP1_4) =
      some ⟨[0x41, 0x42, 0x41], 259, 9, false, some 0x102, some 0x41, .run, none⟩ := by decide
/-- V16: appends (258, `41`, `0x100`). -/
theorem test_kwkwkC9_V16_entry :
    entryAfter 258 (exec (.kwkwkC9 0x102) beforeP1_4) = some ⟨0x41, some 0x100⟩ := by decide

/-- V21: `NO_PREVIOUS` with code `0x100`, nothing else written. -/
theorem test_noprevC9_V21 :
    view (exec (.noprevC9 0x100) (dictState 9 256 true none none [])) =
      some ⟨[], 256, 9, true, none, none, .fault, some 0x100⟩ := by decide
theorem test_noprevC9_cause :
    (answer (exec (.noprevC9 0x100) (dictState 9 256 true none none []))).map (·.cause.number) =
      some 2 := by decide
/-- V19: `INVALID_CODE` with code `0x102`, nothing else written. -/
theorem test_invalidC9_V19 :
    view (exec (.invalidC9 0x102) (dictState 9 256 false (some 0x041) (some 0x41) [])) =
      some ⟨[], 256, 9, false, some 0x041, some 0x41, .fault, some 0x102⟩ := by decide
theorem test_invalidC9_cause :
    (answer (exec (.invalidC9 0x102) (dictState 9 256 false (some 0x041) (some 0x41) []))).map
      (·.cause.number) = some 1 := by decide

/-- P4 before code 257. -/
def beforeP4_257 : State :=
  dictState 10 511 false (some 0x0ff) (some 0xff)
    [(0, ⟨0x00, none⟩), (1, ⟨0x01, none⟩), (256, ⟨0x01, some 0x000⟩)]

/-- P4, code 257: emits `00 01`, `dictSize` 512, still 10 bits. -/
theorem test_knownC10_P4 :
    view (exec (.knownC10 0x100) beforeP4_257) =
      some ⟨[0x00, 0x01], 512, 10, false, some 0x100, some 0x00, .run, none⟩ := by decide
theorem test_knownC10_P4_entry :
    entryAfter 511 (exec (.knownC10 0x100) beforeP4_257) = some ⟨0x00, some 0x0ff⟩ := by decide
/-- R152 with the previous code `61`: emits `61 61`. -/
theorem test_kwkwkC10 :
    view (exec (.kwkwkC10 0x1ff) (dictState 10 511 false (some 0x061) (some 0x61)
        [(0x61, ⟨0x61, none⟩)])) =
      some ⟨[0x61, 0x61], 512, 10, false, some 0x1ff, some 0x61, .run, none⟩ := by decide
theorem test_invalidC10 :
    view (exec (.invalidC10 0x2af) (dictState 10 511 false (some 0x061) (some 0x61) [])) =
      some ⟨[], 511, 10, false, some 0x061, some 0x61, .fault, some 0x2af⟩ := by decide
/-- V25, the end of a `C11` segment: `dictSize` 2047, width 12. -/
theorem test_knownC11_grows :
    view (exec (.knownC11 0x061) (dictState 11 2046 false (some 0x062) (some 0x62)
        [(0x61, ⟨0x61, none⟩)])) =
      some ⟨[0x61], 2047, 12, false, some 0x061, some 0x61, .run, none⟩ := by decide
theorem test_kwkwkC11 :
    view (exec (.kwkwkC11 0x3ff) (dictState 11 1023 false (some 0x061) (some 0x61)
        [(0x61, ⟨0x61, none⟩)])) =
      some ⟨[0x61, 0x61], 1024, 11, false, some 0x3ff, some 0x61, .run, none⟩ := by decide
theorem test_invalidC11 :
    view (exec (.invalidC11 0x55e) (dictState 11 1023 false (some 0x061) (some 0x61) [])) =
      some ⟨[], 1023, 11, false, some 0x061, some 0x61, .fault, some 0x55e⟩ := by decide
/-- P2, iteration 3840: emits `ff` and starts a new epoch. -/
theorem test_knownC12_P2 :
    view (exec (.knownC12 0x0ff) (dictState 12 4094 false (some 0x0fe) (some 0xfe)
        [(0xff, ⟨0xff, none⟩)])) =
      some ⟨[0xff], 256, 9, true, some 0x0ff, some 0xff, .run, none⟩ := by decide
/-- V23: emits `fe fe` and starts a new epoch with the stale `prevCode` `0xffe`. -/
theorem test_kwkwkC12_V23 :
    view (exec (.kwkwkC12 0xffe) (dictState 12 4094 false (some 0x0fe) (some 0xfe)
        [(0xfe, ⟨0xfe, none⟩)])) =
      some ⟨[0xfe, 0xfe], 256, 9, true, some 0xffe, some 0xfe, .run, none⟩ := by decide
/-- V23: `0xfff` at `dictSize` 4094. -/
theorem test_invalidC12_V23 :
    view (exec (.invalidC12 0xfff) (dictState 12 4094 false (some 0x0fe) (some 0xfe) [])) =
      some ⟨[], 4094, 12, false, some 0x0fe, some 0xfe, .fault, some 0xfff⟩ := by decide

/-! ### Identity -/

/-- R2: the identity a model records. -/
theorem test_identity :
    Config.identity = ⟨"XAF-LZW decompressor engine", "EmiMidnight/XafTool", []⟩ := by decide

/-! ### One step -/

/-- R255: a byte offered before `START` is the first of the run's input, whatever `inPos`, which holds
no value in `IDLE` (R39), may read. -/
theorem test_start_keeps_early_byte :
    (answer (step { State.reset with inBytes := [0x41], inPos := 1, moves := [.start] })).map
      (fun t => (t.phase, t.inBytes, t.inPos)) = some (.run, [0x41], 0) := by decide

/-- P1, iteration 3, from the stream. -/
def P1_3 : State :=
  { beforeP1_3 with
    inBytes := [0x20, 0x90, 0xa0, 0x10, 0x20], inEnd := true, acc := 0x20, nbits := 6, inPos := 3 }

theorem test_step_P1_3 :
    view (step P1_3) =
      some ⟨[0x41, 0x42], 258, 9, false, some 0x100, some 0x41, .run, none⟩ := by decide
theorem test_step_P1_3_reader :
    (answer (step P1_3)).map (fun t => (t.nbits, t.acc, t.inPos)) = some (5, 0x10, 4) := by decide
/-- V24: an append at the capacity. -/
theorem test_overflow_V24 :
    dictAppend 0x41 0x041 (dictState 12 4096 false (some 0x041) (some 0x41) []) = none := by decide
/-- V24 with a sink that does not accept: the byte of the code is pushed, and the fault waits for it. -/
theorem test_overflow_waits :
    (answer (exec (.knownC12 0x041) { dictState 12 4096 false (some 0x042) (some 0x42)
        [(0x41, ⟨0x41, none⟩)] with sinkReady := false })).map
      (fun t => (t.out, t.phase, t.cause, t.raised)) =
      some ([0x41], .run, .none, some (.dictOverflow, 0x041)) := by decide
/-- R226: the fault is entered once the byte is accepted. -/
theorem test_overflow_entered :
    (answer (step { dictState 12 4096 false (some 0x042) (some 0x42) [] with
        out := [0x41], outTaken := 1, raised := some (.dictOverflow, 0x041) })).map
      (fun t => (t.phase, t.cause, t.faultCode, t.raised)) =
      some (.fault, .dictOverflow, some 0x041, none) := by decide
/-- R205, R191: after `DONE` the source goes on with the next run's bytes, without a drain. -/
theorem test_next_run_without_drain :
    (answer (step { readerState 9 [0x41] 1 8 0x41 with inEnd := true })).map
        (fun t => (t.phase, t.inEnd)) = some (.done, false) ∧
      (answer (step { readerState 9 [0x41] 1 8 0x41 with
        phase := .done, inEnd := false, moves := [.offer 0x20] })).map untaken = some [0x20] := by
  decide
/-- V9: the walk of 258 in the dictionary of V8. -/
theorem test_walk_V9 :
    (chainWalk (dictState 9 259 false none none
      [(0x41, ⟨0x41, none⟩), (256, ⟨0x42, some 0x041⟩), (258, ⟨0x41, some 0x100⟩)]) 4096 258).toOption
      = some [0x41, 0x42, 0x41] := by decide
/-- The word of the table's first row runs as the first instruction after reset (log entry 12). -/
theorem test_fetch_word :
    view (step (State.reset.withFetchWord 9 0x041)) =
      some ⟨[0x41], 256, 9, false, some 0x041, some 0x41, .run, none⟩ := by decide +kernel

end Sys2Proof.Tests
end

