-- ==== Sys2Proof/Tests/Witness.lean ====
section
/-! SUPPORT. For every statement with hypotheses, states and operands that meet them. -/

open Sys2Proof Sys2Proof.Machine

namespace Sys2Proof.Tests

/-- Two codes' worth of bits, one literal. -/
def lit : State := started [0x20, 0x80]
/-- One byte of input: no code. -/
def short : State := started [0x41]
/-- An input whose first code is `INVALID`. -/
def bad : State := started [0x80, 0x80]
/-- An epoch of the literal 0, with the codes 256 to `n - 1` live. -/
def zeroAt (f : Format) (n : Nat) : State := zeroEpoch f n State.reset

/-- A schedule of the three agents that ends its run. -/
def schedule : List Move := [.offer 0x20, .engine, .offer 0x80, .endInput, .engine, .engine]

/-- One that ends in a fault, with a byte of the input left at the source. -/
def faultSchedule : List Move := [.offer 0x80, .offer 0x80, .offer 0x41, .engine]

/-- How an outcome left the status registers. -/
def ending (o : Host.Outcome State Fault Refusal) : Option (Phase × Cause) :=
  (answer o).map fun t => (t.phase, t.cause)

theorem exists_of_ending {o : Host.Outcome State Fault Refusal} {p : Phase} {k : Cause}
    (h : ending o = some (p, k)) : ∃ t, o = .next t ∧ t.phase = p ∧ t.cause = k := by
  cases o with
  | next s => exact ⟨s, rfl, by simpa [ending, answer] using h⟩
  | fault f => simp [ending, answer] at h
  | refused r => simp [ending, answer] at h

/-- The concrete steps and runs that the witnesses below cite, evaluated once. -/
theorem evaluated :
    ending (exec (.kwkwkC9 256) (zeroAt .c9 256)) = some (.run, .none) ∧
      ending (step bad) = some (.fault, .invalidCode) ∧
      ending (step lit) = some (.run, .none) ∧
      ending (decodeRun [0x20, 0x80]) = some (.done, .none) ∧
      ending (decodeRun [0x80, 0x80]) = some (.fault, .invalidCode) ∧
      ending (runSteps schedule.length { startCommand State.reset with moves := schedule }) =
        some (.done, .none) ∧
      ending (runSteps faultSchedule.length
        { startCommand State.reset with moves := faultSchedule }) = some (.fault, .invalidCode) := by
  decide +kernel

/-- The first step of the stream of one literal. -/
theorem lit_steps : ∃ t, step lit = .next t ∧ t.phase = .run :=
  (exists_of_ending evaluated.2.2.1).imp fun _ h => ⟨h.1, h.2.1⟩

/-- The first step of the illegal stream. -/
theorem bad_faults : ∃ t, step bad = .next t ∧ t.phase = .fault ∧ t.cause = .invalidCode :=
  exists_of_ending evaluated.2.1

theorem witness_HardwareResetAbandonsTheRun :
    ({ lit with out := [0x41], moves := [.rst] } : State).moves = .rst :: [] ∧
      ({ lit with out := [0x41], moves := [.rst] } : State).phase = .run ∧
      ({ State.reset with moves := [.rst] } : State).moves = .rst :: [] ∧
      ({ State.reset with moves := [.rst] } : State).phase ≠ .run := ⟨rfl, rfl, rfl, by decide⟩

theorem witness_StartWritesEveryRegister_idle :
    ({ State.reset with moves := [.start] } : State).moves = .start :: [] ∧
      ({ State.reset with moves := [.start] } : State).phase ≠ .run := by decide

theorem witness_StartWritesEveryRegister_run :
    ({ lit with moves := [.start] } : State).moves = .start :: [] ∧
      ({ lit with moves := [.start] } : State).phase = .run := ⟨rfl, rfl⟩

theorem witness_HostProcedureLoadsAFreshRun_idle :
    let s : State := { State.reset with
      moves := .drain :: (([0x20, 0x80] : List Byte).map Move.offer ++ [.endInput, .start]) ++ [] }
    s.phase ≠ .run ∧ (s.phase ≠ .idle → s.inPos ≤ s.inBytes.length) ∧
      s.moves = .drain :: (([0x20, 0x80] : List Byte).map Move.offer ++ [.endInput, .start]) ++ [] := by
  decide

/-- After a fault, with two bytes of the input taken and one left at the source. -/
theorem witness_HostProcedureLoadsAFreshRun_fault :
    let s : State := { takeFault .noPrevious 0x100 State.reset with
      inBytes := [0x80, 0x00, 0x41], inPos := 2,
      moves := .drain :: (([0x20, 0x80] : List Byte).map Move.offer ++ [.endInput, .start]) ++ [] }
    s.phase ≠ .run ∧ (s.phase ≠ .idle → s.inPos ≤ s.inBytes.length) ∧
      s.moves = .drain :: (([0x20, 0x80] : List Byte).map Move.offer ++ [.endInput, .start]) ++ [] := by
  decide

/-- After a run that ended in `DONE` with its one byte taken, no drain. -/
theorem witness_HostProcedureLoadsAFreshRun_again :
    let s : State := { endSpent (endOfRun short) with
      inPos := 1, moves := ([0x20, 0x80] : List Byte).map Move.offer ++ [.endInput, .start] ++ [] }
    s.phase ≠ .run ∧ s.inEnd = false ∧ (s.phase ≠ .idle → s.inPos ≤ s.inBytes.length) ∧
      s.moves = ([0x20, 0x80] : List Byte).map Move.offer ++ [.endInput, .start] ++ [] :=
  ⟨by decide, rfl, fun _ => by decide, rfl⟩

theorem witness_HostProcedureLoadsAFreshRun_done :
    short.phase = .run ∧ ∃ t, step short = .next t ∧ t.phase = .done := ⟨rfl, _, rfl, rfl⟩

theorem witness_EngineRestsOutsideRun :
    State.reset.moves = [] ∧ State.reset.phase ≠ .run ∧ outPending State.reset = false := by decide

theorem witness_SinkStallHoldsTheEngine_hold :
    let s : State := { State.reset with phase := .run, out := [0x41], sinkReady := false }
    s.moves = [] ∧ outPending s = true ∧ s.sinkReady = false := by decide

theorem witness_SinkStallHoldsTheEngine_accept :
    let s : State := { State.reset with phase := .run, out := [0x41], moves := [.accept] }
    s.moves = .accept :: [] ∧ s.out[s.outTaken]? = some 0x41 := by decide

/-- A run whose source has given one byte and has not ended. -/
def waiting : State := startRun { State.reset with inBytes := [0x41] }

theorem witness_SourceStallTouchesTheReaderOnly :
    waiting.moves = [] ∧ waiting.phase = .run ∧ outPending waiting = false ∧ waiting.raised = none ∧
      formatOf waiting.codeSize.toNat = some .c9 ∧
      readCode waiting = .hold { waiting with acc := 0x41, nbits := 8, inPos := 1 } :=
  ⟨rfl, rfl, rfl, rfl, rfl, rfl⟩

theorem witness_SourceKeepsToItsProtocol :
    (({ State.reset with moves := [.offer 0x41] } : State).moves = .offer 0x41 :: [] ∧
      ({ State.reset with moves := [.offer 0x41] } : State).inEnd = false) ∧
    (({ lit with moves := [.offer 0x41] } : State).moves = .offer 0x41 :: [] ∧
      ({ lit with moves := [.offer 0x41] } : State).inEnd = true) ∧
    ({ State.reset with moves := [.endInput] } : State).moves = .endInput :: [] ∧
    (({ lit with moves := [.drain] } : State).moves = .drain :: [] ∧
      ({ lit with moves := [.drain] } : State).phase = .run) :=
  ⟨⟨rfl, rfl⟩, ⟨rfl, rfl⟩, rfl, rfl, rfl⟩

theorem witness_SourceAndSinkLeaveTheDecoderAlone :
    ({ lit with out := [0x41], moves := [.accept] } : State).moves = .accept :: [] ∧
      (Move.accept ≠ .engine ∧ Move.accept ≠ .rst ∧ Move.accept ≠ .start) ∧
      ∃ t, step { lit with out := [0x41], moves := [.accept] } = .next t :=
  ⟨rfl, by decide, _, rfl⟩

theorem witness_LinesTellTheStreams_takes :
    MachineOk lit ∧ lit.moves = [] ∧ inTake lit = true ∧ ∃ t, step lit = .next t :=
  ⟨started_machineOk _, rfl, by decide, lit_steps.imp fun _ h => h.1⟩

theorem witness_LinesTellTheStreams_rests :
    MachineOk (started []) ∧ (started []).moves = [] ∧ inTake (started []) = false ∧
      (∃ t, step (started []) = .next t) ∧ State.reset.phase ≠ .run :=
  ⟨started_machineOk _, rfl, by decide, ⟨_, rfl⟩, by decide⟩

theorem witness_LinesTellTheStreams_phases :
    lit.phase ≠ .idle ∧ State.reset.phase = .idle := by decide

theorem witness_RefillPutsTheByteBelow_empty :
    let s := readerState 9 [0x20] 0 0 0
    s.inBytes[s.inPos]? = some 0x20 ∧ s.nbits.toNat < s.codeSize.toNat ∧ s.codeSize.toNat ≤ 12 ∧
      s.acc.toNat < 2 ^ s.nbits.toNat := by decide

theorem witness_RefillPutsTheByteBelow_full :
    let s := readerState 12 [0x20, 0x90] 1 11 0x7ff
    s.inBytes[s.inPos]? = some 0x90 ∧ s.nbits.toNat < s.codeSize.toNat ∧ s.codeSize.toNat ≤ 12 ∧
      s.acc.toNat < 2 ^ s.nbits.toNat := by decide

theorem witness_ExtractDeliversTheOldestBits :
    ((readerState 9 [] 0 9 0x1ff).codeSize.toNat ≤ (readerState 9 [] 0 9 0x1ff).nbits.toNat ∧
      (readerState 9 [] 0 9 0x1ff).codeSize.toNat ≤ 12) ∧
    ((readerState 12 [] 0 19 0x7ffff).codeSize.toNat ≤ (readerState 12 [] 0 19 0x7ffff).nbits.toNat ∧
      (readerState 12 [] 0 19 0x7ffff).codeSize.toNat ≤ 12) := by decide

/-- The reader before the last twelve bits of its input. -/
def lastCode : State := readerState 12 [0xff, 0xff, 0xff] 2 4 0xf

theorem witness_ReadCodeFollowsTheStream_code :
    formatOf lastCode.codeSize.toNat = some .c12 ∧ ReaderOk lastCode ∧
      lastCode.nbits.toNat < lastCode.codeSize.toNat ∧
      bitPos lastCode + Format.c12.bits ≤ 8 * lastCode.inBytes.length :=
  ⟨rfl, ⟨by decide, by decide, by decide⟩, by decide, by decide⟩

theorem witness_ReadCodeFollowsTheStream_end :
    formatOf short.codeSize.toNat = some .c9 ∧ ReaderOk short ∧
      short.nbits.toNat < short.codeSize.toNat ∧
      8 * short.inBytes.length < bitPos short + Format.c9.bits :=
  ⟨rfl, startRun_readerOk _, by decide, by decide⟩

theorem witness_ReaderHoldsFewBits_code :
    let s := readerState 12 [0xff, 0xff] 1 7 0x7f
    9 ≤ s.codeSize.toNat ∧ s.codeSize.toNat ≤ 12 ∧ s.nbits.toNat ≤ 7 ∧
      ∃ c t, readCode s = .code c t := ⟨by decide, by decide, by decide, _, _, rfl⟩

theorem witness_ReaderHoldsFewBits_end :
    9 ≤ short.codeSize.toNat ∧ short.codeSize.toNat ≤ 12 ∧ short.nbits.toNat ≤ 7 ∧
      ∃ t, readCode short = .ended t := ⟨by decide, by decide, by decide, _, rfl⟩

theorem witness_EndOfInputEndsTheRun :
    short.moves = [] ∧ short.phase = .run ∧ outPending short = false ∧ short.raised = none ∧
      formatOf short.codeSize.toNat = some .c9 ∧ ∃ t, readCode short = .ended t :=
  ⟨rfl, rfl, rfl, rfl, rfl, _, rfl⟩

/-- A state that stands at the capacity. -/
def fullDict : State := dictState 12 4096 false (some 0x041) (some 0x41) []

/-- The same with a sink that does not accept. -/
def fullStalled : State := { fullDict with sinkReady := false }

/-- An overflow that waits for the sink to take the byte of its iteration. -/
def overflowWaits : State := { fullDict with out := [0x41], raised := some (.dictOverflow, 0x041) }

theorem witness_DictAppendWritesOneEntry :
    (dictState 12 4095 false none none []).dictSize.toNat < 4096 ∧
      4096 ≤ fullDict.dictSize.toNat ∧ fullDict.firstOfEpoch = false ∧
      fullDict.prevCode = some 0x041 ∧ fullDict.sinkReady = true ∧
      fullDict.outTaken = fullDict.out.length := by decide

/-- The same with a sink that does not accept. -/
theorem witness_DictAppendWritesOneEntry_waits :
    4096 ≤ fullStalled.dictSize.toNat ∧ fullStalled.firstOfEpoch = false ∧
      fullStalled.prevCode = some 0x041 ∧ fullStalled.sinkReady = false ∧
      fullStalled.outTaken ≤ fullStalled.out.length := by decide

theorem witness_OverflowFaultsAfterTheOutput_waits :
    (4096 ≤ fullStalled.dictSize.toNat ∧ fullStalled.firstOfEpoch = false ∧
      fullStalled.prevCode = some 0x041 ∧ ([0x41] : List Byte) ≠ []) ∧
    (overflowWaits.moves = [] ∧ overflowWaits.phase = .run ∧
      overflowWaits.raised = some (.dictOverflow, 0x041) ∧ outPending overflowWaits = true ∧
      ∃ t, step overflowWaits = .next t) ∧
    ((sinkTake overflowWaits).moves = [] ∧ (sinkTake overflowWaits).phase = .run ∧
      (sinkTake overflowWaits).raised = some (.dictOverflow, 0x041) ∧
      outPending (sinkTake overflowWaits) = false ∧ ∃ t, step (sinkTake overflowWaits) = .next t) :=
  ⟨by decide, ⟨rfl, rfl, rfl, rfl, _, rfl⟩, rfl, rfl, rfl, rfl, _, rfl⟩

theorem witness_OverflowFaultsAfterTheOutput :
    4096 ≤ fullDict.dictSize.toNat ∧ fullDict.firstOfEpoch = false ∧
      fullDict.prevCode = some 0x041 ∧ ([0x41] : List Byte) ≠ [] := by decide

theorem witness_DictReadNeedsALiveEntry :
    (256 < beforeP1_3.dictSize.toNat ∧
      memRead beforeP1_3.dict 256 = some ⟨0x42, some 0x041⟩) ∧
      beforeP1_3.dictSize.toNat ≤ 257 := by decide

theorem zeroAt_size (f : Format) (n : Nat) (h : n ≤ 4096) : (zeroAt f n).dictSize.toNat = n :=
  zeroEpoch_dictSize h _

theorem witness_LiveChainsEndAtASingleton :
    DictOk (zeroAt .c12 4094) ∧ (zeroAt .c12 4094).dictSize.toNat ≤ 4096 ∧
      255 < (zeroAt .c12 4094).dictSize.toNat ∧ 256 < (zeroAt .c12 4094).dictSize.toNat ∧
      4093 < (zeroAt .c12 4094).dictSize.toNat := by
  rw [zeroAt_size _ _ (by decide)]
  exact ⟨(zeroEpoch_runOk (by decide) (by decide) _).dict, by decide, by decide, by decide, by decide⟩

theorem witness_SequenceFollowsTheParent :
    DictOk (zeroAt .c12 4094) ∧ (zeroAt .c12 4094).dictSize.toNat ≤ 4096 ∧ 256 ≤ 256 ∧
      256 < (zeroAt .c12 4094).dictSize.toNat := by
  rw [zeroAt_size _ _ (by decide)]
  exact ⟨(zeroEpoch_runOk (by decide) (by decide) _).dict, by decide, by decide, by decide⟩

theorem reconstruct_beforeP1_3 : reconstruct beforeP1_3 0x042 = .ok [0x42] := rfl

theorem witness_AppendKeepsOlderSequences :
    (∃ t, dictAppend 0x41 0x042 beforeP1_3 = some t) ∧
      reconstruct beforeP1_3 0x042 = .ok [0x42] := ⟨⟨_, rfl⟩, rfl⟩

theorem witness_AppendedEntryExtendsItsParent :
    (∃ t, dictAppend 0x41 0x042 beforeP1_3 = some t) ∧
      reconstruct beforeP1_3 (0x042 : Code).toNat = .ok [0x42] ∧ ([0x42] : List Byte).length < 4096 :=
  ⟨⟨_, rfl⟩, rfl, by decide⟩

theorem witness_PackedEntryReadsBack : (Entry.mk 0x42 (some 0x041)).parent = some 0x041 := rfl

theorem witness_ClassConditions :
    (Selector.mk .c9 256 true).legal = true ∧ classify ⟨.c9, 256, true⟩ 256 = .noprev := by decide

theorem witness_EveryCodeOfARunHasARow :
    ((Selector.mk .c9 256 true).legal = true ∧ (511 : Code).toNat < 2 ^ Format.c9.bits) ∧
      ((Selector.mk .c12 4094 false).legal = true ∧ (4095 : Code).toNat < 2 ^ Format.c12.bits) := by
  decide

theorem witness_DecodeInvertsEncode :
    (Instr.knownC9 255).selectedBy ⟨.c9, 256, true⟩ = true ∧
      (Instr.kwkwkC10 511).selectedBy ⟨.c10, 511, false⟩ = true ∧
      (Instr.noprevC9 256).selectedBy ⟨.c9, 256, true⟩ = true ∧
      (Instr.invalidC12 4095).selectedBy ⟨.c12, 4094, false⟩ = true := by decide

theorem witness_EncodeInvertsDecode :
    decode ⟨.c9, 256, true⟩ (bitString [0x20, 0x80]) =
      .ok (.knownC9 0x041, List.replicate 7 false) := by decide

theorem witness_LiteralsAreAlwaysKnown :
    (256 ≤ (Selector.mk .c9 256 true).dictSize.toNat ∧
      (Selector.mk .c9 256 true).dictSize.toNat ≤ 4094 ∧ 255 ≤ 255) ∧
    (256 ≤ (Selector.mk .c12 4094 false).dictSize.toNat ∧
      (Selector.mk .c12 4094 false).dictSize.toNat ≤ 4094 ∧ 4095 = 4095) := by decide

theorem witness_KnownCompletes :
    Appendable beforeP1_3 ∧ seqKnown ((0x100 : BitVec 9).setWidth 12) beforeP1_3 = .ok [0x41, 0x42] ∧
      seqKnown ((0x100 : BitVec 10).setWidth 12) beforeP1_3 = .ok [0x41, 0x42] ∧
      seqKnown ((0x100 : BitVec 11).setWidth 12) beforeP1_3 = .ok [0x41, 0x42] ∧
      seqKnown 0x100 beforeP1_3 = .ok [0x41, 0x42] :=
  ⟨.inr (by decide), rfl, rfl, rfl, rfl⟩

theorem witness_KwkwkCompletes :
    Appendable beforeP1_3 ∧ beforeP1_3.prevCode = some 0x042 ∧ beforeP1_3.prevFirst = some 0x42 ∧
      reconstruct beforeP1_3 (0x042 : Code).toNat = .ok [0x42] :=
  ⟨.inr (by decide), rfl, rfl, rfl⟩

theorem witness_InvalidTakesItsFault :
    decodeCode ⟨.c9, 256, true⟩ 0x101 = .ok (.invalidC9 0x101) ∧
      decodeCode ⟨.c9, 256, true⟩ 0x0ff = .ok (.knownC9 0x0ff) ∧
      outPending State.reset = false ∧ outPending { State.reset with out := [0x41] } = true := by decide

theorem witness_NoprevTakesItsFault_sink :
    outPending State.reset = false ∧ outPending { State.reset with out := [0x41] } = true := by decide

theorem witness_NoprevTakesItsFault :
    decodeCode ⟨.c9, 256, true⟩ 0x100 = .ok (.noprevC9 0x100) ∧
      (Selector.mk .c9 256 true).legal = true ∧
      (Instr.noprevC9 0x100).selectedBy ⟨.c9, 256, true⟩ = true := by decide

/-- A code that stands for the selector of an epoch of the literal 0. -/
theorem selectedBy_zeroAt (i : Instr) (f : Format) (n : Nat)
    (h : i.selectedBy ⟨f, BitVec.ofNat 13 n, false⟩ = true) :
    i.selectedBy (selectorOf f (zeroAt f n)) = true := h

theorem format_zeroAt (f : Format) (n : Nat) :
    formatOf (zeroAt f n).codeSize.toNat = some f := by
  rw [zeroAt, zeroEpoch_codeSize, formatOf_format_bits]

theorem runOk_zeroAt {f : Format} {n : Nat} (h1 : f.minDictSize ≤ n) (h2 : n ≤ f.maxDictSize) :
    RunOk (zeroAt f n) := zeroEpoch_runOk h1 h2 _

theorem witness_LegalCodesCompleteInARun_known :
    formatOf (zeroAt .c12 4094).codeSize.toNat = some .c12 ∧ RunOk (zeroAt .c12 4094) ∧
      (Instr.knownC12 4093).selectedBy (selectorOf .c12 (zeroAt .c12 4094)) = true ∧
      ((Instr.knownC12 4093).codeClass = .known ∨ (Instr.knownC12 4093).codeClass = .kwkwk) :=
  ⟨format_zeroAt _ _, runOk_zeroAt (by decide) (by decide), selectedBy_zeroAt _ _ _ (by decide),
    .inl rfl⟩

theorem witness_LegalCodesCompleteInARun_kwkwk :
    formatOf (zeroAt .c9 256).codeSize.toNat = some .c9 ∧ RunOk (zeroAt .c9 256) ∧
      (Instr.kwkwkC9 256).selectedBy (selectorOf .c9 (zeroAt .c9 256)) = true ∧
      ((Instr.kwkwkC9 256).codeClass = .known ∨ (Instr.kwkwkC9 256).codeClass = .kwkwk) :=
  ⟨format_zeroAt _ _, runOk_zeroAt (by decide) (by decide), selectedBy_zeroAt _ _ _ (by decide),
    .inr rfl⟩

theorem witness_LegalCodesFrame_appends :
    ((Instr.knownC9 0x100).codeClass = .known ∨ (Instr.knownC9 0x100).codeClass = .kwkwk) ∧
      (∃ t, exec (.knownC9 0x100) beforeP1_3 = .next t) ∧ Appendable beforeP1_3 ∧
      ¬ reachesThreshold beforeP1_3 :=
  ⟨.inl rfl, next_of_answer (by decide), .inr (by decide), by unfold reachesThreshold; decide⟩

/-- The first code of an epoch, a literal. -/
def firstLiteral : State := dictState 9 256 true none none [(0x41, ⟨0x41, none⟩)]

theorem witness_LegalCodesFrame_first :
    ((Instr.knownC9 0x041).codeClass = .known ∨ (Instr.knownC9 0x041).codeClass = .kwkwk) ∧
      (∃ t, exec (.knownC9 0x041) firstLiteral = .next t) ∧ firstLiteral.firstOfEpoch = true ∧
      ¬ reachesThreshold firstLiteral ∧
      ¬ (reachesThreshold firstLiteral ∧ 12 ≤ firstLiteral.codeSize.toNat) :=
  ⟨.inl rfl, next_of_answer (by decide), rfl, by unfold reachesThreshold; decide,
    by unfold reachesThreshold; decide⟩

theorem witness_KwkwkNamesItsOwnEntry :
    formatOf (zeroAt .c9 256).codeSize.toNat = some .c9 ∧ RunOk (zeroAt .c9 256) ∧
      (Instr.kwkwkC9 256).codeClass = .kwkwk ∧
      (Instr.kwkwkC9 256).selectedBy (selectorOf .c9 (zeroAt .c9 256)) = true ∧
      sizeAfterAppend (zeroAt .c9 256) ≠ 4095 ∧
      ∃ t, exec (.kwkwkC9 256) (zeroAt .c9 256) = .next t :=
  ⟨format_zeroAt _ _, runOk_zeroAt (by decide) (by decide), rfl, selectedBy_zeroAt _ _ _ (by decide),
    by decide, let ⟨t, h, _⟩ := exists_of_ending evaluated.1; ⟨t, h⟩⟩

theorem witness_GrowthTestIsAnEquality_true :
    let s := dictState 9 511 false none none []
    let t := dictState 12 4095 false none none []
    (s.dictSize.toNat = 2 ^ s.codeSize.toNat - 1 ∧ s.codeSize.toNat < 12 ∧ s.codeSize = 9) ∧
      (t.dictSize.toNat = 2 ^ t.codeSize.toNat - 1 ∧ 12 ≤ t.codeSize.toNat ∧ t.codeSize = 12) := by
  decide

theorem witness_GrowthTestIsAnEquality_false :
    let s := dictState 9 510 false none none []
    s.dictSize.toNat ≠ 2 ^ s.codeSize.toNat - 1 := by decide

theorem witness_GrowthTestIsAnEquality_middle :
    (dictState 10 1023 false none none []).codeSize = 10 ∧
      (dictState 11 2047 false none none []).codeSize = 11 ∧
      ∃ t, appendStep 0x41 (outPushAll beforeP1_3 (0x41 :: [0x42])) = .ok (some t) :=
  ⟨rfl, rfl, _, rfl⟩

theorem witness_GrowWidensByOneBit :
    let s := dictState 11 2047 false none none []
    s.dictSize.toNat = 2 ^ s.codeSize.toNat - 1 ∧ s.codeSize.toNat < 12 := by decide

theorem witness_EpochResetStartsANewEpoch :
    let s := dictState 12 4095 false none none []
    s.dictSize.toNat = 4095 ∧ s.codeSize = 12 := by decide

theorem witness_GrowthNeedsAnAppend :
    RunOk (zeroAt .c9 510) ∧ reachesThreshold (zeroAt .c9 510) :=
  ⟨runOk_zeroAt (by decide) (by decide), by unfold reachesThreshold; decide⟩

/-- The run over zero bits, at the bounds of every clause: before the first code, after one, at the
three growths, one code before the reset and at it. -/
theorem witness_WidthFollowsTheSchedule :
    ∀ n ∈ [0, 1, 256, 768, 1792, 3839, 3840], n ≤ 3840 ∧
      ∃ t, runSteps n (started zeros) = .next t ∧ t.phase = .run := by
  intro n hn
  have h : n ≤ 3840 := by
    simp only [List.mem_cons, List.not_mem_nil, or_false] at hn
    omega
  exact ⟨h, zeros_run n h⟩

/-- A run that has faulted. -/
def faulted : State := takeFault .invalidCode 0x102 lit

theorem witness_FaultLastsUntilStartOrReset :
    faulted.phase = .fault ∧ (∀ m ∈ faulted.moves, m ≠ .start ∧ m ≠ .rst) ∧
      ∃ t, runSteps 2 faulted = .next t := ⟨rfl, by decide, _, rfl⟩

theorem witness_FaultsArePrecise :
    MachineOk bad ∧ bad.moves = [] ∧ bad.phase = .run ∧
      ∃ t, step bad = .next t ∧ t.phase = .fault :=
  ⟨started_machineOk _, rfl, rfl, bad_faults.imp fun _ h => ⟨h.1, h.2.1⟩⟩

/-- A state that has recorded `DICT_OVERFLOW` meets the invariant, though no run reaches it. -/
def overflowed : State := takeFault .dictOverflow 0x041 lit

theorem overflowed_machineOk : MachineOk overflowed where
  memory := singletons_wf
  causeSet := by simp [overflowed]
  faultCodeSet := by simp [overflowed]
  taken := Nat.zero_le _
  endTaken := fun _ => rfl
  noneRaised := rfl
  sink := ⟨[], rfl⟩
  reader _ := ⟨⟨Nat.zero_le _, Nat.zero_le _, by simp [overflowed, lit, started_eq]⟩,
    show (0 : Nat) < 9 by decide⟩
  run h := by simp [overflowed] at h

theorem witness_OverflowNeverFires :
    MachineOk overflowed ∧ ∃ t, step overflowed = .next t ∧ t.cause = .dictOverflow :=
  ⟨overflowed_machineOk, _, rfl, rfl⟩

theorem witness_RunsEndAfterEveryByteIsTaken_done :
    short.outTaken ≤ short.out.length ∧ short.phase ≠ .done ∧
      ∃ t, step short = .next t ∧ t.phase = .done := ⟨by decide, by decide, _, rfl, rfl⟩

theorem witness_RunsEndAfterEveryByteIsTaken_fault :
    bad.outTaken ≤ bad.out.length ∧ bad.phase ≠ .fault ∧
      ∃ t, step bad = .next t ∧ t.phase = .fault ∧ t.cause ≠ .dictOverflow := by
  exact ⟨by decide, by decide, bad_faults.imp fun _ h => ⟨h.1, h.2.1, by rw [h.2.2]; decide⟩⟩

theorem witness_OutputOnlyGrows : lit.moves = [] ∧ ∃ t, step lit = .next t :=
  ⟨rfl, lit_steps.imp fun _ h => h.1⟩

theorem witness_PositionNeverMovesBack :
    MachineOk lit ∧ lit.moves = [] ∧ lit.phase = .run ∧ ∃ t, step lit = .next t :=
  ⟨started_machineOk _, rfl, rfl, lit_steps.imp fun _ h => h.1⟩

theorem witness_StepRunsTheDecodedInstruction :
    let t : State := { lit with acc := 0x00, nbits := 7, inPos := 2 }
    lit.moves = [] ∧ lit.phase = .run ∧ outPending lit = false ∧ lit.raised = none ∧
      formatOf lit.codeSize.toNat = some .c9 ∧ readCode lit = .code 0x041 t ∧
      decodeCode (selectorOf .c9 t) 0x041 = .ok (.knownC9 0x041) :=
  ⟨rfl, rfl, rfl, rfl, rfl, rfl, rfl⟩

theorem witness_StepRunsTheCodeInTheStream :
    MachineOk lit ∧ lit.moves = [] ∧ lit.phase = .run ∧ outPending lit = false ∧
      formatOf lit.codeSize.toNat = some .c9 ∧
      decode (selectorOf .c9 lit) ((bitString lit.inBytes).drop (bitPos lit)) =
        .ok (.knownC9 0x041, List.replicate 7 false) :=
  ⟨started_machineOk _, rfl, rfl, rfl, rfl, rfl⟩

theorem witness_EveryStepKeepsInv : MachineOk lit ∧ ∃ t, step lit = .next t :=
  ⟨started_machineOk _, lit_steps.imp fun _ h => h.1⟩

theorem witness_NoStepStops :
    MachineOk { waiting with moves := [.offer 0x80] } ∧
      ∀ m, ({ waiting with moves := [.offer 0x80] } : State).moves.head? = some m →
        m.allowed { waiting with moves := [.offer 0x80] } = true := by
  refine ⟨?_, fun m hm => ?_⟩
  · have h : MachineOk (startRun { State.reset with
        inBytes := [0x41], moves := [.offer 0x80] }) := startRun_machineOk _
    exact h
  · cases hm
    rfl

theorem witness_NoSequenceIsLongerThan3840 :
    MachineOk lit ∧ lit.moves = [] ∧ ∃ t, step lit = .next t :=
  ⟨started_machineOk _, rfl, lit_steps.imp fun _ h => h.1⟩

theorem witness_DoneExactlyForLegalStreams_done :
    ∃ t, decodeRun [0x20, 0x80] = .next t ∧ t.phase = .done :=
  (exists_of_ending evaluated.2.2.2.1).imp fun _ h => ⟨h.1, h.2.1⟩

theorem witness_DoneExactlyForLegalStreams_fault :
    ∃ t, decodeRun [0x80, 0x80] = .next t ∧ t.phase = .fault :=
  (exists_of_ending evaluated.2.2.2.2.1).imp fun _ h => ⟨h.1, h.2.1⟩

theorem witness_OutputIsThatOfWholeSequences : ∃ t, decodeRun [0x20, 0x80] = .next t :=
  witness_DoneExactlyForLegalStreams_done.imp fun _ h => h.1

theorem witness_ScheduleDoesNotChangeTheResult :
    (∀ m ∈ schedule, m ≠ .start ∧ m ≠ .rst ∧ m ≠ .drain) ∧
      ∃ t, runSteps schedule.length { startCommand State.reset with moves := schedule } = .next t ∧
        t.phase ≠ .run ∧ ∃ input, t.inBytes.take t.inPos <+: input ∧
          (t.phase = .done → input = t.inBytes.take t.inPos) := by
  obtain ⟨t, h1, h2, -⟩ := exists_of_ending evaluated.2.2.2.2.2.1
  exact ⟨by decide, t, h1, by rw [h2]; decide, _, List.prefix_refl _, fun _ => rfl⟩

/-- After a fault the source goes on: the input may be longer than what the run has taken. -/
theorem witness_ScheduleDoesNotChangeTheResult_fault :
    (∀ m ∈ faultSchedule, m ≠ .start ∧ m ≠ .rst ∧ m ≠ .drain) ∧
      ∃ t, runSteps faultSchedule.length { startCommand State.reset with moves := faultSchedule } =
          .next t ∧
        t.phase ≠ .run ∧ t.inBytes.take t.inPos <+: t.inBytes ∧
          (t.phase = .done → t.inBytes = t.inBytes.take t.inPos) := by
  obtain ⟨t, h1, h2, -⟩ := exists_of_ending evaluated.2.2.2.2.2.2
  exact ⟨by decide, t, h1, by rw [h2]; decide, List.take_prefix _ _, fun h => by simp [h2] at h⟩

end Sys2Proof.Tests
end

section
/-! The longest sequence (R140, R141). A chain descends, so a code of index `i` stands for at most
`i - 254` bytes. Hence an iteration, the only turn that pushes bytes, pushes at most 3840. -/

namespace Sys2Proof.Machine

/-! ### The lengths of sequences -/

/-- What a read of the dictionary answers under its invariant: a singleton, or a link to a lower
index (R52, R138). -/
theorem dictOk_read_cases {s : State} {i : Nat} {e : Entry} (hd : DictOk s)
    (h : dictRead s i = .ok e) :
    (i < 256 ∧ e.parent = none) ∨ (256 ≤ i ∧ ∃ p, e.parent = some p ∧ p.toNat < i) := by
  obtain ⟨hlive, hread⟩ := dictRead_ok.1 h
  rcases lt_or_ge i 256 with hi | hi
  · rw [hd.singleton i hi, Option.some.injEq] at hread
    exact .inl ⟨hi, by rw [← hread]⟩
  · obtain ⟨e', p, hread', hp, hlt⟩ := hd.dynamic i hi hlive
    rw [hread', Option.some.injEq] at hread
    exact .inr ⟨hi, p, hread ▸ hp, hlt⟩

/-- A walk gives one byte for a singleton's index and at most `i - 254` for an index above
(R140). -/
theorem chainWalk_length_le_index {s : State} {n i : Nat} {w : List Byte} (hd : DictOk s)
    (h : chainWalk s n i = .ok w) : w.length ≤ max 1 (i - 254) := by
  induction n generalizing i w with
  | zero => simp [chainWalk] at h
  | succ n ih =>
    obtain ⟨m, e, hm, hr, hc⟩ := chainWalk_cases h
    obtain rfl : n = m := by omega
    rcases hc with ⟨-, rfl⟩ | ⟨p, v, hp, hv, rfl⟩
    · simp
    · have hlen : v.length ≤ max 1 (p.toNat - 254) := ih hv
      rcases dictOk_read_cases hd hr with ⟨-, hroot⟩ | ⟨hi, p', hp', hlt⟩
      · simp [hp] at hroot
      · obtain rfl : p = p' := by simpa [hp] using hp'
        rw [List.length_cons]
        omega

/-- Only a live index has a sequence (R133, R135). -/
theorem reconstruct_live {s : State} {i : Nat} {w : List Byte} (h : reconstruct s i = .ok w) :
    i < s.dictSize.toNat := by
  obtain ⟨_, _, -, hr, -⟩ := chainWalk_cases (reconstruct_ok.1 h)
  exact (dictRead_ok.1 hr).1

/-- A sequence is shorter than 3840 bytes while `dictSize` is within the schedule's range (R91,
R140). -/
theorem reconstruct_length_lt {s : State} {i : Nat} {w : List Byte} (hd : DictOk s)
    (hsize : s.dictSize.toNat ≤ 4094) (h : reconstruct s i = .ok w) : w.length < 3840 := by
  have hlive : i < s.dictSize.toNat := reconstruct_live h
  have hlen : w.reverse.length ≤ max 1 (i - 254) :=
    chainWalk_length_le_index hd (reconstruct_ok.1 h)
  rw [List.length_reverse] at hlen
  omega

/-- The sequence of a legal code: `KWKWK` adds one byte to a sequence of the dictionary, so it
alone can reach the bound (R141, R151, R152). -/
theorem operandSequence_length_le {i : Instr} {s : State} {seq : List Byte} (hd : DictOk s)
    (hsize : s.dictSize.toNat ≤ 4094) (h : operandSequence i s = .ok seq) : seq.length ≤ 3840 := by
  have hkwkwk : seqKwkwk s = .ok seq → seq.length ≤ 3840 := by
    intro hk
    obtain ⟨p, b, w, -, -, hw, rfl⟩ := seqKwkwk_ok.1 hk
    have hlen := reconstruct_length_lt hd hsize hw
    simp only [List.length_append, List.length_singleton]
    omega
  unfold operandSequence at h
  cases hc : i.codeClass <;> simp only [hc] at h
  case known => exact (reconstruct_length_lt hd hsize h).le
  all_goals exact hkwkwk h

/-! ### The output of a turn -/

/-- Steps 3 to 6 push exactly the sequence, also where the append overflows (R155, R223). -/
theorem finishCode_out {c : Code} {seq : List Byte} {s t : State}
    (h : finishCode c seq s = .next t) : t.out = s.out ++ seq := by
  obtain ⟨-, ⟨-, heffect⟩ | ⟨-, -, -, rfl⟩⟩ := finishCode_cases h
  · exact heffect.out
  · obtain ⟨n, a, hout, -⟩ := outPushAll_cases s seq
    simp [hout]

theorem exec_out_length_le {i : Instr} {s t : State} (hd : DictOk s)
    (hsize : s.dictSize.toNat ≤ 4094) (h : exec i s = .next t) :
    t.out.length ≤ s.out.length + 3840 := by
  by_cases hc : i.codeClass = .known ∨ i.codeClass = .kwkwk
  · obtain ⟨seq, hseq, hfin⟩ := operand_of_exec hc h
    have hlen : seq.length ≤ 3840 := operandSequence_length_le hd hsize hseq
    rw [finishCode_out hfin, List.length_append]
    omega
  · obtain ⟨k, -, hex⟩ := exec_of_illegal hc
    rw [hex, Host.Outcome.next.injEq] at h
    rw [← h, raiseFault_out]
    omega

theorem runCode_out_length_le {f : Format} {c : Code} {s t : State} (hd : DictOk s)
    (hsize : s.dictSize.toNat ≤ 4094) (h : runCode f c s = .next t) :
    t.out.length ≤ s.out.length + 3840 := by
  unfold runCode at h
  split at h
  · exact exec_out_length_le hd hsize h
  · rw [Host.Outcome.next.injEq] at h
    rw [← h, raiseFault_out]
    omega

/-- In a run `dictSize` stays two below the capacity (R91, R165). -/
theorem runOk_dictSize_le {s : State} (h : RunOk s) : s.dictSize.toNat ≤ 4094 := by
  obtain ⟨f, -, hlegal⟩ := h.format
  obtain ⟨-, hmax, -⟩ := (legal_iff _).1 hlegal
  exact hmax.trans (format_facts f).1

/-- The dictionary's invariant looks at the dictionary and at `dictSize` alone. -/
theorem dictOk_congr {s t : State} (hd : t.dict = s.dict) (hn : t.dictSize = s.dictSize)
    (h : DictOk s) : DictOk t where
  singleton := by rw [hd]; exact h.singleton
  dynamic := by rw [hd, hn]; exact h.dynamic
  dead := by rw [hd, hn]; exact h.dead

theorem decodeStep_out_length_le {s t : State} (hrun : RunOk s) (h : decodeStep s = .next t) :
    t.out.length ≤ s.out.length + 3840 := by
  obtain ⟨f, hf, -⟩ := hrun.format
  cases hr : readCode s with
  | hold u =>
    have hframe := readCode_frame (.inr (.inr hr))
    rw [decodeStep_hold hf hr, Host.Outcome.next.injEq] at h
    rw [← h, hframe]
    exact Nat.le_add_right _ _
  | ended u =>
    have hframe := readCode_frame (.inr (.inl hr))
    rw [decodeStep_ended hf hr, Host.Outcome.next.injEq] at h
    rw [← h, hframe]
    exact Nat.le_add_right _ _
  | code c u =>
    have hframe := readCode_frame (.inl ⟨c, hr⟩)
    have hdict : u.dict = s.dict := by rw [hframe]
    have hsize : u.dictSize = s.dictSize := by rw [hframe]
    have hout : u.out = s.out := by rw [hframe]
    have hcode : runCode f c u = .next t := by simpa [decodeStep, hf, hr] using h
    rw [← hout]
    exact runCode_out_length_le (dictOk_congr hdict hsize hrun.dict)
      (hsize ▸ runOk_dictSize_le hrun) hcode

/-- A turn that does not run an iteration pushes nothing; one that does is bounded by its
sequence. -/
theorem engineTurn_out_length_le {s t : State} (hok : MachineOk s) (h : engineTurn s = .next t) :
    t.out.length ≤ s.out.length + 3840 := by
  by_cases hpending : outPending s = true
  · obtain ⟨n, a, htake, -⟩ := sinkTake_frame s
    rw [engineTurn_pending hpending, Host.Outcome.next.injEq] at h
    have hout : t.out = s.out := by
      rw [← h]
      split_ifs
      · rw [htake]
      · rfl
    rw [hout]
    omega
  · rw [Bool.not_eq_true] at hpending
    by_cases hphase : s.phase = .run
    · rw [engineTurn_run hphase hpending hok.noneRaised] at h
      exact decodeStep_out_length_le (hok.run hphase) h
    · rw [engineTurn_rest hphase hpending, Host.Outcome.next.injEq] at h
      rw [h]
      omega

/-- Settles O56: by the bound on the sequences that a step can push, and `STACK_DEPTH` as R7 gives
it. -/
theorem noSequenceIsLongerThan3840 : Obligations.NoSequenceIsLongerThan3840 := by
  intro s t hok hmoves hstep
  rw [step_of_moves_nil hmoves] at hstep
  exact ⟨engineTurn_out_length_le hok hstep, by decide⟩

end Sys2Proof.Machine
end

section
/-! All that a turn of the engine can do (R150, R190, R226), once: each lemma lists the ways in which
one function of the loop answers a next state. -/

namespace Sys2Proof.Machine

/-- A code that is run raises one of its two faults, or its sequence goes through steps 3 to 6. -/
theorem runCode_cases {f : Format} {c : Code} {s t : State} (h : runCode f c s = .next t) :
    (∃ k c', (k = .invalidCode ∨ k = .noPrevious) ∧ t = raiseFault k c' s) ∨
    (∃ i seq, decodeCode (selectorOf f s) c = .ok i ∧
      (i.codeClass = .known ∨ i.codeClass = .kwkwk) ∧ operandSequence i s = .ok seq ∧
      finishCode i.code seq s = .next t) := by
  unfold runCode at h
  cases hd : decodeCode (selectorOf f s) c with
  | error e =>
    simp only [hd, Host.Outcome.next.injEq] at h
    exact .inl ⟨.noPrevious, c, .inr rfl, h.symm⟩
  | ok i =>
    simp only [hd] at h
    by_cases hc : i.codeClass = .known ∨ i.codeClass = .kwkwk
    · obtain ⟨seq, hseq, hfin⟩ := operand_of_exec hc h
      exact .inr ⟨i, seq, rfl, hc, hseq, hfin⟩
    · obtain ⟨k, hk, hex⟩ := exec_of_illegal hc
      rw [hex, Host.Outcome.next.injEq] at h
      exact .inl ⟨k, i.code, hk, h.symm⟩

/-- An iteration holds, ends the run, or runs the code that was read. -/
theorem decodeStep_cases {s t : State} (h : decodeStep s = .next t) :
    readCode s = .hold t ∨
    (∃ u, readCode s = .ended u ∧ t = endSpent (endOfRun u)) ∨
    (∃ f c u, formatOf s.codeSize.toNat = some f ∧ readCode s = .code c u ∧
      runCode f c u = .next t) := by
  unfold decodeStep at h
  cases hf : formatOf s.codeSize.toNat with
  | none => simp [hf] at h
  | some f =>
    cases hr : readCode s with
    | hold u =>
      simp only [hf, hr, Host.Outcome.next.injEq] at h
      exact .inl (by rw [h])
    | ended u =>
      simp only [hf, hr, Host.Outcome.next.injEq] at h
      exact .inr (.inl ⟨u, rfl, h.symm⟩)
    | code c u =>
      simp only [hf, hr] at h
      exact .inr (.inr ⟨f, c, u, rfl, rfl, h⟩)

/-- A turn leaves the state alone, gives the sink its byte, enters the fault that waited, or is an
iteration. -/
theorem engineTurn_cases {s t : State} (h : engineTurn s = .next t) :
    t = s ∨ t = sinkTake s ∨ (∃ k c, s.raised = some (k, c) ∧ t = takeFault k c s) ∨
    (s.phase = .run ∧ outPending s = false ∧ decodeStep s = .next t) := by
  cases hpend : outPending s with
  | true =>
    rw [engineTurn_pending hpend, Host.Outcome.next.injEq] at h
    split_ifs at h
    · exact .inr (.inl h.symm)
    · exact .inl h.symm
  | false =>
    by_cases hphase : s.phase = .run
    · cases hraised : s.raised with
      | none =>
        rw [engineTurn_run hphase hpend hraised] at h
        exact .inr (.inr (.inr ⟨hphase, rfl, h⟩))
      | some kc =>
        rw [engineTurn_raised hphase hpend hraised, Host.Outcome.next.injEq] at h
        exact .inr (.inr (.inl ⟨kc.1, kc.2, rfl, h.symm⟩))
    · rw [engineTurn_rest hphase hpend, Host.Outcome.next.injEq] at h
      exact .inl h.symm

end Sys2Proof.Machine
end

section
/-! The output only grows (R32, R55, R65). -/

namespace Sys2Proof.Machine

/-- The output and the bytes that the sink has taken are kept, and more may stand behind them. -/
def OutputGrows (s t : State) : Prop := s.out <+: t.out ∧ s.accepted <+: t.accepted

theorem outputGrows_of_eq {s t : State} (hout : t.out = s.out) (hacc : t.accepted = s.accepted) :
    OutputGrows s t := ⟨by rw [hout], by rw [hacc]⟩

theorem outputGrows_trans {s t u : State} (h₁ : OutputGrows s t) (h₂ : OutputGrows t u) :
    OutputGrows s u := ⟨h₁.1.trans h₂.1, h₁.2.trans h₂.2⟩

theorem sinkTake_outputGrows (s : State) : OutputGrows s (sinkTake s) := by
  obtain ⟨n, a, htake, hprefix⟩ := sinkTake_frame s
  rw [htake]
  exact ⟨List.prefix_refl _, hprefix⟩

theorem outPush_outputGrows (s : State) (b : Byte) : OutputGrows s (outPush s b) := by
  have hpush : OutputGrows s { s with out := s.out ++ [b] } :=
    ⟨List.prefix_append _ _, List.prefix_refl _⟩
  unfold outPush
  dsimp only
  split_ifs
  · exact outputGrows_trans hpush (sinkTake_outputGrows _)
  · exact hpush

theorem outPushAll_outputGrows (s : State) (seq : List Byte) : OutputGrows s (outPushAll s seq) := by
  induction seq generalizing s with
  | nil => exact outputGrows_of_eq rfl rfl
  | cons b seq ih => exact outputGrows_trans (outPush_outputGrows s b) (ih (outPush s b))

@[simp] theorem growthStep_accepted (s : State) : (growthStep s).accepted = s.accepted := by
  rcases growthStep_cases s with ⟨-, -, h⟩ | ⟨-, -, h⟩ | ⟨-, h⟩ <;> simp [h]

/-- Of steps 3 to 6 the output step alone gives bytes to the sink (R155). -/
theorem finishCode_accepted {c : Code} {seq : List Byte} {s t : State}
    (h : finishCode c seq s = .next t) : t.accepted = (outPushAll s seq).accepted := by
  cases seq with
  | nil => simp [finishCode] at h
  | cons first rest =>
    simp only [finishCode] at h
    rcases appendStep_cases first (outPushAll s (first :: rest)) with
      ⟨-, hr⟩ | ⟨-, -, hr⟩ | ⟨-, -, -, hr⟩ | ⟨-, -, p, -, hr⟩ <;>
      simp only [hr, Host.Outcome.next.injEq, reduceCtorEq] at h <;> simp [← h]

theorem finishCode_outputGrows {c : Code} {seq : List Byte} {s t : State}
    (h : finishCode c seq s = .next t) : OutputGrows s t :=
  ⟨by rw [finishCode_out h]; exact List.prefix_append _ _,
    by rw [finishCode_accepted h]; exact (outPushAll_outputGrows s seq).2⟩

theorem runCode_outputGrows {f : Format} {c : Code} {s t : State} (h : runCode f c s = .next t) :
    OutputGrows s t := by
  rcases runCode_cases h with ⟨k, c', -, rfl⟩ | ⟨i, seq, -, -, -, hfin⟩
  · exact outputGrows_of_eq (raiseFault_out _ _ _) (raiseFault_accepted _ _ _)
  · exact finishCode_outputGrows hfin

theorem readCode_outputGrows {s t : State}
    (h : (∃ c, readCode s = .code c t) ∨ readCode s = .ended t ∨ readCode s = .hold t) :
    OutputGrows s t := by
  rw [readCode_frame h]
  exact outputGrows_of_eq rfl rfl

theorem decodeStep_outputGrows {s t : State} (h : decodeStep s = .next t) : OutputGrows s t := by
  rcases decodeStep_cases h with hread | ⟨u, hread, rfl⟩ | ⟨f, c, u, -, hread, hrun⟩
  · exact readCode_outputGrows (.inr (.inr hread))
  · have hu : OutputGrows s u := readCode_outputGrows (.inr (.inl hread))
    exact outputGrows_trans hu (outputGrows_of_eq rfl rfl)
  · have hu : OutputGrows s u := readCode_outputGrows (.inl ⟨c, hread⟩)
    exact outputGrows_trans hu (runCode_outputGrows hrun)

theorem engineTurn_outputGrows {s t : State} (h : engineTurn s = .next t) : OutputGrows s t := by
  rcases engineTurn_cases h with rfl | rfl | ⟨k, c, -, rfl⟩ | ⟨-, -, hdecode⟩
  · exact outputGrows_of_eq rfl rfl
  · exact sinkTake_outputGrows s
  · exact outputGrows_of_eq rfl rfl
  · exact decodeStep_outputGrows hdecode

/-- Settles O49: with no move scheduled the step is the engine's turn, and each of its ways only adds
to the output and to what the sink has taken. -/
theorem outputOnlyGrows : Obligations.OutputOnlyGrows := by
  intro s t hmoves hstep
  rw [step_of_moves_nil hmoves] at hstep
  exact engineTurn_outputGrows hstep

end Sys2Proof.Machine
end

section
/-! `ReadCode` under the reader's invariant (R28, R110, R114), and the position in the stream (R30). -/

namespace Sys2Proof.Machine

/-- What an answer of the reader means: a code takes its width out of the stream and leaves fewer
than eight bits; the end and a hold leave the position, and fewer bits than a code has. -/
def ReadKeeps (s : State) : ReadResult → Prop
  | .code c t =>
    c.toNat < 2 ^ s.codeSize.toNat ∧ ReaderOk t ∧ t.nbits.toNat ≤ 7 ∧
      bitPos t = bitPos s + s.codeSize.toNat ∧ s.inPos ≤ t.inPos
  | .ended t | .hold t =>
    ReaderOk t ∧ t.nbits.toNat < t.codeSize.toNat ∧ bitPos t = bitPos s ∧ s.inPos ≤ t.inPos

/-- The code is there: what `EXTRACT` answers (R112). -/
theorem extract_readKeeps {s : State} (h : ReaderOk s) (hw : s.codeSize.toNat ≤ 12)
    (hle : s.codeSize.toNat ≤ s.nbits.toNat) (hup : s.nbits.toNat < s.codeSize.toNat + 8) :
    ReadKeeps s (.code (extractCode s) (extractRest s)) := by
  obtain ⟨-, hok, hpos⟩ := extract_readerOk h hle
  have hcode : (extractCode s).toNat < 2 ^ s.codeSize.toNat := by
    rw [extractCode_toNat hw]
    exact Nat.mod_lt _ (Nat.two_pow_pos _)
  have hrest : (extractRest s).nbits.toNat ≤ 7 := by
    rw [extractRest_nbits_toNat]
    omega
  exact ⟨hcode, hok, hrest, hpos, le_refl _⟩

/-- What is read after a refill is read from the state before it (R111). -/
theorem readKeeps_of_refill {s : State} {b : Byte} {r : ReadResult}
    (hpos : bitPos (refill b s) = bitPos s) (h : ReadKeeps (refill b s) r) : ReadKeeps s r := by
  cases r with
  | code c t =>
    obtain ⟨hcode, hok, hrest, hmoved, hin⟩ := h
    exact ⟨hcode, hok, hrest, by rw [hmoved, hpos]; rfl, (Nat.le_succ _).trans hin⟩
  | ended t | hold t =>
    obtain ⟨hok, hfew, hmoved, hin⟩ := h
    exact ⟨hok, hfew, hmoved.trans hpos, (Nat.le_succ _).trans hin⟩

theorem readLoop_readKeeps (n : Nat) {s : State} (h : ReaderOk s) (hw : s.codeSize.toNat ≤ 12)
    (hlow : s.codeSize.toNat ≤ s.nbits.toNat + 8 * n)
    (hup : s.nbits.toNat < s.codeSize.toNat + 8) : ReadKeeps s (readLoop n s) := by
  induction n generalizing s with
  | zero => exact extract_readKeeps h hw hlow hup
  | succ n ih =>
    simp only [readLoop]
    split_ifs with hlt
    · cases ha : inAvail s with
      | byte b =>
        obtain ⟨hok, hpos, hn⟩ := refill_readerOk h (by omega) (inAvail_byte.1 ha)
        have hw' : (refill b s).codeSize.toNat = s.codeSize.toNat := rfl
        exact readKeeps_of_refill hpos (ih hok hw (by omega) (by omega))
      | ended | wait => exact ⟨h, hlt, rfl, le_refl _⟩
    · exact extract_readKeeps h hw (by omega) hup

/-- `ReadCode` between two iterations of a run (R114): two refills reach a code of any width. -/
theorem readCode_readKeeps {s : State} (h : ReaderOk s) (hw : s.codeSize.toNat ≤ 12)
    (hfew : s.nbits.toNat < s.codeSize.toNat) : ReadKeeps s (readCode s) :=
  readLoop_readKeeps 2 h hw (by omega) (by omega)

/-- The width of a run is that of its format (R21, R40 (a)). -/
theorem runOk_codeSize {s : State} (h : RunOk s) : 9 ≤ s.codeSize.toNat ∧ s.codeSize.toNat ≤ 12 := by
  obtain ⟨f, hf, -⟩ := h.format
  obtain ⟨-, -, -, -, hlow, hup⟩ := format_facts f
  rw [← formatOf_bits hf]
  exact ⟨hlow, hup⟩

/-- The invariant of the machine is what `ReadCode` needs in a run. -/
theorem machineOk_readKeeps {s : State} (h : MachineOk s) (hphase : s.phase = .run) :
    ReadKeeps s (readCode s) := by
  obtain ⟨hreader, hfew⟩ := h.reader (by simp [hphase])
  exact readCode_readKeeps hreader (runOk_codeSize (h.run hphase)).2 hfew

/-! ### The position -/

/-- The reader's registers and the input at the source are the same in both states. -/
structure SameReader (s t : State) : Prop where
  acc : t.acc = s.acc
  nbits : t.nbits = s.nbits
  inPos : t.inPos = s.inPos
  inBytes : t.inBytes = s.inBytes

theorem sameReader_bitPos {s t : State} (h : SameReader s t) : bitPos t = bitPos s := by
  simp only [bitPos, h.nbits, h.inPos]

/-- The invariant looks at the registers and at the bytes consumed, not at those still to come. -/
theorem readerOk_of_taken {s t : State} (hacc : t.acc = s.acc) (hnbits : t.nbits = s.nbits)
    (hinPos : t.inPos = s.inPos) (htaken : t.inBytes.take s.inPos = s.inBytes.take s.inPos)
    (h : ReaderOk s) : ReaderOk t where
  cursor := by
    have hlen := congrArg List.length htaken
    have hcursor := h.cursor
    simp only [List.length_take] at hlen
    omega
  held := by rw [hnbits, hinPos]; exact h.held
  bits := by
    have hpos : bitPos t = bitPos s := by simp only [bitPos, hnbits, hinPos]
    rw [hacc, hpos, hinPos, ← bitString_take, htaken, bitString_take]
    exact h.bits

theorem sameReader_readerOk {s t : State} (h : SameReader s t) (hok : ReaderOk s) : ReaderOk t :=
  readerOk_of_taken h.acc h.nbits h.inPos (by rw [h.inBytes]) hok

theorem sinkTake_sameReader (s : State) : SameReader s (sinkTake s) := by
  obtain ⟨n, a, htake, -⟩ := sinkTake_frame s
  rw [htake]
  exact ⟨rfl, rfl, rfl, rfl⟩

/-- The meaning of a code moves no input (R150). -/
theorem runCode_sameReader {f : Format} {c : Code} {s t : State} (h : runCode f c s = .next t) :
    SameReader s t := by
  rcases runCode_cases h with ⟨k, c', -, rfl⟩ | ⟨i, seq, -, -, -, hfin⟩
  · constructor <;> simp
  · obtain ⟨-, ⟨-, heffect⟩ | ⟨-, -, -, rfl⟩⟩ := finishCode_cases hfin
    · obtain ⟨hacc, hnbits, hinPos⟩ := heffect.keepsReader
      exact ⟨hacc, hnbits, hinPos, heffect.keepsOutside.1⟩
    · obtain ⟨n, a, hout, -⟩ := outPushAll_cases s seq
      constructor <;> simp [hout]

/-- The position has not moved back, and is within the input. -/
def PositionAdvances (s t : State) : Prop :=
  bitPos s ≤ bitPos t ∧ bitPos t ≤ 8 * t.inBytes.length ∧ s.inPos ≤ t.inPos

/-- The consumed bytes bound the position (R28, R30). -/
theorem readerOk_bitPos_le {s : State} (h : ReaderOk s) : bitPos s ≤ 8 * s.inBytes.length := by
  have hcursor := h.cursor
  unfold bitPos
  omega

theorem sameReader_positionAdvances {s t : State} (h : SameReader s t) (hok : ReaderOk s) :
    PositionAdvances s t :=
  ⟨(sameReader_bitPos h).ge, readerOk_bitPos_le (sameReader_readerOk h hok), h.inPos.ge⟩

theorem decodeStep_positionAdvances {s t : State} (hok : MachineOk s) (hphase : s.phase = .run)
    (h : decodeStep s = .next t) : PositionAdvances s t := by
  have hkeeps := machineOk_readKeeps hok hphase
  rcases decodeStep_cases h with hread | ⟨u, hread, rfl⟩ | ⟨f, c, u, -, hread, hrun⟩ <;>
    rw [hread] at hkeeps
  · obtain ⟨hreader, -, hpos, hin⟩ := hkeeps
    exact ⟨hpos.ge, readerOk_bitPos_le hreader, hin⟩
  · obtain ⟨hreader, -, hpos, hin⟩ := hkeeps
    exact ⟨hpos.ge, (readerOk_bitPos_le hreader :), hin⟩
  · obtain ⟨-, hreader, -, hpos, hin⟩ := hkeeps
    obtain ⟨hle, hbound, hin'⟩ := sameReader_positionAdvances (runCode_sameReader hrun) hreader
    exact ⟨by omega, hbound, hin.trans hin'⟩

/-- Settles O50: only `ReadCode` moves the position, by the width of the code that it delivers, and
the reader's invariant bounds it by the bytes consumed. -/
theorem positionNeverMovesBack : Obligations.PositionNeverMovesBack := by
  intro s t hok hmoves hphase hstep
  obtain ⟨hreader, -⟩ := hok.reader (by simp [hphase])
  rw [step_of_moves_nil hmoves] at hstep
  rcases engineTurn_cases hstep with rfl | rfl | ⟨k, c, -, rfl⟩ | ⟨-, -, hdecode⟩
  · exact sameReader_positionAdvances ⟨rfl, rfl, rfl, rfl⟩ hreader
  · exact sameReader_positionAdvances (sinkTake_sameReader s) hreader
  · exact sameReader_positionAdvances ⟨rfl, rfl, rfl, rfl⟩ hreader
  · exact decodeStep_positionAdvances hok hphase hdecode

end Sys2Proof.Machine
end

section
/-! An iteration keeps the decoder's invariant (R40, R138, R164, R166). -/

namespace Sys2Proof.Machine

/-! ### The class of a code that runs -/

/-- What the decoder has told of a code of a legal class (R84). -/
def CodeIsLegal (i : Instr) (s : State) : Prop :=
  (i.codeClass = .known ∧ i.code.toNat < s.dictSize.toNat) ∨
  (i.codeClass = .kwkwk ∧ i.code.toNat = s.dictSize.toNat ∧ s.firstOfEpoch = false)

theorem classify_known {σ : Selector} {c : Nat} (h : classify σ c = .known) :
    c < σ.dictSize.toNat := by
  unfold classify at h
  split_ifs at h with hlt
  exact hlt

theorem classify_kwkwk {σ : Selector} {c : Nat} (h : classify σ c = .kwkwk) :
    c = σ.dictSize.toNat ∧ σ.firstOfEpoch = false := by
  unfold classify at h
  split_ifs at h with hlt heq hfirst
  exact ⟨heq, by simpa using hfirst⟩

theorem decodeCode_codeIsLegal {f : Format} {c : Code} {i : Instr} {s : State}
    (hc : c.toNat < 2 ^ f.bits) (h : decodeCode (selectorOf f s) c = .ok i)
    (hclass : i.codeClass = .known ∨ i.codeClass = .kwkwk) : CodeIsLegal i s := by
  unfold decodeCode at h
  cases hrow : rowInstr (classify (selectorOf f s) c.toNat) (selectorOf f s).format c with
  | none => simp [hrow] at h
  | some j =>
    simp only [hrow, Except.ok.injEq] at h
    subst h
    obtain ⟨hk, -, hcode⟩ := rowInstr_spec hrow hc
    rw [CodeIsLegal, hcode]
    rcases hclass with hclass | hclass <;> rw [hclass] at hk
    · exact .inl ⟨hclass, classify_known hk.symm⟩
    · exact .inr ⟨hclass, classify_kwkwk hk.symm⟩

/-! ### The dictionary -/

/-- The baseline of an epoch, read entry by entry (R52, R131). -/
theorem dictOk_of_baseline {s : State} (hsize : s.dictSize.toNat = 256)
    (hread : ∀ i, memRead s.dict i =
      if i < 256 then some { sym := BitVec.ofNat 8 i, parent := none } else none) : DictOk s where
  singleton b hb := by rw [hread, if_pos hb]
  dynamic i hlow hlive := by omega
  dead i hi := by rw [hread, if_neg (by omega)]

theorem dictOk_of_sameReads {s t : State} (h : DictOk s)
    (hsize : t.dictSize.toNat = s.dictSize.toNat)
    (hread : ∀ i, memRead t.dict i = memRead s.dict i) : DictOk t where
  singleton b hb := (hread b).trans (h.singleton b hb)
  dynamic i hlow hlive := by rw [hread]; exact h.dynamic i hlow (hsize ▸ hlive)
  dead i hi := by rw [hread]; exact h.dead i (hsize ▸ hi)

/-- One more entry, whose parent was live, keeps every chain descending (R132, R138). -/
theorem dictOk_of_append {s t : State} {b : Byte} {p : Code} (h : DictOk s)
    (hlow : 256 ≤ s.dictSize.toNat) (hp : p.toNat < s.dictSize.toNat)
    (hsize : t.dictSize.toNat = s.dictSize.toNat + 1)
    (hnew : memRead t.dict s.dictSize.toNat = some { sym := b, parent := some p })
    (hold : ∀ i, i ≠ s.dictSize.toNat → memRead t.dict i = memRead s.dict i) : DictOk t where
  singleton c hc := (hold c (by omega)).trans (h.singleton c hc)
  dynamic i hi hlive := by
    by_cases heq : i = s.dictSize.toNat
    · exact ⟨_, p, heq ▸ hnew, rfl, heq ▸ hp⟩
    · rw [hold i heq]
      exact h.dynamic i hi (by omega)
  dead i hi := (hold i (by omega)).trans (h.dead i (by omega))

/-- The sequence of an appended entry is its parent's and one byte more (R139). -/
theorem reconstruct_of_append {s t : State} {b : Byte} {p : Code} {w : List Byte}
    (hsize : t.dictSize.toNat = s.dictSize.toNat + 1)
    (hnew : memRead t.dict s.dictSize.toNat = some { sym := b, parent := some p })
    (hold : ∀ i, i < s.dictSize.toNat → memRead t.dict i = memRead s.dict i)
    (hw : reconstruct s p.toNat = .ok w) (hlen : w.length < 4096) :
    reconstruct t s.dictSize.toNat = .ok (w ++ [b]) := by
  have hparent : chainWalk s 4095 p.toNat = .ok w.reverse := by
    obtain ⟨-, hwalk⟩ := chainWalk_length (reconstruct_ok.1 hw)
    exact chainWalk_mono hwalk (by rw [List.length_reverse]; omega)
  have hread : dictRead t s.dictSize.toNat = .ok { sym := b, parent := some p } :=
    dictRead_ok.2 ⟨by omega, hnew⟩
  rw [reconstruct_ok, List.reverse_append]
  exact chainWalk_link hread rfl (chainWalk_extend (by omega) hold hparent)

/-! ### An iteration of a legal code -/

/-- The growth test of this iteration does not end the epoch (R158, R160). -/
def EpochGoesOn (s : State) : Prop := reachesThreshold s → s.codeSize.toNat < 12

theorem effect_epochGoesOn {c : Code} {seq : List Byte} {s t : State}
    (he : IterationEffect c seq s t) (hgo : EpochGoesOn s) :
    t.dictSize.toNat = sizeAfterAppend s ∧ t.firstOfEpoch = false := by
  by_cases hthr : reachesThreshold s
  · exact (he.widens hthr (hgo hthr)).2
  · exact (he.stays hthr).2

theorem sizeAfterAppend_first {s : State} (h : s.firstOfEpoch = true) :
    sizeAfterAppend s = s.dictSize.toNat := by simp [sizeAfterAppend, h]

theorem sizeAfterAppend_later {s : State} (h : s.firstOfEpoch = false) :
    sizeAfterAppend s = s.dictSize.toNat + 1 := by simp [sizeAfterAppend, h]

theorem sizeAfterAppend_bounds (s : State) :
    s.dictSize.toNat ≤ sizeAfterAppend s ∧ sizeAfterAppend s ≤ s.dictSize.toNat + 1 := by
  unfold sizeAfterAppend
  split_ifs <;> omega

/-- The baseline is never taken away: `dictSize` is at least 256 in a run (R40 (b)). -/
theorem runOk_le_dictSize {s : State} (h : RunOk s) : 256 ≤ s.dictSize.toNat := by
  obtain ⟨f, -, hlegal⟩ := h.format
  obtain ⟨hmin, -, -⟩ := (legal_iff _).1 hlegal
  obtain ⟨-, hlow, -⟩ := format_facts f
  exact hlow.trans hmin

/-- A format's segment begins at its smallest size (R91). -/
theorem legal_at_minDictSize {f : Format} {s : State} (hsize : s.dictSize.toNat = f.minDictSize)
    (hfirst : s.firstOfEpoch = false) : (selectorOf f s).legal = true := by
  obtain ⟨-, -, hle, -⟩ := format_facts f
  exact (legal_iff _).2 ⟨hsize.ge, hsize.trans_le hle, by simp [selectorOf, hfirst]⟩

/-- The schedule of the widths (R91): below the threshold the format stays, at it the next format
begins at its smallest size, and after the last one comes a new epoch. -/
theorem effect_format {c : Code} {seq : List Byte} {s t : State} (h : RunOk s)
    (he : IterationEffect c seq s t) :
    ∃ f, formatOf t.codeSize.toNat = some f ∧ (selectorOf f t).legal = true := by
  obtain ⟨f, hf, hlegal⟩ := h.format
  obtain ⟨hmin, hmax, -⟩ := (legal_iff _).1 hlegal
  have hmin' : f.minDictSize ≤ s.dictSize.toNat := hmin
  have hmax' : s.dictSize.toNat ≤ f.maxDictSize := hmax
  have hbits : s.codeSize.toNat = f.bits := (formatOf_bits hf).symm
  obtain ⟨hge, hle⟩ := sizeAfterAppend_bounds s
  obtain ⟨-, -, -, hpow, -⟩ := format_facts f
  have hthr : reachesThreshold s ↔ sizeAfterAppend s = f.maxDictSize + 1 := by
    rw [reachesThreshold, hbits, ← hpow]
    rfl
  by_cases hreach : reachesThreshold s
  · by_cases hwide : s.codeSize.toNat < 12
    · obtain ⟨hcode, hsize, hfirst⟩ := he.widens hreach hwide
      rw [hthr.1 hreach] at hsize
      rw [hbits] at hcode hwide
      cases f with
      | c9 => exact ⟨.c10, by rw [hcode]; rfl, legal_at_minDictSize hsize hfirst⟩
      | c10 => exact ⟨.c11, by rw [hcode]; rfl, legal_at_minDictSize hsize hfirst⟩
      | c11 => exact ⟨.c12, by rw [hcode]; rfl, legal_at_minDictSize hsize hfirst⟩
      | c12 => exact absurd hwide (lt_irrefl 12)
    · obtain ⟨hcode, hsize, -⟩ := he.resets hreach (not_lt.1 hwide)
      exact ⟨.c9, by rw [hcode]; rfl, by
        simp [legal_iff, selectorOf, hsize, Format.minDictSize, Format.maxDictSize]⟩
  · obtain ⟨hcode, hsize, hfirst⟩ := he.stays hreach
    refine ⟨f, by rw [hcode]; exact hf, (legal_iff _).2 ⟨?_, ?_, ?_⟩⟩
    · exact hmin'.trans (hsize ▸ hge)
    · have hne : sizeAfterAppend s ≠ f.maxDictSize + 1 := fun heq => hreach (hthr.2 heq)
      show t.dictSize.toNat ≤ f.maxDictSize
      omega
    · simp [selectorOf, hfirst]

/-- The dictionary of the next iteration (R40 (f)): the baseline after an epoch reset, else what it
was with at most one entry more. -/
theorem effect_dictOk {c : Code} {seq : List Byte} {s t : State} (h : RunOk s)
    (he : IterationEffect c seq s t) : DictOk t := by
  by_cases hgo : EpochGoesOn s
  · obtain ⟨hsize, -⟩ := effect_epochGoesOn he hgo
    have hold := he.keepsEntries hgo
    cases hfirst : s.firstOfEpoch with
    | true =>
      rw [sizeAfterAppend_first hfirst] at hsize
      exact dictOk_of_sameReads h.dict hsize fun i => hold i (by simp [hfirst])
    | false =>
      rw [sizeAfterAppend_later hfirst] at hsize
      obtain ⟨b, p, -, hprev, hnew⟩ := he.appends hfirst hgo
      obtain ⟨p', b', w, hprev', -, hlive, -⟩ := h.previous hfirst
      obtain rfl : p = p' := Option.some.inj (hprev.symm.trans hprev')
      exact dictOk_of_append h.dict (runOk_le_dictSize h) hlive hsize hnew fun i hi =>
        hold i fun _ => hi
  · simp only [EpochGoesOn, Classical.not_imp, not_lt] at hgo
    obtain ⟨-, hsize, -, hread⟩ := he.resets hgo.1 hgo.2
    exact dictOk_of_baseline hsize hread

/-- After its iteration a code stands for the sequence that it gave out, also the `KWKWK` code, whose
entry the iteration itself appended (R142, R166). -/
theorem effect_reconstruct {i : Instr} {seq : List Byte} {s t : State} (h : RunOk s)
    (hlegal : CodeIsLegal i s) (hseq : operandSequence i s = .ok seq)
    (he : IterationEffect i.code seq s t) (hgo : EpochGoesOn s) :
    reconstruct t i.code.toNat = .ok seq := by
  obtain ⟨hsize, -⟩ := effect_epochGoesOn he hgo
  have hold : ∀ j, j < s.dictSize.toNat → memRead t.dict j = memRead s.dict j := fun j hj =>
    he.keepsEntries hgo j fun _ => hj.ne
  rcases hlegal with ⟨hclass, -⟩ | ⟨hclass, hcode, hfirst⟩ <;>
    simp only [operandSequence, hclass] at hseq
  · exact reconstruct_extend (hsize ▸ (sizeAfterAppend_bounds s).1) hold hseq
  · rw [sizeAfterAppend_later hfirst] at hsize
    obtain ⟨p, b, w, hprev, hb, hw, rfl⟩ := seqKwkwk_ok.1 hseq
    obtain ⟨b', p', hhead, hprev', hnew⟩ := he.appends hfirst hgo
    obtain ⟨p'', b'', w', hprev'', hb'', -, hw'⟩ := h.previous hfirst
    obtain rfl : p = p' := Option.some.inj (hprev.symm.trans hprev')
    obtain rfl : p = p'' := Option.some.inj (hprev.symm.trans hprev'')
    obtain rfl : b = b'' := Option.some.inj (hb.symm.trans hb'')
    obtain rfl : w = b :: w' := Except.ok.inj (hw.symm.trans hw')
    obtain rfl : b = b' := by simpa using hhead
    have hlen := reconstruct_length_lt h.dict (runOk_dictSize_le h) hw
    rw [hcode]
    exact reconstruct_of_append hsize hnew hold hw (by omega)

/-- The previous pair of the next iteration (R40 (e), R157, R164). -/
theorem effect_previousOk {i : Instr} {seq : List Byte} {s t : State} (h : RunOk s)
    (hlegal : CodeIsLegal i s) (hseq : operandSequence i s = .ok seq) (hne : seq ≠ [])
    (he : IterationEffect i.code seq s t) : PreviousOk t := by
  intro hfirst
  have hgo : EpochGoesOn s := by
    intro hthr
    by_contra hwide
    obtain ⟨-, -, hfirst', -⟩ := he.resets hthr (not_lt.1 hwide)
    simp [hfirst] at hfirst'
  have hrec := effect_reconstruct h hlegal hseq he hgo
  obtain ⟨b, w, rfl⟩ := List.exists_cons_of_ne_nil hne
  exact ⟨i.code, b, w, he.prevCode, he.prevFirst, reconstruct_live hrec, hrec⟩

theorem effect_runOk {i : Instr} {seq : List Byte} {s t : State} (h : RunOk s)
    (hlegal : CodeIsLegal i s) (hseq : operandSequence i s = .ok seq) (hne : seq ≠ [])
    (he : IterationEffect i.code seq s t) : RunOk t where
  format := effect_format h he
  dict := effect_dictOk h he
  previous := effect_previousOk h hlegal hseq hne he

/-- In a run an append finds room and a previous code (R165). -/
theorem runOk_finishCode {c : Code} {seq : List Byte} {s t : State} (h : RunOk s)
    (hfin : finishCode c seq s = .next t) : seq ≠ [] ∧ IterationEffect c seq s t := by
  obtain ⟨hne, ⟨-, he⟩ | ⟨-, -, hfull, -⟩⟩ := finishCode_cases hfin
  · exact ⟨hne, he⟩
  · have hsize := runOk_dictSize_le h
    omega

end Sys2Proof.Machine
end

section
/-! Every step keeps the invariant of the machine (R28, R40, R52, R65, R200). -/

namespace Sys2Proof.Machine

/-! ### What the invariant looks at -/

/-- The registers of the decoder are the same in both states (R202). -/
structure SameDecoder (s t : State) : Prop where
  codeSize : t.codeSize = s.codeSize
  dictSize : t.dictSize = s.dictSize
  prevCode : t.prevCode = s.prevCode
  prevFirst : t.prevFirst = s.prevFirst
  firstOfEpoch : t.firstOfEpoch = s.firstOfEpoch
  dict : t.dict = s.dict

/-- The status registers, and the fault that waits, are the same in both states. -/
structure SameStatus (s t : State) : Prop where
  phase : t.phase = s.phase
  cause : t.cause = s.cause
  faultCode : t.faultCode = s.faultCode
  raised : t.raised = s.raised

theorem sameDecoder_runOk {s t : State} (hd : SameDecoder s t) (h : RunOk s) : RunOk t where
  format := by
    obtain ⟨f, hf, hlegal⟩ := h.format
    refine ⟨f, by rw [hd.codeSize]; exact hf, ?_⟩
    simpa only [selectorOf, hd.dictSize, hd.firstOfEpoch] using hlegal
  dict := dictOk_congr hd.dict hd.dictSize h.dict
  previous hfirst := by
    rw [hd.firstOfEpoch] at hfirst
    obtain ⟨p, b, w, hprev, hb, hlive, hrec⟩ := h.previous hfirst
    refine ⟨p, b, w, hd.prevCode.trans hprev, hd.prevFirst.trans hb, by rwa [hd.dictSize], ?_⟩
    rwa [reconstruct_congr hd.dict hd.dictSize]

/-- The reader's part of the invariant (R28, R115): fewer bits are held than a code has. -/
def ReaderRests (s : State) : Prop := ReaderOk s ∧ s.nbits.toNat < s.codeSize.toNat

theorem readerRests_of_same {s t : State} (hr : SameReader s t) (hw : t.codeSize = s.codeSize)
    (h : ReaderRests s) : ReaderRests t :=
  ⟨sameReader_readerOk hr h.1, by rw [hr.nbits, hw]; exact h.2⟩

/-- A turn that leaves decoder and status alone has only its streams to answer for. -/
theorem machineOk_of_streams {s t : State} (h : MachineOk s) (hd : SameDecoder s t)
    (hs : SameStatus s t) (hsink : SinkOk t)
    (hend : s.phase = .done ∨ s.phase = .fault → t.outTaken = t.out.length)
    (hreader : s.phase ≠ .idle → ReaderRests t) : MachineOk t where
  memory := by rw [hd.dict]; exact h.memory
  causeSet := by rw [hs.cause, hs.phase]; exact h.causeSet
  faultCodeSet := by rw [hs.faultCode, hs.phase]; exact h.faultCodeSet
  taken := hsink.1
  endTaken := by rw [hs.phase]; exact hend
  noneRaised := hs.raised.trans h.noneRaised
  sink := hsink.2
  reader := by rw [hs.phase]; exact hreader
  run := by rw [hs.phase]; exact fun hrun => sameDecoder_runOk hd (h.run hrun)

/-- The bytes consumed are all that the invariant says of the source. -/
theorem source_machineOk {s : State} (bytes : List Byte) (ended : Bool) (h : MachineOk s)
    (htaken : s.phase ≠ .idle → bytes.take s.inPos = s.inBytes.take s.inPos) :
    MachineOk { s with inBytes := bytes, inEnd := ended } := by
  refine machineOk_of_streams h (by constructor <;> rfl) (by constructor <;> rfl)
    ⟨h.taken, h.sink⟩ h.endTaken fun hidle => ?_
  obtain ⟨hreader, hfew⟩ := h.reader hidle
  exact ⟨readerOk_of_taken (s := s) rfl rfl rfl (htaken hidle) hreader, hfew⟩

/-- The schedule and the level of `out_accept` are no part of the invariant. -/
theorem schedule_machineOk {s : State} (level : Bool) (ms : List Move) (h : MachineOk s) :
    MachineOk { s with sinkReady := level, moves := ms } :=
  machineOk_of_streams h (by constructor <;> rfl) (by constructor <;> rfl) ⟨h.taken, h.sink⟩
    h.endTaken fun hidle =>
      readerRests_of_same (s := s) ⟨rfl, rfl, rfl, rfl⟩ rfl (h.reader hidle)

/-! ### The moves of source, sink and host -/

theorem sourceOffer_machineOk {b : Byte} {s t : State} (h : MachineOk s)
    (ht : sourceOffer b s = some t) : MachineOk t := by
  unfold sourceOffer at ht
  split_ifs at ht
  obtain rfl := Option.some.inj ht
  exact source_machineOk _ _ h fun hidle =>
    List.take_append_of_le_length (h.reader hidle).1.cursor

theorem sourceEnd_machineOk {s : State} (h : MachineOk s) : MachineOk (sourceEnd s) :=
  source_machineOk s.inBytes true h fun _ => rfl

/-- A drain withdraws only bytes that the engine has not taken (R205). -/
theorem sourceDrain_machineOk {s t : State} (h : MachineOk s) (ht : sourceDrain s = some t) :
    MachineOk t := by
  unfold sourceDrain at ht
  split at ht
  case h_1 => cases ht
  case h_2 hphase =>
    obtain rfl := Option.some.inj ht
    exact source_machineOk _ _ h fun hidle => absurd hphase hidle
  all_goals
    obtain rfl := Option.some.inj ht
    exact source_machineOk _ _ h fun _ => by simp

/-- Outside `RUN` the sink has everything already, so its turn does nothing then (R200). -/
theorem sinkTake_machineOk {s : State} (h : MachineOk s) : MachineOk (sinkTake s) := by
  have hsink : SinkOk (sinkTake s) := sinkTake_sinkOk ⟨h.taken, h.sink⟩
  obtain ⟨n, a, htake, -⟩ := sinkTake_frame s
  refine machineOk_of_streams h (by rw [htake]; constructor <;> rfl)
    (by rw [htake]; constructor <;> rfl) hsink (fun hended => ?_) fun hidle => ?_
  · have hall := h.endTaken hended
    rcases sinkTake_cases s with ⟨b, hb, -⟩ | ⟨-, hsame⟩
    · simp [hall] at hb
    · rw [hsame]
      exact hall
  · exact readerRests_of_same (sinkTake_sameReader s) (by rw [htake]) (h.reader hidle)

/-- Hardware reset meets the invariant from every state (R250). -/
theorem hardwareReset_machineOk (s : State) : MachineOk (hardwareReset s) where
  memory := rfl
  causeSet := by simp
  faultCodeSet := by simp
  taken := le_refl 0
  endTaken := by simp
  noneRaised := rfl
  sink := ⟨s.accepted, by simp⟩
  reader := by simp
  run := by simp

theorem startCommand_machineOk {s : State} (h : MachineOk s) : MachineOk (startCommand s) := by
  unfold startCommand
  split
  case h_1 => exact h
  all_goals exact startRun_machineOk s

/-! ### The engine's turn -/

/-- Nothing waits for the sink, so it has every byte that was pushed (R200). -/
theorem outTaken_of_not_pending {s : State} (h : MachineOk s) (hpend : outPending s = false) :
    s.outTaken = s.out.length := by
  have hle := h.taken
  simp only [outPending, decide_eq_false_iff_not, not_lt] at hpend
  omega

/-- What `ReadCode` leaves meets the invariant, whatever it answers (R114). -/
theorem readCode_machineOk {s t : State} (h : MachineOk s)
    (hread : (∃ c, readCode s = .code c t) ∨ readCode s = .ended t ∨ readCode s = .hold t)
    (hreader : ReaderRests t) : MachineOk t := by
  have ht := readCode_frame hread
  refine machineOk_of_streams h (by rw [ht]; constructor <;> rfl) (by rw [ht]; constructor <;> rfl)
    ?_ ?_ fun _ => hreader
  · rw [ht]
    exact ⟨h.taken, h.sink⟩
  · rw [ht]
    exact h.endTaken

/-- The end of the run, with every byte taken (R161, R200). -/
theorem endOfRun_machineOk {s : State} (h : MachineOk s) (hphase : s.phase = .run)
    (hpend : outPending s = false) : MachineOk (endSpent (endOfRun s)) where
  memory := h.memory
  causeSet := by simpa [hphase] using h.causeSet
  faultCodeSet := by simpa [hphase] using h.faultCodeSet
  taken := h.taken
  endTaken _ := (outTaken_of_not_pending h hpend :)
  noneRaised := h.noneRaised
  sink := h.sink
  reader _ :=
    readerRests_of_same (s := s) ⟨rfl, rfl, rfl, rfl⟩ rfl (h.reader (by simp [hphase]))
  run := by simp

/-- Fault entry, with every byte taken (R200, R226). -/
theorem takeFault_machineOk {k : Cause} {c : Code} {s : State} (h : MachineOk s)
    (hphase : s.phase = .run) (hpend : outPending s = false) (hk : k ≠ .none) :
    MachineOk (takeFault k c s) where
  memory := h.memory
  causeSet := by simpa using hk
  faultCodeSet := by simp
  taken := h.taken
  endTaken _ := (outTaken_of_not_pending h hpend :)
  noneRaised := rfl
  sink := h.sink
  reader _ :=
    readerRests_of_same (s := s) ⟨rfl, rfl, rfl, rfl⟩ rfl (h.reader (by simp [hphase]))
  run := by simp

/-- The sink takes the whole sequence or none of it (R65, R155). -/
theorem effect_sinkOk {c : Code} {seq : List Byte} {s t : State} (h : SinkOk s)
    (hall : s.outTaken = s.out.length) (he : IterationEffect c seq s t) : SinkOk t := by
  obtain ⟨-, earlier, hearlier⟩ := h
  rw [hall, List.take_length] at hearlier
  cases hready : s.sinkReady with
  | true =>
    obtain ⟨htaken, hacc⟩ := he.sinkTakes hready hall
    exact ⟨htaken.le, earlier, by rw [hacc, htaken, List.take_length, he.out, hearlier,
      List.append_assoc]⟩
  | false =>
    obtain ⟨htaken, hacc⟩ := he.sinkHolds hready
    rw [SinkOk, hacc, htaken, he.out, hall, List.take_left]
    exact ⟨by simp, earlier, hearlier⟩

/-- The iteration of a legal code (R155 to R160). -/
theorem finishCode_machineOk {i : Instr} {seq : List Byte} {s t : State} (h : MachineOk s)
    (hphase : s.phase = .run) (hpend : outPending s = false) (hbits : s.nbits.toNat ≤ 7)
    (hlegal : CodeIsLegal i s) (hseq : operandSequence i s = .ok seq)
    (hfin : finishCode i.code seq s = .next t) : MachineOk t := by
  obtain ⟨hne, he⟩ := runOk_finishCode (h.run hphase) hfin
  have hrun : RunOk t := effect_runOk (h.run hphase) hlegal hseq hne he
  obtain ⟨htaken, hsink⟩ := effect_sinkOk ⟨h.taken, h.sink⟩ (outTaken_of_not_pending h hpend) he
  obtain ⟨hphase', hcause, hfault, hraised⟩ := he.keepsStatus
  obtain ⟨hacc, hnbits, hinPos⟩ := he.keepsReader
  have hwidth := (runOk_codeSize hrun).1
  exact {
    memory := finishCode_wf hfin h.memory
    causeSet := by rw [hcause, hphase']; exact h.causeSet
    faultCodeSet := by rw [hfault, hphase']; exact h.faultCodeSet
    taken := htaken
    endTaken := by simp [hphase', hphase]
    noneRaised := hraised.trans h.noneRaised
    sink := hsink
    reader := fun _ =>
      ⟨sameReader_readerOk ⟨hacc, hnbits, hinPos, he.keepsOutside.1⟩ (h.reader (by simp [hphase])).1,
        by rw [hnbits]; omega⟩
    run := fun _ => hrun }

theorem runCode_machineOk {f : Format} {c : Code} {s t : State} (h : MachineOk s)
    (hphase : s.phase = .run) (hpend : outPending s = false) (hbits : s.nbits.toNat ≤ 7)
    (hc : c.toNat < 2 ^ f.bits) (hrun : runCode f c s = .next t) : MachineOk t := by
  rcases runCode_cases hrun with ⟨k, c', hk, rfl⟩ | ⟨i, seq, hdecode, hclass, hseq, hfin⟩
  · rcases raiseFault_cases k c' s with ⟨-, hraise⟩ | ⟨hpend', -⟩
    · rw [hraise]
      exact takeFault_machineOk h hphase hpend (by rcases hk with rfl | rfl <;> decide)
    · simp [hpend] at hpend'
  · exact finishCode_machineOk h hphase hpend hbits (decodeCode_codeIsLegal hc hdecode hclass) hseq hfin

theorem decodeStep_machineOk {s t : State} (h : MachineOk s) (hphase : s.phase = .run)
    (hpend : outPending s = false) (hdecode : decodeStep s = .next t) : MachineOk t := by
  have hkeeps := machineOk_readKeeps h hphase
  rcases decodeStep_cases hdecode with hread | ⟨u, hread, rfl⟩ | ⟨f, c, u, hf, hread, hrun⟩ <;>
    rw [hread] at hkeeps
  · obtain ⟨hreader, hfew, -⟩ := hkeeps
    exact readCode_machineOk h (.inr (.inr hread)) ⟨hreader, hfew⟩
  · obtain ⟨hreader, hfew, -⟩ := hkeeps
    have hu : MachineOk u := readCode_machineOk h (.inr (.inl hread)) ⟨hreader, hfew⟩
    have hframe := readCode_frame (.inr (.inl hread))
    exact endOfRun_machineOk hu (by rw [hframe]; exact hphase) (by rw [hframe]; exact hpend)
  · obtain ⟨hcode, hreader, hbits, -⟩ := hkeeps
    have hframe := readCode_frame (.inl ⟨c, hread⟩)
    have hwidth : u.codeSize = s.codeSize := by rw [hframe]
    have hlow := (runOk_codeSize (h.run hphase)).1
    have hu : MachineOk u := readCode_machineOk h (.inl ⟨c, hread⟩) ⟨hreader, by rw [hwidth]; omega⟩
    rw [← formatOf_bits hf] at hcode
    exact runCode_machineOk hu (by rw [hframe]; exact hphase) (by rw [hframe]; exact hpend) hbits
      hcode hrun

theorem engineTurn_machineOk {s t : State} (h : MachineOk s) (hturn : engineTurn s = .next t) :
    MachineOk t := by
  rcases engineTurn_cases hturn with rfl | rfl | ⟨k, c, hraised, -⟩ | ⟨hphase, hpend, hdecode⟩
  · exact h
  · exact sinkTake_machineOk h
  · simp [h.noneRaised] at hraised
  · exact decodeStep_machineOk h hphase hpend hdecode

/-! ### Every agent -/

theorem moveTurn_machineOk {m : Move} {s t : State} (h : MachineOk s)
    (hturn : moveTurn m s = .next t) : MachineOk t := by
  cases m with
  | engine => exact engineTurn_machineOk h hturn
  | rst => cases hturn; exact hardwareReset_machineOk s
  | start => cases hturn; exact startCommand_machineOk h
  | offer b =>
    cases hoffer : sourceOffer b s with
    | none => simp [moveTurn, hoffer] at hturn
    | some u =>
      simp only [moveTurn, hoffer, Host.Outcome.next.injEq] at hturn
      exact hturn ▸ sourceOffer_machineOk h hoffer
  | endInput => cases hturn; exact sourceEnd_machineOk h
  | drain =>
    cases hdrain : sourceDrain s with
    | none => simp [moveTurn, hdrain] at hturn
    | some u =>
      simp only [moveTurn, hdrain, Host.Outcome.next.injEq] at hturn
      exact hturn ▸ sourceDrain_machineOk h hdrain
  | accept => cases hturn; exact sinkTake_machineOk h
  | sinkReady level => cases hturn; exact schedule_machineOk level s.moves h

/-- Settles O54: by the agent whose turn it is. The engine's iteration is the case that carries the
weight: reading keeps the reader's invariant, and the effect of a legal code that of the decoder. -/
theorem everyStepKeepsInv : Obligations.EveryStepKeepsInv := by
  intro s t hok hstep
  cases hmoves : s.moves with
  | nil =>
    rw [step_of_moves_nil hmoves] at hstep
    exact engineTurn_machineOk hok hstep
  | cons m ms =>
    rw [step_of_moves_cons hmoves] at hstep
    exact moveTurn_machineOk (schedule_machineOk s.sinkReady ms hok) hstep

end Sys2Proof.Machine
end

section
/-! The bits that `ReadCode` delivers, and when it stops (R56, R110 to R115). -/

namespace Sys2Proof.Machine

/-- The next `codeSize` bits of the input as a number, most significant first (R56, R82). -/
def nextCode (s : State) : Code :=
  BitVec.ofNat 12 (natOfBits (((bitString s.inBytes).drop (bitPos s)).take s.codeSize.toNat))

/-- What an answer of the reader tells of the input: a code is its next bits, the end and a hold are
what `InAvail` shows where the reader stops. -/
def ReadTells (s : State) : ReadResult → Prop
  | .code c _ => c = nextCode s
  | .ended t => inAvail t = .ended
  | .hold t => inAvail t = .wait

/-- A refill moves neither the position nor the bits that come next (R111). -/
theorem readTells_of_refill {s : State} {b : Byte} {r : ReadResult}
    (hpos : bitPos (refill b s) = bitPos s) (h : ReadTells (refill b s) r) : ReadTells s r := by
  cases r with
  | code c t =>
    have hnext : nextCode (refill b s) = nextCode s := by
      simp only [nextCode, hpos, refill_inBytes, refill_codeSize]
    exact Eq.trans h hnext
  | ended t | hold t => exact h

theorem readLoop_readTells (n : Nat) {s : State} (h : ReaderOk s) (hw : s.codeSize.toNat ≤ 12)
    (hlow : s.codeSize.toNat ≤ s.nbits.toNat + 8 * n) : ReadTells s (readLoop n s) := by
  induction n generalizing s with
  | zero => exact (extract_readerOk h hlow).1
  | succ n ih =>
    simp only [readLoop]
    split_ifs with hlt
    · cases ha : inAvail s with
      | byte b =>
        obtain ⟨hok, hpos, hn⟩ := refill_readerOk h (by omega) (inAvail_byte.1 ha)
        exact readTells_of_refill hpos (ih hok hw (by rw [hn, refill_codeSize]; omega))
      | ended | wait => exact ha
    · exact (extract_readerOk h (not_lt.1 hlt)).1

/-- Two refills reach a code of any width (R114). -/
theorem readCode_readTells {s : State} (h : ReaderOk s) (hw : s.codeSize.toNat ≤ 12) :
    ReadTells s (readCode s) :=
  readLoop_readTells 2 h hw (by omega)

/-- Where every byte is consumed, a reader with too few bits for a code has the last bits of the
input before it, and a code does not fit there any more. -/
theorem reader_exhausted {s : State} (h : ReaderOk s) (hfew : s.nbits.toNat < s.codeSize.toNat)
    (hall : s.inBytes.length ≤ s.inPos) :
    s.inPos = s.inBytes.length ∧ 8 * s.inBytes.length < bitPos s + s.codeSize.toNat := by
  have hcursor := h.cursor
  unfold bitPos
  omega

/-- `ReadCode` answers a code: it lies within the input and is its next bits (R112, R114). -/
theorem readCode_code {s t : State} {c : Code} (h : ReaderOk s) (hw : s.codeSize.toNat ≤ 12)
    (hfew : s.nbits.toNat < s.codeSize.toNat) (hread : readCode s = .code c t) :
    c = nextCode s ∧ t = { s with acc := t.acc, nbits := t.nbits, inPos := t.inPos } ∧ ReaderOk t ∧
      bitPos t = bitPos s + s.codeSize.toNat ∧ t.nbits.toNat ≤ 7 ∧
      bitPos s + s.codeSize.toNat ≤ 8 * s.inBytes.length := by
  have hkeeps := readCode_readKeeps h hw hfew
  have htells := readCode_readTells h hw
  rw [hread] at hkeeps htells
  obtain ⟨-, hok, hrest, hpos, -⟩ := hkeeps
  have hframe := readLoop_frame 2 s t (.inl ⟨c, hread⟩)
  have hin : t.inBytes = s.inBytes := by rw [hframe]
  have hfits := readerOk_bitPos_le hok
  rw [hpos, hin] at hfits
  exact ⟨htells, hframe, hok, hpos, hrest, hfits⟩

/-- `ReadCode` answers no code: every byte is consumed and the bits left are too few (R113, R114). -/
theorem readCode_stop {s t : State} (h : ReaderOk s) (hw : s.codeSize.toNat ≤ 12)
    (hfew : s.nbits.toNat < s.codeSize.toNat) (hread : readCode s = .ended t ∨ readCode s = .hold t) :
    readCode s = (if s.inEnd then .ended t else .hold t) ∧
      t = { s with acc := t.acc, nbits := t.nbits, inPos := t.inPos } ∧ ReaderOk t ∧
      bitPos t = bitPos s ∧ t.inPos = t.inBytes.length ∧ t.nbits.toNat < t.codeSize.toNat ∧
      8 * s.inBytes.length < bitPos s + s.codeSize.toNat := by
  have hframe := readLoop_frame 2 s t (.inr hread)
  have hin : t.inBytes = s.inBytes := by rw [hframe]
  have hsize : t.codeSize = s.codeSize := by rw [hframe]
  have hend : t.inEnd = s.inEnd := by rw [hframe]
  obtain ⟨hok, hfewLeft, hpos, -⟩ : ReadKeeps s (.ended t) := by
    have hkeeps := readCode_readKeeps h hw hfew
    rcases hread with hread | hread <;> rw [hread] at hkeeps <;> exact hkeeps
  obtain ⟨hanswer, hconsumed⟩ : readCode s = (if s.inEnd then .ended t else .hold t) ∧
      t.inBytes.length ≤ t.inPos := by
    have htells := readCode_readTells h hw
    rcases hread with hread | hread <;> rw [hread] at htells ⊢
    · obtain ⟨hconsumed, hsignal⟩ := inAvail_ended.1 htells
      simp [← hend, hsignal, hconsumed]
    · obtain ⟨hconsumed, hsignal⟩ := inAvail_wait.1 htells
      simp [← hend, hsignal, hconsumed]
  obtain ⟨hall, hshort⟩ := reader_exhausted hok hfewLeft hconsumed
  rw [hpos, hin, hsize] at hshort
  exact ⟨hanswer, hframe, hok, hpos, hall, hfewLeft, hshort⟩

/-- Settles O13: by what `ReadCode` answers. A code ends within the input, and where there is none the
bits left are too few, so that the length of the input decides between the two. -/
theorem readCodeFollowsTheStream : Obligations.ReadCodeFollowsTheStream := by
  intro s f hf hok hfew
  have hbits : f.bits = s.codeSize.toNat := formatOf_bits hf
  obtain ⟨-, -, -, -, -, hup⟩ := format_facts f
  have hw : s.codeSize.toNat ≤ 12 := hbits ▸ hup
  rw [hbits]
  cases hread : readCode s with
  | code c t =>
    obtain ⟨rfl, hframe, hok', hpos, hrest, hfits⟩ := readCode_code hok hw hfew hread
    exact ⟨fun _ => ⟨t, rfl, hframe, hok', hpos, hrest⟩, fun hshort => by omega⟩
  | ended t | hold t =>
    obtain ⟨hanswer, hframe, hok', hpos, hall, hfew', hshort⟩ :=
      readCode_stop (t := t) hok hw hfew (by simp [hread])
    rw [← hread]
    exact ⟨fun hfits => by omega, fun _ => ⟨t, hanswer, hframe, hok', hpos, hall, hfew'⟩⟩

end Sys2Proof.Machine
end

section
/-! The 21 bits of a dictionary entry (R51). -/

namespace Sys2Proof.Machine

/-- Three fields of 8, 1 and 12 bits stand in bits 20:13, 12 and 11:0 of their concatenation. -/
theorem fields_of_concat (sym : Byte) (flag : BitVec 1) (p : Code) :
    (sym ++ (flag ++ p) : BitVec 21).extractLsb' 13 8 = sym ∧
      (sym ++ (flag ++ p) : BitVec 21).getLsbD 12 = flag.getLsbD 0 ∧
      (sym ++ (flag ++ p) : BitVec 21).extractLsb' 0 12 = p := by
  refine ⟨BitVec.extractLsb'_append_eq_left, ?_, ?_⟩
  · rw [BitVec.getLsbD_append, if_pos (by decide), BitVec.getLsbD_append, if_neg (by decide)]
  · rw [BitVec.extractLsb'_append_eq_of_add_le (by decide)]
    exact BitVec.extractLsb'_append_eq_right

theorem unpackEntry_concat (sym : Byte) (flag : BitVec 1) (p : Code) :
    unpackEntry (sym ++ (flag ++ p)) =
      { sym := sym, parent := if flag.getLsbD 0 then some p else none } := by
  obtain ⟨hsym, hflag, hparent⟩ := fields_of_concat sym flag p
  simp only [unpackEntry, hsym, hflag, hparent]

/-- Settles O24: with and without a parent, where the free bits are those of the parent field. -/
theorem packedEntryReadsBack : Obligations.PackedEntryReadsBack := by
  intro i ⟨sym, parent⟩
  cases parent with
  | none =>
    obtain ⟨hsym, hflag, -⟩ := fields_of_concat sym 0#1 (Config.noParentBits i)
    exact ⟨hsym, hflag, nofun, unpackEntry_concat sym 0#1 (Config.noParentBits i)⟩
  | some p =>
    obtain ⟨hsym, hflag, hparent⟩ := fields_of_concat sym 1#1 p
    have hfield : ∀ q, some p = some q → (sym ++ (1#1 ++ p) : BitVec 21).extractLsb' 0 12 = q :=
      fun q hq => hparent.trans (Option.some.inj hq)
    exact ⟨hsym, hflag, hfield, unpackEntry_concat sym 1#1 p⟩

end Sys2Proof.Machine
end

section
/-! The decoder, said once: the four conditions of R84, the codes that have a row (R95), and the bit
strings that decode (R81, R82). The statements about encoding and decoding follow from these. -/

namespace Sys2Proof

/-! ### The class of a code -/

theorem classify_eq_known_iff {σ : Selector} {c : Nat} :
    classify σ c = .known ↔ c < σ.dictSize.toNat := by
  unfold classify
  split_ifs <;> simp <;> omega

theorem classify_eq_kwkwk_iff {σ : Selector} {c : Nat} :
    classify σ c = .kwkwk ↔ c = σ.dictSize.toNat ∧ σ.firstOfEpoch = false := by
  unfold classify
  split_ifs with hlt heq hfirst <;> simp_all
  omega

theorem classify_eq_noprev_iff {σ : Selector} {c : Nat} :
    classify σ c = .noprev ↔ c = σ.dictSize.toNat ∧ σ.firstOfEpoch = true := by
  unfold classify
  split_ifs with hlt heq hfirst <;> simp_all
  omega

theorem classify_eq_invalid_iff {σ : Selector} {c : Nat} :
    classify σ c = .invalid ↔ c > σ.dictSize.toNat := by
  unfold classify
  split_ifs <;> simp <;> omega

/-- Between iterations of a run `NOPREV` is met at the start of an epoch alone (R40 (d), R84). -/
theorem legal_noprev {σ : Selector} {c : Nat} (hlegal : σ.legal = true)
    (h : classify σ c = .noprev) : c = 256 ∧ σ.format = .c9 := by
  obtain ⟨hc, hfirst⟩ := classify_eq_noprev_iff.1 h
  obtain ⟨-, -, hepoch⟩ := (legal_iff σ).1 hlegal
  obtain ⟨hsize, hformat⟩ := hepoch hfirst
  exact ⟨hc.trans hsize, hformat⟩

/-- A selector picks a row by the format and by the class of the code (R83, R84). -/
theorem selectedBy_iff {i : Instr} {σ : Selector} :
    i.selectedBy σ = true ↔ i.format = σ.format ∧ classify σ i.code.toNat = i.codeClass := by
  unfold Instr.selectedBy
  cases hk : i.codeClass <;>
    simp [classify_eq_known_iff, classify_eq_kwkwk_iff, classify_eq_noprev_iff,
      classify_eq_invalid_iff]

/-! ### The row of a code -/

/-- `NOPREV` under a wider format than `C9` is the one pair without a row (R95). -/
theorem rowInstr_eq_none_iff {k : CodeClass} {f : Format} {c : Code} :
    rowInstr k f c = none ↔ k = .noprev ∧ f ≠ .c9 := by
  cases k <;> cases f <;> simp [rowInstr]

theorem decodeCode_eq_ok_iff_row {σ : Selector} {c : Code} {i : Instr} :
    decodeCode σ c = .ok i ↔ rowInstr (classify σ c.toNat) σ.format c = some i := by
  unfold decodeCode
  cases rowInstr (classify σ c.toNat) σ.format c <;> simp

/-- A code decodes to the one instruction that the selector picks and whose operand it is (R82, R84,
R95). -/
theorem decodeCode_eq_ok_iff {σ : Selector} {c : Code} {i : Instr} (hc : c.toNat < 2 ^ σ.format.bits) :
    decodeCode σ c = .ok i ↔ i.selectedBy σ = true ∧ i.code = c := by
  rw [decodeCode_eq_ok_iff_row, selectedBy_iff]
  constructor
  · intro hrow
    obtain ⟨hclass, hformat, hcode⟩ := rowInstr_spec hrow hc
    exact ⟨⟨hformat, by rw [hcode, hclass]⟩, hcode⟩
  · rintro ⟨⟨hformat, hclass⟩, rfl⟩
    rw [hclass, ← hformat]
    exact rowInstr_self i

/-- Between iterations of a run every code of the width has a row (R86, R95). -/
theorem exists_decodeCode_of_legal {σ : Selector} (c : Code) (hlegal : σ.legal = true) :
    ∃ i, decodeCode σ c = .ok i := by
  simp only [decodeCode_eq_ok_iff_row]
  rw [← Option.ne_none_iff_exists', Ne, rowInstr_eq_none_iff]
  rintro ⟨hclass, hformat⟩
  exact hformat (legal_noprev hlegal hclass).2

/-! ### Bit strings that decode -/

/-- A bit string decodes where it is long enough, as the code that its first bits are (R82, R83). -/
theorem decode_eq_ok_iff_code {σ : Selector} {bits rest : List Bool} {i : Instr} :
    decode σ bits = .ok (i, rest) ↔ σ.format.bits ≤ bits.length ∧
      decodeCode σ (BitVec.ofNat 12 (natOfBits (bits.take σ.format.bits))) = .ok i ∧
      bits.drop σ.format.bits = rest := by
  unfold decode
  split_ifs with hshort
  · simp [hshort]
  · cases decodeCode σ (BitVec.ofNat 12 (natOfBits (bits.take σ.format.bits))) <;>
      simp [not_lt.1 hshort]

/-- The number of the first `f.bits` bits of a string is a code of the format (R81, R82). -/
theorem toNat_leadingCode (f : Format) (bits : List Bool) :
    (BitVec.ofNat 12 (natOfBits (bits.take f.bits))).toNat = natOfBits (bits.take f.bits) ∧
      natOfBits (bits.take f.bits) < 2 ^ f.bits := by
  obtain ⟨-, -, -, -, -, hbits⟩ := format_facts f
  have hlt : natOfBits (bits.take f.bits) < 2 ^ f.bits :=
    (natOfBits_lt _).trans_le (Nat.pow_le_pow_right (by decide) (List.length_take_le _ _))
  have hpow : 2 ^ f.bits ≤ 2 ^ 12 := Nat.pow_le_pow_right (by decide) hbits
  exact ⟨by rw [BitVec.toNat_ofNat, Nat.mod_eq_of_lt (hlt.trans_le hpow)], hlt⟩

/-- The bits of an instruction are those whose number is its operand, at the width of its format
(R81, R82). -/
theorem encode_eq_iff {i : Instr} {bits : List Bool} :
    encode i = bits ↔ bits.length = i.format.bits ∧ natOfBits bits = i.code.toNat := by
  constructor
  · rintro rfl
    exact Laws.Encoding.of_code_lt i
  · rintro ⟨hlen, hnum⟩
    rw [encode, ← hlen, ← hnum, bitsOfNat_natOfBits]

/-- A bit string decodes exactly where it begins with the encoding of an instruction that the
selector picks (R81, R82, R84). -/
theorem decode_eq_ok_iff {σ : Selector} {bits rest : List Bool} {i : Instr} :
    decode σ bits = .ok (i, rest) ↔ i.selectedBy σ = true ∧ encode i ++ rest = bits := by
  obtain ⟨hnum, hlt⟩ := toNat_leadingCode σ.format bits
  rw [decode_eq_ok_iff_code, decodeCode_eq_ok_iff (hnum.symm ▸ hlt)]
  constructor
  · rintro ⟨hlen, ⟨hsel, hcode⟩, rfl⟩
    have hformat : i.format = σ.format := (selectedBy_iff.1 hsel).1
    have henc : encode i = bits.take σ.format.bits :=
      encode_eq_iff.2 ⟨by rw [hformat, List.length_take_of_le hlen], by rw [hcode, hnum]⟩
    exact ⟨hsel, by rw [henc, List.take_append_drop]⟩
  · rintro ⟨hsel, rfl⟩
    have hformat : i.format = σ.format := (selectedBy_iff.1 hsel).1
    obtain ⟨hlen, hcode⟩ := encode_eq_iff.1 (rfl : encode i = encode i)
    rw [hformat] at hlen
    refine ⟨by simp [hlen], ⟨hsel, ?_⟩, List.drop_left' hlen⟩
    rw [List.take_left' hlen, hcode, BitVec.ofNat_toNat, BitVec.setWidth_eq]

/-- Settles O27: the encoding begins the string, and the selector picks the row. -/
theorem decodeInvertsEncode : Obligations.DecodeInvertsEncode :=
  fun _ _ _ hsel => decode_eq_ok_iff.2 ⟨hsel, rfl⟩

/-- Settles O28: the other direction of the same equivalence. -/
theorem encodeInvertsDecode : Obligations.EncodeInvertsDecode :=
  fun _ _ _ _ => decode_eq_ok_iff.1

/-! ### Well-formed instructions -/

/-- `NOPREV` has a row under `C9` alone (R95). -/
theorem format_of_noprev {i : Instr} (h : i.codeClass = .noprev) : i.format = .c9 := by
  cases i with
  | noprevC9 c => rfl
  | _ => cases h

/-- Every size in the range of a format is met after the first code of an epoch (R91). -/
theorem exists_legal_dictSize {f : Format} {d : Nat} (hmin : f.minDictSize ≤ d)
    (hmax : d ≤ f.maxDictSize) :
    ∃ σ : Selector, σ.legal = true ∧ σ.format = f ∧ σ.dictSize.toNat = d ∧
      σ.firstOfEpoch = false := by
  obtain ⟨htop, -⟩ := format_facts f
  have hsize : (BitVec.ofNat 13 d).toNat = d := by rw [BitVec.toNat_ofNat]; omega
  exact ⟨⟨f, BitVec.ofNat 13 d, false⟩,
    (legal_iff _).2 ⟨hmin.trans_eq hsize.symm, hsize.trans_le hmax, nofun⟩, rfl, hsize, rfl⟩

/-- What a selector of a run picks is well formed (R81, R84, R91). -/
theorem wf_of_selectedBy {i : Instr} {σ : Selector} (hlegal : σ.legal = true)
    (hsel : i.selectedBy σ = true) : i.wf = true := by
  obtain ⟨hformat, hclass⟩ := selectedBy_iff.1 hsel
  obtain ⟨hmin, hmax, -⟩ := (legal_iff σ).1 hlegal
  rw [← hformat] at hmin hmax
  unfold Instr.wf
  cases hk : i.codeClass <;> rw [hk] at hclass <;>
    simp only [Bool.and_eq_true, decide_eq_true_eq]
  case known => exact (classify_eq_known_iff.1 hclass).trans_le hmax
  case kwkwk =>
    obtain ⟨hcode, -⟩ := classify_eq_kwkwk_iff.1 hclass
    exact ⟨hcode ▸ hmin, hcode ▸ hmax⟩
  case noprev => exact (legal_noprev hlegal hclass).1
  case invalid => exact hmin.trans_lt (classify_eq_invalid_iff.1 hclass)

/-- A well-formed instruction is picked at the largest size of its format (`KNOWN`), at the size that
its code is (`KWKWK`), at the start of an epoch (`NOPREV`), at the smallest size (`INVALID`). -/
theorem exists_selectedBy_of_wf {i : Instr} (h : i.wf = true) :
    ∃ σ : Selector, σ.legal = true ∧ i.selectedBy σ = true := by
  obtain ⟨-, -, hrange, -⟩ := format_facts i.format
  unfold Instr.wf at h
  cases hk : i.codeClass <;> simp only [hk, Bool.and_eq_true, decide_eq_true_eq] at h
  case known =>
    obtain ⟨σ, hlegal, hformat, hsize, -⟩ := exists_legal_dictSize hrange le_rfl
    exact ⟨σ, hlegal, selectedBy_iff.2
      ⟨hformat.symm, by rw [hk, classify_eq_known_iff, hsize]; exact h⟩⟩
  case kwkwk =>
    obtain ⟨σ, hlegal, hformat, hsize, hfirst⟩ := exists_legal_dictSize h.1 h.2
    exact ⟨σ, hlegal, selectedBy_iff.2
      ⟨hformat.symm, by rw [hk, classify_eq_kwkwk_iff, hsize]; exact ⟨rfl, hfirst⟩⟩⟩
  case noprev =>
    exact ⟨⟨.c9, 256, true⟩, rfl, selectedBy_iff.2
      ⟨format_of_noprev hk, by rw [hk, classify_eq_noprev_iff]; exact ⟨h, rfl⟩⟩⟩
  case invalid =>
    obtain ⟨σ, hlegal, hformat, hsize, -⟩ := exists_legal_dictSize le_rfl hrange
    exact ⟨σ, hlegal, selectedBy_iff.2
      ⟨hformat.symm, by rw [hk, classify_eq_invalid_iff, hsize]; exact h⟩⟩

/-- Settles O29: a size for each class in one direction, the class conditions in the other. -/
theorem wellFormedMeansSomeLegalSelector : Obligations.WellFormedMeansSomeLegalSelector :=
  fun _ => ⟨exists_selectedBy_of_wf, fun ⟨_, hlegal, hsel⟩ => wf_of_selectedBy hlegal hsel⟩

/-- Settles O26: the row exists because a selector of a run never asks for `NOPREV` outside `C9`. -/
theorem everyCodeOfARunHasARow : Obligations.EveryCodeOfARunHasARow := by
  intro σ c hlegal hc
  obtain ⟨i, hi⟩ := exists_decodeCode_of_legal c hlegal
  obtain ⟨hsel, hcode⟩ := (decodeCode_eq_ok_iff hc).1 hi
  exact ⟨i, hi, hsel, hcode, wf_of_selectedBy hlegal hsel⟩

/-- Settles O25: one condition for each class, and the place of `NOPREV` in a run. -/
theorem classConditions : Obligations.ClassConditions :=
  fun _ _ => ⟨classify_eq_known_iff, classify_eq_kwkwk_iff, classify_eq_noprev_iff,
    classify_eq_invalid_iff, legal_noprev⟩

/-- Settles O31: 255 is below every `dictSize` of the range, 4095 above. -/
theorem literalsAreAlwaysKnown : Obligations.LiteralsAreAlwaysKnown := by
  intro σ c hlow hup
  exact ⟨fun hc => classify_eq_known_iff.2 (by omega),
    fun hc => classify_eq_invalid_iff.2 (by omega)⟩

/-- Settles O32: each of the eight words is decoded by the model. -/
theorem sampleWordsDecode : Obligations.SampleWordsDecode :=
  ⟨by decide, by decide, by decide, by decide, by decide, by decide, by decide, by decide⟩

end Sys2Proof
end

section
/-! Packing bits into bytes (R56, R93, R94). -/

namespace Sys2Proof

theorem bitString_cons (b : Byte) (bytes : List Byte) :
    bitString (b :: bytes) = bitsOfNat 8 b.toNat ++ bitString bytes := rfl

/-- A byte holds the first eight bits, and `PAD` where there are fewer (R94). -/
theorem bitsOfNat_byteOfBits (bits : List Bool) :
    bitsOfNat 8 (byteOfBits bits).toNat = bits.take 8 ++ List.replicate (8 - bits.length) false := by
  have htake : (bits ++ List.replicate 8 false).take 8 =
      bits.take 8 ++ List.replicate (8 - bits.length) false := by
    rw [List.take_append, List.take_replicate, min_eq_left (Nat.sub_le _ _)]
  have hlen : (bits.take 8 ++ List.replicate (8 - bits.length) false).length = 8 := by
    simp only [List.length_append, List.length_take, List.length_replicate]
    omega
  have hlt := natOfBits_lt (bits.take 8 ++ List.replicate (8 - bits.length) false)
  have hback := bitsOfNat_natOfBits (bits.take 8 ++ List.replicate (8 - bits.length) false)
  rw [hlen] at hlt hback
  rw [byteOfBits, htake, BitVec.toNat_ofNat, Nat.mod_eq_of_lt hlt, hback]

/-- Enough bytes hold the whole string, with `PAD` behind it (R93, R94). -/
theorem bitString_packBytes {n : Nat} {bits : List Bool} (h : bits.length ≤ 8 * n) :
    bitString (packBytes n bits) = bits ++ List.replicate (8 * n - bits.length) false := by
  induction n generalizing bits with
  | zero => simp [packBytes, List.length_eq_zero_iff.1 (Nat.le_zero.1 h)]
  | succ n ih =>
    have hrest : (bits.drop 8).length ≤ 8 * n := by rw [List.length_drop]; omega
    rw [packBytes, bitString_cons, bitsOfNat_byteOfBits, ih hrest, List.length_drop]
    rcases le_total 8 bits.length with hlong | hshort
    · have hpad : 8 * n - (bits.length - 8) = 8 * (n + 1) - bits.length := by omega
      rw [hpad, Nat.sub_eq_zero_of_le hlong, List.replicate_zero, List.append_nil,
        ← List.append_assoc, List.take_append_drop]
    · have hpad : 8 - bits.length + (8 * n - (bits.length - 8)) = 8 * (n + 1) - bits.length := by
        omega
      rw [List.take_of_length_le hshort, List.drop_eq_nil_of_le hshort, List.nil_append,
        List.append_assoc, List.replicate_append_replicate, hpad]

/-- Settles O30: the number of bytes is the least that holds the bits. -/
theorem packedBitsReadBack : Obligations.PackedBitsReadBack := by
  intro bits
  exact ⟨8 * ((bits.length + 7) / 8) - bits.length, by omega, bitString_packBytes (by omega)⟩

end Sys2Proof
end

section
/-! A run reads its codes at the places and widths of the schedule (R91, R96). `AtCode` says of a state
which code of its epoch the engine reads next; one lemma tells what the turn then does, by the code's
legality, and the run follows by induction on its steps. -/

namespace Sys2Proof.Machine

/-! ### Reading one code -/

/-- The bits of the input that no code has taken (R30). -/
def unread (s : State) : List Bool := (bitString s.inBytes).drop (bitPos s)

theorem length_unread (s : State) : (unread s).length = 8 * s.inBytes.length - bitPos s := by
  rw [unread, List.length_drop, length_bitString]

theorem unread_sameReader {s t : State} (h : SameReader s t) : unread t = unread s := by
  rw [unread, h.inBytes, sameReader_bitPos h, unread]

/-- A code that is read leaves the invariant, and takes its bits from the front of the unread ones
(R112, R114). -/
theorem readCode_takes {s u : State} {c : Code} {f : Format} (h : MachineOk s)
    (hphase : s.phase = .run) (hf : s.codeSize.toNat = f.bits) (hread : readCode s = .code c u) :
    MachineOk u ∧ f.bits ≤ (unread s).length ∧ c.toNat = natOfBits ((unread s).take f.bits) ∧
      unread u = (unread s).drop f.bits := by
  obtain ⟨hreader, hfew⟩ := h.reader (by simp [hphase])
  obtain ⟨hlow, hup⟩ := runOk_codeSize (h.run hphase)
  obtain ⟨hcode, hframe, hok, hpos, hrest, hfits⟩ := readCode_code hreader hup hfew hread
  have hwidth : u.codeSize = s.codeSize := by rw [hframe]
  have hin : u.inBytes = s.inBytes := by rw [hframe]
  refine ⟨readCode_machineOk h (.inl ⟨c, hread⟩) ⟨hok, by rw [hwidth]; omega⟩, ?_, ?_, ?_⟩
  · rw [length_unread]
    omega
  · obtain ⟨hnum, -⟩ := toNat_leadingCode f (unread s)
    rw [hcode, nextCode, hf]
    exact hnum
  · rw [unread, hin, hpos, hf, unread, List.drop_drop]

/-- Once the end is signalled the reader answers no code only where too few bits are left, and then it
answers the end (R113, R114, R197). -/
theorem readCode_ends {s u : State} {f : Format} (h : MachineOk s) (hphase : s.phase = .run)
    (hf : s.codeSize.toNat = f.bits) (hended : s.inEnd = true)
    (hread : readCode s = .ended u ∨ readCode s = .hold u) :
    readCode s = .ended u ∧ (unread s).length < f.bits := by
  obtain ⟨hreader, hfew⟩ := h.reader (by simp [hphase])
  obtain ⟨hlow, hup⟩ := runOk_codeSize (h.run hphase)
  obtain ⟨hanswer, -, -, -, -, -, hshort⟩ := readCode_stop hreader hup hfew hread
  rw [hended, if_pos rfl] at hanswer
  exact ⟨hanswer, by rw [length_unread]; omega⟩

/-! ### Running one code -/

/-- The classes whose codes are legal (R84, R96). -/
def LegalClass (k : CodeClass) : Prop := k = .known ∨ k = .kwkwk

/-- In a run a code of a legal class has the effect of an iteration, and any other code ends the run in
a fault (R150). -/
theorem runCode_by_class {f : Format} {c : Code} {s t : State} (h : RunOk s)
    (hf : formatOf s.codeSize.toNat = some f) (hpend : outPending s = false)
    (hc : c.toNat < 2 ^ f.bits) (hrun : runCode f c s = .next t) :
    (LegalClass (classify (selectorOf f s) c.toNat) ∧ ∃ seq, IterationEffect c seq s t) ∨
    (¬ LegalClass (classify (selectorOf f s) c.toNat) ∧ t.phase = .fault ∧ t.moves = s.moves) := by
  obtain ⟨f', hf', hlegal⟩ := h.format
  obtain rfl : f' = f := Option.some.inj (hf'.symm.trans hf)
  obtain ⟨i, hi⟩ := exists_decodeCode_of_legal c hlegal
  obtain ⟨hsel, hcode⟩ := (decodeCode_eq_ok_iff (σ := selectorOf f' s) hc).1 hi
  obtain ⟨-, hclass⟩ := selectedBy_iff.1 hsel
  have hexec : exec i s = .next t := by simpa only [runCode, hi] using hrun
  rw [← hcode, hclass]
  by_cases hk : LegalClass i.codeClass
  · obtain ⟨seq, -, hfin⟩ := operand_of_exec hk hexec
    exact .inl ⟨hk, seq, (runOk_finishCode h hfin).2⟩
  · obtain ⟨k, -, hraise⟩ := exec_of_illegal hk
    rw [hexec, Host.Outcome.next.injEq] at hraise
    rcases raiseFault_cases k i.code s with ⟨-, hentry⟩ | ⟨hpend', -⟩
    · exact .inr ⟨hk, by rw [hraise, hentry]; rfl, by rw [hraise, hentry]; rfl⟩
    · simp [hpend] at hpend'

/-! ### The place in the epoch -/

/-- A run, its input complete and its output all taken, in which code `n` of an epoch is read next; the
decoder's registers are what the schedule has there (R91, R92). -/
structure AtCode (n : Nat) (s : State) : Prop where
  ok : MachineOk s
  phase : s.phase = .run
  moves : s.moves = []
  sink : s.sinkReady = true
  ended : s.inEnd = true
  taken : s.outTaken = s.out.length
  index : 1 ≤ n ∧ n ≤ 3840
  width : s.codeSize.toNat = (scheduleFormat n).bits
  size : s.dictSize.toNat = if n = 1 then 256 else 254 + n
  first : s.firstOfEpoch = decide (n = 1)

/-- `START` comes before code 1 (R192). -/
theorem started_atCode (input : List Byte) : AtCode 1 (started input) where
  ok := started_machineOk input
  phase := rfl
  moves := rfl
  sink := rfl
  ended := rfl
  taken := rfl
  index := by decide
  width := rfl
  size := rfl
  first := rfl

theorem unread_started (input : List Byte) : unread (started input) = bitString input := rfl

/-- Reading touches nothing that `AtCode` speaks of but the reader. -/
theorem readCode_atCode {n : Nat} {s u : State} {c : Code} (h : AtCode n s)
    (hread : readCode s = .code c u) : AtCode n u := by
  obtain ⟨hok, -⟩ := readCode_takes h.ok h.phase h.width hread
  have hframe := readCode_frame (.inl ⟨c, hread⟩)
  constructor
  case ok => exact hok
  case index => exact h.index
  all_goals rw [hframe]
  · exact h.phase
  · exact h.moves
  · exact h.sink
  · exact h.ended
  · exact h.taken
  · exact h.width
  · exact h.size
  · exact h.first

/-- The bound of R96 is the condition of the two legal classes at that place (R84). -/
theorem legalCode_iff {n c : Nat} {s : State} (f : Format) (h : AtCode n s) :
    legalCode n c = true ↔ LegalClass (classify (selectorOf f s) c) := by
  have hsize := h.size
  rw [LegalClass, classify_eq_known_iff, classify_eq_kwkwk_iff]
  simp only [selectorOf, hsize, h.first, legalCode]
  by_cases hn : n = 1
  · simp only [hn, if_true, decide_eq_true_eq, decide_true, Bool.true_eq_false, and_false, or_false]
    omega
  · simp only [hn, if_false, decide_eq_true_eq, decide_false, and_true]
    omega

theorem atCode_sizeAfterAppend {n : Nat} {s : State} (h : AtCode n s) :
    sizeAfterAppend s = 255 + n := by
  have hsize := h.size
  unfold sizeAfterAppend
  rw [h.first, hsize]
  by_cases hn : n = 1
  · simp [hn]
  · simp only [hn, if_false, decide_false, Bool.false_eq_true]
    omega

/-- The decoder's registers after a legal code are those of the next place: the width grows where the
schedule does, and code 3840 ends the epoch (R91, R92, R158 to R160). -/
theorem effect_schedule {n : Nat} {s t : State} {c : Code} {seq : List Byte} (h : AtCode n s)
    (he : IterationEffect c seq s t) :
    t.codeSize.toNat = (scheduleFormat (nextIndex n)).bits ∧
      t.dictSize.toNat = (if nextIndex n = 1 then 256 else 254 + nextIndex n) ∧
      t.firstOfEpoch = decide (nextIndex n = 1) := by
  have hsize := atCode_sizeAfterAppend h
  obtain ⟨hlow, hup⟩ := h.index
  have hreach : reachesThreshold s ↔ 255 + n = 2 ^ (scheduleFormat n).bits - 1 := by
    rw [reachesThreshold, hsize, h.width]
  by_cases hlast : n = 3840
  · subst hlast
    exact (he.resets (hreach.2 rfl) h.width.ge).imp_right fun hrest => ⟨hrest.1, hrest.2.1⟩
  · have hnext : nextIndex n = n + 1 := if_neg hlast
    have hne : n + 1 ≠ 1 := by omega
    have hgrow := scheduleFormat_next (n - 1) (by omega)
    rw [show n - 1 + 1 = n by omega, show 256 + (n - 1) = 255 + n by omega] at hgrow
    simp only [hnext, hne, if_false, decide_false]
    by_cases hthr : reachesThreshold s
    · rw [if_pos (hreach.1 hthr), ← h.width] at hgrow
      obtain ⟨hcode, hdict, hfirst⟩ := he.widens hthr hgrow.2
      exact ⟨hcode.trans hgrow.1.symm, by omega, hfirst⟩
    · rw [if_neg fun heq => hthr (hreach.2 heq)] at hgrow
      obtain ⟨hcode, hdict, hfirst⟩ := he.stays hthr
      exact ⟨by rw [hcode, h.width, hgrow], by omega, hfirst⟩

/-- A legal code brings the run to the next place of the epoch. -/
theorem effect_atCode {n : Nat} {s t : State} {c : Code} {seq : List Byte} (h : AtCode n s)
    (hok : MachineOk t) (he : IterationEffect c seq s t) : AtCode (nextIndex n) t := by
  obtain ⟨hwidth, hsize, hfirst⟩ := effect_schedule h he
  obtain ⟨-, hended, hsink, hmoves⟩ := he.keepsOutside
  have hindex := h.index
  exact {
    ok := hok
    phase := he.keepsStatus.1.trans h.phase
    moves := hmoves.trans h.moves
    sink := hsink.trans h.sink
    ended := hended.trans h.ended
    taken := (he.sinkTakes h.sink h.taken).1
    index := by unfold nextIndex; split_ifs <;> omega
    width := hwidth
    size := hsize
    first := hfirst }

/-! ### One step, and the run -/

/-- The number that the next code of the stream is, at the width of code `n` (R82, R91). -/
def codeAt (n : Nat) (bits : List Bool) : Nat := natOfBits (bits.take (scheduleFormat n).bits)

/-- What the turn at code `n` does: it ends the run where the bits do not suffice for a code, faults at
an illegal one, and goes on to the next place after a legal one (R96, R150). -/
theorem step_atCode {n : Nat} {s t : State} (h : AtCode n s) (hstep : step s = .next t) :
    ((unread s).length < (scheduleFormat n).bits ∧ t.phase = .done ∧ t.moves = []) ∨
    ((scheduleFormat n).bits ≤ (unread s).length ∧ legalCode n (codeAt n (unread s)) = false ∧
      t.phase = .fault ∧ t.moves = []) ∨
    ((scheduleFormat n).bits ≤ (unread s).length ∧ legalCode n (codeAt n (unread s)) = true ∧
      AtCode (nextIndex n) t ∧ unread t = (unread s).drop (scheduleFormat n).bits) := by
  have hok : MachineOk t := everyStepKeepsInv s t h.ok hstep
  have hpend : outPending s = false := by simp [outPending, h.taken]
  rw [step_of_moves_nil h.moves, engineTurn_run h.phase hpend h.ok.noneRaised] at hstep
  rcases decodeStep_cases hstep with hread | ⟨u, hread, rfl⟩ | ⟨f, c, u, hf, hread, hrun⟩
  · obtain ⟨hanswer, -⟩ := readCode_ends h.ok h.phase h.width h.ended (.inr hread)
    simp [hread] at hanswer
  · obtain ⟨-, hshort⟩ := readCode_ends h.ok h.phase h.width h.ended (.inl hread)
    have hmoves : u.moves = [] := by rw [readCode_frame (.inr (.inl hread))]; exact h.moves
    exact .inl ⟨hshort, rfl, hmoves⟩
  · obtain rfl : f = scheduleFormat n := by
      rw [h.width, formatOf_format_bits] at hf
      exact (Option.some.inj hf).symm
    obtain ⟨-, hlong, hcode, htakes⟩ := readCode_takes h.ok h.phase h.width hread
    have hu : AtCode n u := readCode_atCode h hread
    have hlt : c.toNat < 2 ^ (scheduleFormat n).bits :=
      hcode ▸ (toNat_leadingCode (scheduleFormat n) (unread s)).2
    have hlegal := legalCode_iff (c := c.toNat) (scheduleFormat n) hu
    rw [codeAt, ← hcode]
    rcases runCode_by_class (hu.ok.run hu.phase) (by rw [hu.width, formatOf_format_bits])
      (by simp [outPending, hu.taken]) hlt hrun with ⟨hclass, seq, he⟩ | ⟨hclass, hphase, hmoves⟩
    · refine .inr (.inr ⟨hlong, hlegal.2 hclass, effect_atCode hu hok he, ?_⟩)
      rw [unread_sameReader (runCode_sameReader hrun), htakes]
    · exact .inr (.inl ⟨hlong, by simpa using mt hlegal.1 hclass, hphase, hmoves.trans hu.moves⟩)

/-- A run that has ended rests where it is (R194). -/
theorem runSteps_of_ended {s : State} (k : Nat) (h : MachineOk s) (hmoves : s.moves = [])
    (hended : s.phase = .done ∨ s.phase = .fault) : runSteps k s = .next s := by
  have hpend : outPending s = false := by simp [outPending, h.endTaken hended]
  have hrest : step s = .next s := by
    rw [step_of_moves_nil hmoves]
    exact engineTurn_rest (by rcases hended with hp | hp <;> simp [hp]) hpend
  induction k with
  | zero => rfl
  | succ k ih => simp only [runSteps, hrest, ih]

theorem runSteps_succ_cases {k : Nat} {s t : State} (h : runSteps (k + 1) s = .next t) :
    ∃ u, step s = .next u ∧ runSteps k u = .next t := by
  simp only [runSteps] at h
  cases hs : step s with
  | next u => exact ⟨u, rfl, by simpa [hs] using h⟩
  | fault f => simp [hs] at h
  | refused r => simp [hs] at h

theorem legalFrom_of_short {m n : Nat} {bits : List Bool}
    (h : bits.length < (scheduleFormat n).bits) : legalFrom m n bits = true := by
  cases m with
  | zero => rfl
  | succ m => simp [legalFrom, h]

theorem legalFrom_of_long {m n : Nat} {bits : List Bool}
    (h : (scheduleFormat n).bits ≤ bits.length) :
    legalFrom (m + 1) n bits = (legalCode n (codeAt n bits) &&
      legalFrom m (nextIndex n) (bits.drop (scheduleFormat n).bits)) := by
  simp [legalFrom, codeAt, Nat.not_lt.2 h]

/-- From any place of an epoch on: with a step for every 9 bits left and one more, the run ends in
`DONE` exactly where every code left is legal (R96, R162). -/
theorem done_iff_legalFrom {n m k : Nat} {s t : State} (h : AtCode n s)
    (hm : (unread s).length < 9 * (m + 1)) (hk : (unread s).length < 9 * k)
    (hrun : runSteps k s = .next t) : t.phase = .done ↔ legalFrom m n (unread s) = true := by
  induction k generalizing n m s with
  | zero => omega
  | succ k ih =>
    obtain ⟨u, hstep, hrest⟩ := runSteps_succ_cases hrun
    have hok : MachineOk u := everyStepKeepsInv s u h.ok hstep
    obtain ⟨-, -, -, -, hnine, -⟩ := format_facts (scheduleFormat n)
    rcases step_atCode h hstep with ⟨hshort, hphase, hmoves⟩ | ⟨hlong, hcode, hphase, hmoves⟩ |
      ⟨hlong, hcode, hnext, hunread⟩
    · rw [runSteps_of_ended k hok hmoves (.inl hphase), Host.Outcome.next.injEq] at hrest
      rw [← hrest, hphase, legalFrom_of_short hshort]
      simp
    all_goals
      obtain ⟨m, rfl⟩ : ∃ m', m = m' + 1 := ⟨m - 1, by omega⟩
      rw [legalFrom_of_long hlong, hcode]
    · rw [runSteps_of_ended k hok hmoves (.inr hphase), Host.Outcome.next.injEq] at hrest
      simp [← hrest, hphase]
    · have hlen : (unread u).length = (unread s).length - (scheduleFormat n).bits := by
        rw [hunread, List.length_drop]
      rw [Bool.true_and, ← hunread]
      exact ih hnext (by omega) (by omega) hrest

/-- Settles O58: `START` comes before code 1, all of the input unread, and the steps of the run are
enough for its length. -/
theorem doneExactlyForLegalStreams : Obligations.DoneExactlyForLegalStreams := by
  intro input t hrun
  have hlen : (unread (started input)).length = 8 * input.length := by
    rw [unread_started, length_bitString]
  rw [legalStream, ← unread_started]
  exact done_iff_legalFrom (started_atCode input) (by omega) (by omega) hrun

end Sys2Proof.Machine
end

section
/-! The two operations of the reader and the loop over them, for any bits in the buffer, with the
bounds of the bit buffer (R111, R112, R114, R116). -/

namespace Sys2Proof.Machine

/-- Enough bits for a code: the loop performs `EXTRACT` (R112, R114). -/
theorem readLoop_of_codeSize_le {s : State} (n : Nat) (h : s.codeSize.toNat ≤ s.nbits.toNat) :
    readLoop n s = .code (extractCode s) (extractRest s) := by
  cases n with
  | zero => rfl
  | succ n => exact if_neg (not_lt.2 h)

/-- Too few bits and a byte to be had: the loop performs `REFILL` (R111, R114). -/
theorem readLoop_succ_of_byte {s : State} {b : Byte} (n : Nat)
    (hlt : s.nbits.toNat < s.codeSize.toNat) (hb : s.inBytes[s.inPos]? = some b) :
    readLoop (n + 1) s = readLoop n (refill b s) := by
  simp only [readLoop, if_pos hlt, inAvail_byte.2 hb]

/-- The bits that `REFILL` leaves fit their count (R111). -/
theorem refill_acc_lt {s : State} (b : Byte) (hn : s.nbits.toNat ≤ 11)
    (hacc : s.acc.toNat < 2 ^ s.nbits.toNat) :
    (refill b s).acc.toNat < 2 ^ (refill b s).nbits.toNat := by
  have hb : b.toNat < 256 := b.isLt
  rw [refill_acc_toNat b (hacc.trans_le (Nat.pow_le_pow_right (by omega) hn)),
    refill_nbits_toNat b (by omega), pow_add]
  omega

/-- What `ReadCode` may leave with at most `n` refills: after a code fewer than eight bits, and at
the end or in a hold fewer bits than a code has (R116). -/
def ReadBounds (n : Nat) (s : State) : ReadResult → Prop
  | .code _ t => t.nbits.toNat ≤ 7 ∧ t.inPos ≤ s.inPos + n
  | .ended t | .hold t => t.nbits.toNat < s.codeSize.toNat

theorem extract_readBounds {s : State} (n : Nat) (hup : s.nbits.toNat < s.codeSize.toNat + 8) :
    ReadBounds n s (.code (extractCode s) (extractRest s)) := by
  have hrest : (extractRest s).nbits.toNat ≤ 7 := by
    rw [extractRest_nbits_toNat]
    omega
  exact ⟨hrest, Nat.le_add_right _ _⟩

/-- A refill consumes one byte and leaves the width as it was (R111). -/
theorem readBounds_of_refill {n : Nat} {s : State} {b : Byte} {r : ReadResult}
    (h : ReadBounds n (refill b s) r) : ReadBounds (n + 1) s r := by
  cases r with
  | code c t =>
    obtain ⟨hrest, hin⟩ := h
    rw [refill_inPos] at hin
    exact ⟨hrest, by omega⟩
  | ended t | hold t => exact h

/-- The loop refills only below the width, so that the count stays below the width and eight more;
the bits held need not be those of the stream. -/
theorem readLoop_readBounds (n : Nat) {s : State} (hw : s.codeSize.toNat ≤ 12)
    (hup : s.nbits.toNat < s.codeSize.toNat + 8) : ReadBounds n s (readLoop n s) := by
  induction n generalizing s with
  | zero => exact extract_readBounds 0 hup
  | succ n ih =>
    simp only [readLoop]
    split_ifs with hlt
    · cases inAvail s with
      | byte b =>
        have hn : (refill b s).nbits.toNat = s.nbits.toNat + 8 := refill_nbits_toNat b (by omega)
        exact readBounds_of_refill (ih hw (by rw [hn, refill_codeSize]; omega))
      | ended | wait => exact hlt
    · exact extract_readBounds (n + 1) hup

/-- Settles O14: the bounds are those of the loop, which `ReadCode` runs with two refills. -/
theorem readerHoldsFewBits : Obligations.ReaderHoldsFewBits := by
  intro s _ hw hfew
  have hbounds : ReadBounds 2 s (readCode s) := readLoop_readBounds 2 hw (by omega)
  constructor
  · intro c t hread
    rwa [hread] at hbounds
  · intro t hread
    have hlt : t.nbits.toNat < s.codeSize.toNat := by
      rcases hread with hread | hread <;> rwa [hread] at hbounds
    exact ⟨hlt, by omega⟩

/-- Settles O11: below the width at most 11 bits are held, so that neither the buffer nor its count
overflows. -/
theorem refillPutsTheByteBelow : Obligations.RefillPutsTheByteBelow := by
  intro s b hb hlt hw hacc
  have hn : s.nbits.toNat ≤ 11 := by omega
  have hacc11 : s.acc.toNat < 2 ^ 11 := hacc.trans_le (Nat.pow_le_pow_right (by omega) hn)
  have hvalue : (refill b s).acc.toNat = (s.acc.toNat <<< 8) ||| b.toNat := by
    rw [refill_acc_toNat b hacc11, ← Nat.shiftLeft_add_eq_or_of_lt b.isLt, Nat.shiftLeft_eq]
  exact ⟨fun n => readLoop_succ_of_byte n hlt hb, refill_inPos b s, hvalue,
    refill_nbits_toNat b (by omega), refill_acc_lt b hn hacc, rfl⟩

/-- Settles O12: a mask of `k` bits is the remainder by `2 ^ k`. -/
theorem extractDeliversTheOldestBits : Obligations.ExtractDeliversTheOldestBits := by
  intro s hle hw
  have hcode := extractCode_toNat hw
  have hcodeLt : (extractCode s).toNat < 2 ^ s.codeSize.toNat := by
    rw [hcode]
    exact Nat.mod_lt _ (Nat.two_pow_pos _)
  have hrest := extractRest_nbits_toNat s
  have hacc := extractRest_acc_toNat s
  rw [← Nat.and_two_pow_sub_one_eq_mod, ← Nat.one_shiftLeft] at hcode hacc
  rw [← hrest] at hacc
  exact ⟨fun n => readLoop_of_codeSize_le n hle, hcode, hcodeLt, hrest, hacc, rfl⟩

end Sys2Proof.Machine
end

section
/-! The dictionary operations (R131 to R133) and the sequences that live indices stand for (R134 to
R142). -/

namespace Sys2Proof.Machine

/-! ### The operations -/

/-- Settles O16: the reset writes the baseline, read entry by entry, and the count. -/
theorem dictResetIsTheBaseline : Obligations.DictResetIsTheBaseline :=
  fun _ => ⟨memRead_singletons, rfl, rfl⟩

/-- A read at or above `dictSize` is the model's fault, whatever the memory holds there (R42, R133). -/
theorem dictRead_of_dictSize_le {s : State} {i : Nat} (h : s.dictSize.toNat ≤ i) :
    dictRead s i = .error (.deadEntry i) := if_neg (not_lt.2 h)

/-- Settles O19: the two sides of the guard of `DICT_READ`. -/
theorem dictReadNeedsALiveEntry : Obligations.DictReadNeedsALiveEntry :=
  ⟨fun _ _ _ hlive hread => dictRead_ok.2 ⟨hlive, hread⟩, fun _ _ => dictRead_of_dictSize_le⟩

/-- Below the capacity an append writes its entry and counts it (R132). -/
theorem dictAppend_of_lt {s : State} (b : Byte) (p : Code) (h : s.dictSize.toNat < 4096) :
    dictAppend b p s = some { s with
      dict := memWrite s.dict s.dictSize.toNat { sym := b, parent := some p }
      dictSize := s.dictSize + 1 } := if_neg (not_le.2 h)

/-- At the capacity the iteration raises `DictOverflow` after its output step (R132, R223). -/
theorem finishCode_of_full {s : State} {p : Code} {seq : List Byte} (c : Code) (hseq : seq ≠ [])
    (hfull : 4096 ≤ s.dictSize.toNat) (hfirst : s.firstOfEpoch = false) (hprev : s.prevCode = some p) :
    finishCode c seq s = .next (raiseFault .dictOverflow c (outPushAll s seq)) := by
  obtain ⟨first, rest, rfl⟩ := List.exists_cons_of_ne_nil hseq
  obtain ⟨n, a, hout, -⟩ := outPushAll_cases s (first :: rest)
  have happend : appendStep first (outPushAll s (first :: rest)) = .ok none := by
    rw [hout, appendStep]
    simp only [hfirst, hprev, Bool.false_eq_true, if_false, Except.ok.injEq]
    exact dictAppend_none.2 hfull
  simp only [finishCode, happend]

/-- Settles O17: the append is a write at `dictSize`; at the capacity the sink decides whether the fault
is entered or waits, since it takes all bytes of the iteration or none. -/
theorem dictAppendWritesOneEntry : Obligations.DictAppendWritesOneEntry := by
  refine ⟨fun s b p hroom => ?_, fun s c p first rest hfull hfirst hprev => ?_⟩
  · exact ⟨_, dictAppend_of_lt b p hroom, dictSize_succ hroom, memRead_memWrite _ _ _, rfl⟩
  · obtain ⟨n, a, hout, hstalled, hready⟩ := outPushAll_cases s (first :: rest)
    refine ⟨_, finishCode_of_full c (List.cons_ne_nil first rest) hfull hfirst hprev,
      by simp [hout], by simp [hout], fun hsink htaken => ?_, fun hsink htaken => ?_⟩
    · have hpend : outPending (outPushAll s (first :: rest)) = false := by
        simp [outPending, hout, (hready hsink htaken).1]
      simp [raiseFault, hpend]
    · have hpend : outPending (outPushAll s (first :: rest)) = true := by
        simp only [outPending, hout, (hstalled hsink).1, List.length_append, List.length_cons,
          decide_eq_true_eq]
        omega
      simp [raiseFault, hpend]

/-! ### The sequences of live indices -/

/-- An append leaves every live entry as it is (R132, R142). -/
theorem dictAppend_extends {s t : State} {b : Byte} {p : Code} (h : dictAppend b p s = some t) :
    t.dictSize.toNat = s.dictSize.toNat + 1 ∧
      memRead t.dict s.dictSize.toNat = some { sym := b, parent := some p } ∧
      ∀ i, i < s.dictSize.toNat → memRead t.dict i = memRead s.dict i := by
  obtain ⟨hroom, rfl⟩ := dictAppend_cases h
  exact ⟨dictSize_succ hroom, memRead_memWrite_same _ _ _,
    fun i hi => memRead_memWrite_ne _ _ hi.ne⟩

/-- Settles O22: a chain meets live entries only, and the append writes a dead one. -/
theorem appendKeepsOlderSequences : Obligations.AppendKeepsOlderSequences := by
  intro s t b p i w happend hw
  obtain ⟨hsize, -, hold⟩ := dictAppend_extends happend
  exact reconstruct_extend (by omega) hold hw

/-- Settles O23: the chain of the new entry is one link before its parent's. -/
theorem appendedEntryExtendsItsParent : Obligations.AppendedEntryExtendsItsParent := by
  intro s t b p w happend hw hlen
  obtain ⟨hsize, hnew, hold⟩ := dictAppend_extends happend
  exact reconstruct_of_append hsize hnew hold hw hlen

/-- A live index holds a singleton, or an entry with a lower parent (R52, R138). -/
theorem dictOk_live_cases {s : State} {i : Nat} (hd : DictOk s) (hlive : i < s.dictSize.toNat) :
    (i < 256 ∧ dictRead s i = .ok { sym := BitVec.ofNat 8 i, parent := none }) ∨
    (256 ≤ i ∧ ∃ e p, dictRead s i = .ok e ∧ e.parent = some p ∧ p.toNat < i) := by
  rcases lt_or_ge i 256 with hi | hi
  · exact .inl ⟨hi, dictRead_ok.2 ⟨hlive, hd.singleton i hi⟩⟩
  · obtain ⟨e, p, hread, hp, hlt⟩ := hd.dynamic i hi hlive
    exact .inr ⟨hi, e, p, dictRead_ok.2 ⟨hlive, hread⟩, hp, hlt⟩

/-- Chains descend, so the walk from a live index `i` ends within `i + 1` reads (R138). -/
theorem exists_chainWalk_of_live {s : State} {i : Nat} (hd : DictOk s)
    (hlive : i < s.dictSize.toNat) : ∃ w, chainWalk s (i + 1) i = .ok w := by
  induction i using Nat.strong_induction_on with
  | _ i ih =>
    rcases dictOk_live_cases hd hlive with ⟨-, hread⟩ | ⟨-, e, p, hread, hp, hlt⟩
    · exact ⟨_, chainWalk_root i hread rfl⟩
    · obtain ⟨v, hv⟩ := ih p.toNat hlt (hlt.trans hlive)
      exact ⟨_, chainWalk_link hread hp (chainWalk_mono hv hlt)⟩

/-- The sequence of a singleton (R52, R136). -/
theorem reconstruct_singleton {s : State} {i : Nat} (hd : DictOk s) (hi : i < 256)
    (hlive : i < s.dictSize.toNat) : reconstruct s i = .ok [BitVec.ofNat 8 i] :=
  reconstruct_ok.2 (chainWalk_root 4095 (dictRead_ok.2 ⟨hlive, hd.singleton i hi⟩) rfl)

/-- The sequence of an entry above the singletons is its parent's and its own symbol (R136). -/
theorem reconstruct_link {s : State} {i : Nat} (hd : DictOk s) (hcap : s.dictSize.toNat ≤ 4096)
    (hi : 256 ≤ i) (hlive : i < s.dictSize.toNat) :
    ∃ e p v, memRead s.dict i = some e ∧ e.parent = some p ∧ p.toNat < i ∧
      reconstruct s p.toNat = .ok v ∧ reconstruct s i = .ok (v ++ [e.sym]) := by
  obtain ⟨e, p, hread, hp, hlt⟩ := hd.dynamic i hi hlive
  obtain ⟨v, hv⟩ := exists_chainWalk_of_live hd (hlt.trans hlive)
  have hparent : chainWalk s 4095 p.toNat = .ok v := chainWalk_mono hv (by omega)
  have hentry : chainWalk s 4096 i = .ok (e.sym :: v) :=
    chainWalk_link (dictRead_ok.2 ⟨hlive, hread⟩) hp hparent
  refine ⟨e, p, v.reverse, hread, hp, hlt, reconstruct_ok.2 ?_, reconstruct_ok.2 ?_⟩
  · rw [List.reverse_reverse]
    exact chainWalk_mono hparent (by decide)
  · rw [List.reverse_append, List.reverse_reverse]
    exact hentry

/-- Settles O21: the chain of an entry is one link before its parent's, whose sequence has a first
byte. -/
theorem sequenceFollowsTheParent : Obligations.SequenceFollowsTheParent := by
  intro s i hd hcap hi hlive
  obtain ⟨e, p, v, hread, hp, hlt, hv, hw⟩ := reconstruct_link hd hcap hi hlive
  obtain ⟨b, w, rfl⟩ := List.exists_cons_of_ne_nil (reconstruct_ne_nil hv)
  exact ⟨e, p, b, w, hread, hp, hlt, hv, hw⟩

/-- Settles O20: a singleton is its own byte; above, the parent gives at least one byte, and the chain
descends. -/
theorem liveChainsEndAtASingleton : Obligations.LiveChainsEndAtASingleton := by
  intro s i hd hcap hlive
  rcases lt_or_ge i 256 with hi | hi
  · exact ⟨_, reconstruct_singleton hd hi hlive, fun _ => rfl, fun h => by omega⟩
  · obtain ⟨e, p, v, -, -, -, hv, hw⟩ := reconstruct_link hd hcap hi hlive
    have hne : 0 < v.length := List.length_pos_of_ne_nil (reconstruct_ne_nil hv)
    have hbound := chainWalk_length_le_index hd (reconstruct_ok.1 hw)
    refine ⟨_, hw, fun h => by omega, fun _ => ?_⟩
    simp only [List.length_reverse, List.length_append, List.length_singleton] at hbound ⊢
    omega

end Sys2Proof.Machine
end

section
/-! `DICT_OVERFLOW` is never raised (R132, R165). -/

namespace Sys2Proof.Machine

/-- No overflow is recorded that was not recorded before. -/
def NoNewOverflow (s t : State) : Prop := t.cause = .dictOverflow → s.cause = .dictOverflow

theorem noNewOverflow_of_eq {s t : State} (h : t.cause = s.cause) : NoNewOverflow s t :=
  fun ht => h ▸ ht

/-- A code that runs records one of the other two causes, or completes its iteration: there is room for
every append of a run (R165). -/
theorem runCode_noNewOverflow {f : Format} {c : Code} {s t : State} (h : RunOk s)
    (hrun : runCode f c s = .next t) : NoNewOverflow s t := by
  rcases runCode_cases hrun with ⟨k, c', hk, rfl⟩ | ⟨i, seq, -, -, -, hfin⟩
  · rcases raiseFault_cases k c' s with ⟨-, hraise⟩ | ⟨-, hraise⟩ <;> rw [hraise]
    · intro hcause
      rw [takeFault_cause] at hcause
      simp [hcause] at hk
    · exact noNewOverflow_of_eq rfl
  · obtain ⟨-, he⟩ := runOk_finishCode h hfin
    exact noNewOverflow_of_eq he.keepsStatus.2.1

theorem decodeStep_noNewOverflow {s t : State} (h : RunOk s) (hdecode : decodeStep s = .next t) :
    NoNewOverflow s t := by
  rcases decodeStep_cases hdecode with hread | ⟨u, hread, rfl⟩ | ⟨f, c, u, -, hread, hrun⟩
  · exact noNewOverflow_of_eq (by rw [readCode_frame (.inr (.inr hread))])
  · exact noNewOverflow_of_eq (by rw [readCode_frame (.inr (.inl hread))]; rfl)
  · have hframe := readCode_frame (.inl ⟨c, hread⟩)
    have hu : RunOk u := sameDecoder_runOk (by rw [hframe]; constructor <;> rfl) h
    have hcause : u.cause = s.cause := by rw [hframe]
    exact fun ht => hcause ▸ runCode_noNewOverflow hu hrun ht

theorem engineTurn_noNewOverflow {s t : State} (h : MachineOk s) (hturn : engineTurn s = .next t) :
    NoNewOverflow s t := by
  rcases engineTurn_cases hturn with rfl | rfl | ⟨k, c, hraised, -⟩ | ⟨hphase, -, hdecode⟩
  · exact noNewOverflow_of_eq rfl
  · obtain ⟨n, a, htake, -⟩ := sinkTake_frame s
    exact noNewOverflow_of_eq (by rw [htake])
  · simp [h.noneRaised] at hraised
  · exact decodeStep_noNewOverflow (h.run hphase) hdecode

/-- The turns of the other agents keep the cause or, as `rst` and `START` do, clear it (R192, R250). -/
theorem moveTurn_cause {m : Move} {s t : State} (hm : m ≠ .engine) (hturn : moveTurn m s = .next t) :
    t.cause = s.cause ∨ t.cause = .none := by
  cases m with
  | engine => exact absurd rfl hm
  | rst => cases hturn; exact .inr rfl
  | start =>
    cases hturn
    unfold startCommand
    split
    · exact .inl rfl
    all_goals exact .inr rfl
  | offer b =>
    simp only [moveTurn, sourceOffer] at hturn
    split_ifs at hturn
    cases hturn
    exact .inl rfl
  | endInput => cases hturn; exact .inl rfl
  | drain =>
    rcases sourceDrain_cases s with ⟨-, hdrain⟩ | ⟨-, bytes, hdrain, -⟩ <;>
      simp only [moveTurn, hdrain] at hturn <;> cases hturn
    exact .inl rfl
  | accept =>
    cases hturn
    obtain ⟨n, a, htake, -⟩ := sinkTake_frame s
    exact .inl (by rw [htake])
  | sinkReady level => cases hturn; exact .inl rfl

theorem moveTurn_noNewOverflow {m : Move} {s t : State} (h : MachineOk s)
    (hturn : moveTurn m s = .next t) : NoNewOverflow s t := by
  by_cases hm : m = .engine
  · subst hm
    exact engineTurn_noNewOverflow h hturn
  · rcases moveTurn_cause hm hturn with hcause | hcause
    · exact noNewOverflow_of_eq hcause
    · exact fun ht => by simp [hcause] at ht

/-- Settles O47: the engine's turns by the room that the invariant leaves, the others by the cause that
they keep or clear; that no fault waits is part of the invariant, which every step keeps. -/
theorem overflowNeverFires : Obligations.OverflowNeverFires := by
  intro s t hok hstep
  refine ⟨?_, (everyStepKeepsInv s t hok hstep).noneRaised⟩
  cases hmoves : s.moves with
  | nil =>
    rw [step_of_moves_nil hmoves] at hstep
    exact engineTurn_noNewOverflow hok hstep
  | cons m ms =>
    rw [step_of_moves_cons hmoves] at hstep
    have hnew : NoNewOverflow { s with moves := ms } t :=
      moveTurn_noNewOverflow (schedule_machineOk s.sinkReady ms hok) hstep
    exact hnew

end Sys2Proof.Machine
end

section
/-! The chains compute what whole sequences would (R136, R139, R142, R152). `TableOk` relates the
dictionary to a table of whole sequences and `prevCode` to the previous sequence; an iteration keeps the
relation and pushes the sequence of the table. -/

namespace Sys2Proof.Machine

/-! ### The decoder that keeps whole sequences -/

/-- The table after code `n` (R91, R92, R156): code 3840 ends the epoch, code 1 adds nothing, any other
code adds the previous sequence with the first byte of its own. -/
def nextTable (n : Nat) (table : List (List Byte)) (prev seq : List Byte) : List (List Byte) :=
  if n = 3840 then [] else if n = 1 then table else table ++ [prev ++ seq.take 1]

theorem tableSequence_of_lt {table : List (List Byte)} {prev : List Byte} {c : Nat} (h : c < 256) :
    tableSequence table prev c = [BitVec.ofNat 8 c] := if_pos h

/-- The code just past the table stands for the previous sequence and its first byte (R152). -/
theorem tableSequence_past {table : List (List Byte)} {prev : List Byte} :
    tableSequence table prev (256 + table.length) = prev ++ prev.take 1 := by
  simp [tableSequence]

/-- A code that the table has keeps its sequence, whatever is added and whatever came before. -/
theorem tableSequence_append {table : List (List Byte)} {c : Nat} (more : List (List Byte))
    (prev prev' : List Byte) (h : c < 256 + table.length) :
    tableSequence (table ++ more) prev' c = tableSequence table prev c := by
  unfold tableSequence
  split_ifs with hsingle hmore
  · rfl
  · exact List.getD_append table more [] (c - 256) (by omega)
  · simp only [List.length_append] at hmore
    omega

/-- The sequence that is added belongs to the next index. -/
theorem tableSequence_added {table : List (List Byte)} {w prev : List Byte} :
    tableSequence (table ++ [w]) prev (256 + table.length) = w := by
  simp [tableSequence]

theorem tableOutput_of_short {k n : Nat} {table : List (List Byte)} {prev : List Byte}
    {bits : List Bool} (h : bits.length < (scheduleFormat n).bits) :
    tableOutput k n table prev bits = [] := by
  cases k with
  | zero => rfl
  | succ k => simp only [tableOutput, if_pos h]

theorem tableOutput_of_illegal {k n : Nat} {table : List (List Byte)} {prev : List Byte}
    {bits : List Bool} (h : legalCode n (codeAt n bits) = false) :
    tableOutput k n table prev bits = [] := by
  rw [codeAt] at h
  cases k with
  | zero => rfl
  | succ k => simp [tableOutput, h]

theorem tableOutput_of_legal {k n : Nat} {table : List (List Byte)} {prev seq : List Byte}
    {bits : List Bool} (hlong : (scheduleFormat n).bits ≤ bits.length)
    (h : legalCode n (codeAt n bits) = true) (hseq : tableSequence table prev (codeAt n bits) = seq) :
    tableOutput (k + 1) n table prev bits =
      seq ++ tableOutput k (nextIndex n) (nextTable n table prev seq) seq
        (bits.drop (scheduleFormat n).bits) := by
  subst hseq
  rw [codeAt] at h
  simp only [tableOutput, if_neg (not_lt.2 hlong), h, if_true, codeAt, nextTable]

/-! ### The relation to the dictionary -/

/-- Every live index has the sequence that the table has for its code, and the previous code has the
previous sequence. -/
structure TableOk (table : List (List Byte)) (prev : List Byte) (s : State) : Prop where
  size : s.dictSize.toNat = 256 + table.length
  live : ∀ i, i < s.dictSize.toNat → reconstruct s i = .ok (tableSequence table prev i)
  previous : s.firstOfEpoch = false →
    ∃ p, s.prevCode = some p ∧ reconstruct s p.toNat = .ok prev

/-- At the start of an epoch the table is empty, and any sequence may stand as the previous one. -/
theorem tableOk_of_baseline {s : State} (prev : List Byte) (hd : DictOk s)
    (hsize : s.dictSize.toNat = 256) (hfirst : s.firstOfEpoch = true) : TableOk [] prev s where
  size := hsize
  live i hi := by
    rw [tableSequence_of_lt (hsize ▸ hi)]
    exact reconstruct_singleton hd (hsize ▸ hi) hi
  previous h := by simp [hfirst] at h

theorem sameDecoder_tableOk {table : List (List Byte)} {prev : List Byte} {s t : State}
    (hd : SameDecoder s t) (h : TableOk table prev s) : TableOk table prev t where
  size := by rw [hd.dictSize]; exact h.size
  live i hi := by
    rw [hd.dictSize] at hi
    rw [reconstruct_congr hd.dict hd.dictSize, h.live i hi]
  previous hfirst := by
    rw [hd.firstOfEpoch] at hfirst
    obtain ⟨p, hprev, hrec⟩ := h.previous hfirst
    exact ⟨p, hd.prevCode.trans hprev, by rw [reconstruct_congr hd.dict hd.dictSize, hrec]⟩

/-- The operand of a legal code is the sequence that the table has for it (R151, R152). -/
theorem operandSequence_eq_table {i : Instr} {table : List (List Byte)} {prev : List Byte}
    {s : State} (h : RunOk s) (htable : TableOk table prev s) (hlegal : CodeIsLegal i s) :
    operandSequence i s = .ok (tableSequence table prev i.code.toNat) := by
  rcases hlegal with ⟨hclass, hlive⟩ | ⟨hclass, hcode, hfirst⟩ <;>
    simp only [operandSequence, hclass]
  · exact htable.live _ hlive
  · obtain ⟨p, hp, hprev⟩ := htable.previous hfirst
    obtain ⟨p', b, w, hp', hb, -, hw⟩ := h.previous hfirst
    obtain rfl : p = p' := Option.some.inj (hp.symm.trans hp')
    obtain rfl : prev = b :: w := Except.ok.inj (hprev.symm.trans hw)
    rw [hcode, htable.size, tableSequence_past]
    exact seqKwkwk_ok.2 ⟨p, b, b :: w, hp, hb, hw, rfl⟩

/-! ### An iteration keeps the relation -/

/-- An iteration within the epoch keeps every sequence (R142). -/
theorem effect_reconstruct_of_live {c : Code} {seq w : List Byte} {s t : State} {j : Nat}
    (he : IterationEffect c seq s t) (hgo : EpochGoesOn s) (hw : reconstruct s j = .ok w) :
    reconstruct t j = .ok w := by
  obtain ⟨hsize, -⟩ := effect_epochGoesOn he hgo
  exact reconstruct_extend (hsize ▸ (sizeAfterAppend_bounds s).1)
    (fun k hk => he.keepsEntries hgo k fun _ => hk.ne) hw

/-- The entry that an iteration appends stands for the previous sequence and the first byte of its own
(R139, R156). -/
theorem effect_reconstruct_appended {c : Code} {table : List (List Byte)} {prev seq : List Byte}
    {s t : State} (h : RunOk s) (htable : TableOk table prev s) (he : IterationEffect c seq s t)
    (hgo : EpochGoesOn s) (hfirst : s.firstOfEpoch = false) :
    reconstruct t s.dictSize.toNat = .ok (prev ++ seq.take 1) := by
  obtain ⟨hsize, -⟩ := effect_epochGoesOn he hgo
  rw [sizeAfterAppend_later hfirst] at hsize
  obtain ⟨b, p, hhead, hp, hnew⟩ := he.appends hfirst hgo
  obtain ⟨p', hp', hprev⟩ := htable.previous hfirst
  obtain rfl : p = p' := Option.some.inj (hp.symm.trans hp')
  have hlen := reconstruct_length_lt h.dict (runOk_dictSize_le h) hprev
  rw [List.take_one, hhead]
  exact reconstruct_of_append hsize hnew (fun j hj => he.keepsEntries hgo j fun _ => hj.ne) hprev
    (by omega)

/-- Code 3840 is the one whose growth test ends the epoch (R92, R160). -/
theorem epochGoesOn_iff {n : Nat} {s : State} (h : AtCode n s) : EpochGoesOn s ↔ n ≠ 3840 := by
  obtain ⟨-, hup⟩ := h.index
  rw [EpochGoesOn, reachesThreshold, atCode_sizeAfterAppend h, h.width]
  unfold scheduleFormat
  split_ifs <;> simp only [Format.bits] <;> omega

/-- The first code of an epoch leaves the table; a later one adds what its appended entry stands for. -/
theorem effect_tableOk_of_goesOn {n : Nat} {i : Instr} {table : List (List Byte)}
    {prev seq : List Byte} {s t : State} (h : AtCode n s) (hn : n ≠ 3840)
    (htable : TableOk table prev s) (hlegal : CodeIsLegal i s) (hseq : operandSequence i s = .ok seq)
    (he : IterationEffect i.code seq s t) : TableOk (nextTable n table prev seq) seq t := by
  have hrun : RunOk s := h.ok.run h.phase
  have hgo : EpochGoesOn s := (epochGoesOn_iff h).2 hn
  have hfirst := h.first
  obtain ⟨hsize, -⟩ := effect_epochGoesOn he hgo
  have hprev : ∃ p, t.prevCode = some p ∧ reconstruct t p.toNat = .ok seq :=
    ⟨i.code, he.prevCode, effect_reconstruct hrun hlegal hseq he hgo⟩
  have hkept : ∀ (more : List (List Byte)) j, j < s.dictSize.toNat →
      reconstruct t j = .ok (tableSequence (table ++ more) seq j) := by
    intro more j hj
    rw [tableSequence_append more prev seq (htable.size ▸ hj)]
    exact effect_reconstruct_of_live he hgo (htable.live j hj)
  rw [nextTable, if_neg hn]
  split_ifs with hone
  · rw [sizeAfterAppend_first (by simp [hfirst, hone])] at hsize
    exact ⟨hsize.trans htable.size,
      fun j hj => by simpa using hkept [] j (hsize ▸ hj), fun _ => hprev⟩
  · have hlater : s.firstOfEpoch = false := by simp [hfirst, hone]
    rw [sizeAfterAppend_later hlater] at hsize
    refine ⟨by simp [hsize, htable.size, Nat.add_assoc], fun j hj => ?_, fun _ => hprev⟩
    rcases Nat.lt_succ_iff_lt_or_eq.1 (hsize ▸ hj) with hold | rfl
    · exact hkept _ j hold
    · rw [effect_reconstruct_appended hrun htable he hgo hlater, htable.size, tableSequence_added]

/-- Every legal code keeps the relation: code 3840 takes the dictionary and the table back to the start
of an epoch (R160), and any other stays within it. -/
theorem effect_tableOk {n : Nat} {i : Instr} {table : List (List Byte)} {prev seq : List Byte}
    {s t : State} (h : AtCode n s) (htable : TableOk table prev s) (hlegal : CodeIsLegal i s)
    (hseq : operandSequence i s = .ok seq) (he : IterationEffect i.code seq s t) :
    TableOk (nextTable n table prev seq) seq t := by
  by_cases hn : n = 3840
  · obtain ⟨-, hsize, hfirst⟩ := effect_schedule h he
    subst hn
    exact tableOk_of_baseline seq (effect_dictOk (h.ok.run h.phase) he) hsize hfirst
  · exact effect_tableOk_of_goesOn h hn htable hlegal hseq he

/-! ### One step, and the run -/

/-- What a step at code `n` does to the output and the table: it leaves the output and the run is over,
or the next code of the stream is legal and its sequence is pushed. -/
theorem step_output {n : Nat} {table : List (List Byte)} {prev : List Byte} {s t : State}
    (h : AtCode n s) (htable : TableOk table prev s) (hstep : step s = .next t) :
    (t.phase ≠ .run ∧ t.out = s.out) ∨
    (t.phase = .run ∧ ∃ seq, tableSequence table prev (codeAt n (unread s)) = seq ∧
      t.out = s.out ++ seq ∧ TableOk (nextTable n table prev seq) seq t) := by
  have hpend : outPending s = false := by simp [outPending, h.taken]
  rw [step_of_moves_nil h.moves, engineTurn_run h.phase hpend h.ok.noneRaised] at hstep
  rcases decodeStep_cases hstep with hread | ⟨u, hread, rfl⟩ | ⟨f, c, u, hf, hread, hrun⟩
  · obtain ⟨hanswer, -⟩ := readCode_ends h.ok h.phase h.width h.ended (.inr hread)
    simp [hread] at hanswer
  · have hframe := readCode_frame (.inr (.inl hread))
    exact .inl ⟨by simp, by rw [endSpent_out, endOfRun_out, hframe]⟩
  · obtain rfl : f = scheduleFormat n := by
      rw [h.width, formatOf_format_bits] at hf
      exact (Option.some.inj hf).symm
    obtain ⟨-, -, hcode, -⟩ := readCode_takes h.ok h.phase h.width hread
    have hu : AtCode n u := readCode_atCode h hread
    have hframe := readCode_frame (.inl ⟨c, hread⟩)
    have hout : u.out = s.out := by rw [hframe]
    have hutable : TableOk table prev u :=
      sameDecoder_tableOk (by rw [hframe]; constructor <;> rfl) htable
    have hlt : c.toNat < 2 ^ (scheduleFormat n).bits :=
      hcode ▸ (toNat_leadingCode (scheduleFormat n) (unread s)).2
    rcases runCode_cases hrun with ⟨k, c', -, rfl⟩ | ⟨i, seq, hdecode, hclass, hseq, hfin⟩
    · rcases raiseFault_cases k c' u with ⟨-, hentry⟩ | ⟨hpend', -⟩
      · exact .inl ⟨by simp [hentry], by rw [raiseFault_out, hout]⟩
      · simp [outPending, hu.taken] at hpend'
    · obtain ⟨-, rfl⟩ := (decodeCode_eq_ok_iff (σ := selectorOf (scheduleFormat n) u) hlt).1 hdecode
      have hlegal : CodeIsLegal i u := decodeCode_codeIsLegal hlt hdecode hclass
      have hurun : RunOk u := hu.ok.run hu.phase
      obtain ⟨-, he⟩ := runOk_finishCode hurun hfin
      have hsequence := operandSequence_eq_table hurun hutable hlegal
      rw [hseq, Except.ok.injEq, hcode] at hsequence
      exact .inr ⟨he.keepsStatus.1.trans hu.phase, seq, hsequence.symm, by rw [he.out, hout],
        effect_tableOk hu hutable hlegal hseq he⟩

/-- From any place of an epoch on, a run adds to its output what the decoder of whole sequences gives
for the bits left. -/
theorem out_eq_tableOutput {n m k : Nat} {table : List (List Byte)} {prev : List Byte}
    {s t : State} (h : AtCode n s) (htable : TableOk table prev s)
    (hm : (unread s).length < 9 * (m + 1)) (hk : (unread s).length < 9 * k)
    (hrun : runSteps k s = .next t) :
    t.out = s.out ++ tableOutput m n table prev (unread s) := by
  induction k generalizing n m s table prev with
  | zero => omega
  | succ k ih =>
    obtain ⟨u, hstep, hrest⟩ := runSteps_succ_cases hrun
    have hok : MachineOk u := everyStepKeepsInv s u h.ok hstep
    have houtput := step_output h htable hstep
    obtain ⟨-, -, -, -, hnine, -⟩ := format_facts (scheduleFormat n)
    rcases step_atCode h hstep with ⟨hshort, hphase, hmoves⟩ | ⟨hlong, hcode, hphase, hmoves⟩ |
      ⟨hlong, hcode, hnext, hunread⟩
    · rw [runSteps_of_ended k hok hmoves (.inl hphase), Host.Outcome.next.injEq] at hrest
      subst hrest
      simpa [hphase, tableOutput_of_short hshort] using houtput
    · rw [runSteps_of_ended k hok hmoves (.inr hphase), Host.Outcome.next.injEq] at hrest
      subst hrest
      simpa [hphase, tableOutput_of_illegal hcode] using houtput
    · obtain ⟨hphase, -⟩ | ⟨-, seq, hseq, hout, hutable⟩ := houtput
      · exact absurd hnext.phase hphase
      · obtain ⟨m, rfl⟩ : ∃ m', m = m' + 1 := ⟨m - 1, by omega⟩
        have hlen : (unread u).length = (unread s).length - (scheduleFormat n).bits := by
          rw [hunread, List.length_drop]
        rw [tableOutput_of_legal hlong hcode hseq, ← hunread, ← List.append_assoc, ← hout]
        exact ih hnext hutable (by omega) (by omega) hrest

/-- Settles O59: after `START` nothing is pushed and the table is empty, and the steps of the run are
enough for the length of the input. -/
theorem outputIsThatOfWholeSequences : Obligations.OutputIsThatOfWholeSequences := by
  intro input t hrun
  have hlen : (unread (started input)).length = 8 * input.length := by
    rw [unread_started, length_bitString]
  have hbaseline : TableOk [] [] (started input) :=
    tableOk_of_baseline [] (baseline_dictOk rfl rfl) rfl rfl
  rw [← unread_started]
  exact out_eq_tableOutput (started_atCode input) hbaseline (by omega) (by omega) hrun

end Sys2Proof.Machine
end

section
/-! The eight legal instructions (R151, R152): the effect of one iteration, what it leaves alone, and why
a run always completes it. -/

namespace Sys2Proof.Machine

/-! ### The effect of one instruction -/

/-- A legal code stands for at least one byte (R136). -/
theorem operandSequence_ne_nil {i : Instr} {s : State} {seq : List Byte}
    (h : operandSequence i s = .ok seq) : seq ≠ [] := by
  unfold operandSequence at h
  cases hk : i.codeClass <;> simp only [hk] at h
  case known => exact seqKnown_ne_nil h
  all_goals exact seqKwkwk_ne_nil h

/-- Where its sequence is found and the append cannot stop, a legal instruction has the whole effect of
its iteration (R155 to R160). -/
theorem exec_effect {i : Instr} {s : State} {seq : List Byte} (hclass : LegalClass i.codeClass)
    (hseq : operandSequence i s = .ok seq) (happend : Appendable s) :
    ∃ t, exec i s = .next t ∧ IterationEffect i.code seq s t := by
  rw [exec_of_operand hclass hseq]
  exact finishCode_effect i.code (operandSequence_ne_nil hseq) happend

/-- Settles O33: the operand of each `KNOWN` row is the chain of its entry. -/
theorem knownCompletes : Obligations.KnownCompletes := by
  intro s seq happend
  exact ⟨fun c hseq => exec_effect (i := .knownC9 c) (.inl rfl) hseq happend,
    fun c hseq => exec_effect (i := .knownC10 c) (.inl rfl) hseq happend,
    fun c hseq => exec_effect (i := .knownC11 c) (.inl rfl) hseq happend,
    fun c hseq => exec_effect (i := .knownC12 c) (.inl rfl) hseq happend⟩

/-- Settles O34: the operand of each `KWKWK` row is the previous sequence and its first byte. -/
theorem kwkwkCompletes : Obligations.KwkwkCompletes := by
  intro s p b w happend hprev hfirst hw
  have hseq : seqKwkwk s = .ok (w ++ [b]) := seqKwkwk_ok.2 ⟨p, b, w, hprev, hfirst, hw, rfl⟩
  exact ⟨fun c => exec_effect (i := .kwkwkC9 c) (.inr rfl) hseq happend,
    fun c => exec_effect (i := .kwkwkC10 c) (.inr rfl) hseq happend,
    fun c => exec_effect (i := .kwkwkC11 c) (.inr rfl) hseq happend,
    fun c => exec_effect (i := .kwkwkC12 c) (.inr rfl) hseq happend⟩

/-! ### The frame -/

/-- An iteration that does not end its epoch writes at most the entry at `dictSize`, and none in the
first iteration (R156). -/
theorem effect_keepsEntries {c : Code} {seq : List Byte} {s t : State}
    (he : IterationEffect c seq s t) (hgo : ¬ (reachesThreshold s ∧ 12 ≤ s.codeSize.toNat)) (a : Nat)
    (ha : s.firstOfEpoch = false → a ≠ s.dictSize.toNat) : memRead t.dict a = memRead s.dict a :=
  he.keepsEntries (fun hthr => not_le.1 fun hwide => hgo ⟨hthr, hwide⟩) a ha

/-- Settles O38: an iteration completes, and its effect is the frame; or its append overflows, which
`Appendable` excludes, and then the output has grown and the fault is raised. -/
theorem legalCodesFrame : Obligations.LegalCodesFrame := by
  intro i s t hclass hexec
  obtain ⟨seq, -, hfin⟩ := operand_of_exec hclass hexec
  have hout : s.out <+: t.out := ⟨seq, (finishCode_out hfin).symm⟩
  obtain ⟨-, ⟨-, he⟩ | ⟨hfirst, -, hfull, rfl⟩⟩ := finishCode_cases hfin
  · obtain ⟨hacc, hnbits, hinPos⟩ := he.keepsReader
    obtain ⟨hbytes, hend, hsink, hmoves⟩ := he.keepsOutside
    exact ⟨hacc, hnbits, hinPos, hbytes, hend, hsink, hmoves, hout, fun _ => he.keepsStatus,
      fun hstays => (he.stays hstays).1, fun hgo a ha => effect_keepsEntries he hgo a fun _ => ha,
      fun hgo hfirst a => effect_keepsEntries he hgo a (by simp [hfirst])⟩
  · obtain ⟨n, a, hpush, -⟩ := outPushAll_cases s seq
    have hfull' : ¬ Appendable s := by
      rintro (hfirst' | ⟨-, hroom⟩)
      · simp [hfirst] at hfirst'
      · omega
    refine ⟨?_, ?_, ?_, ?_, ?_, ?_, ?_, hout, fun happend => absurd happend hfull', fun _ => ?_,
      fun _ a _ => ?_, fun _ _ a => ?_⟩ <;> simp [hpush]

/-! ### In a run -/

/-- In a run nothing stops the append (R40 (e), R165). -/
theorem runOk_appendable {s : State} (h : RunOk s) : Appendable s := by
  cases hfirst : s.firstOfEpoch with
  | true => exact .inl hfirst
  | false =>
    obtain ⟨p, -, -, hprev, -⟩ := h.previous hfirst
    have hsize := runOk_dictSize_le h
    exact .inr ⟨by simp [hprev], by omega⟩

/-- What the selector of the state says of the legal classes (R84). -/
theorem selectedBy_codeIsLegal {f : Format} {i : Instr} {s : State}
    (hsel : i.selectedBy (selectorOf f s) = true) (hclass : LegalClass i.codeClass) :
    CodeIsLegal i s := by
  obtain ⟨-, hk⟩ := selectedBy_iff.1 hsel
  rcases hclass with hclass | hclass <;> rw [hclass] at hk
  · exact .inl ⟨hclass, classify_known hk⟩
  · exact .inr ⟨hclass, classify_kwkwk hk⟩

/-- In a run every legal code has its sequence: a live index has a chain that ends, and after the first
iteration of an epoch there is a previous sequence (R40, R138). -/
theorem exists_operandSequence {i : Instr} {s : State} (h : RunOk s) (hlegal : CodeIsLegal i s) :
    ∃ seq, operandSequence i s = .ok seq := by
  rcases hlegal with ⟨hclass, hlive⟩ | ⟨hclass, -, hfirst⟩ <;> simp only [operandSequence, hclass]
  · have hsize := runOk_dictSize_le h
    obtain ⟨w, hw, -⟩ := liveChainsEndAtASingleton s i.code.toNat h.dict (by omega) hlive
    exact ⟨w, hw⟩
  · obtain ⟨p, b, w, hprev, hb, -, hw⟩ := h.previous hfirst
    exact ⟨_, seqKwkwk_ok.2 ⟨p, b, b :: w, hprev, hb, hw, rfl⟩⟩

/-- In a run a legal code completes its iteration (R151, R152). -/
theorem exec_effect_of_legal {i : Instr} {s : State} (h : RunOk s) (hlegal : CodeIsLegal i s) :
    ∃ t seq, operandSequence i s = .ok seq ∧ exec i s = .next t ∧
      IterationEffect i.code seq s t := by
  obtain ⟨seq, hseq⟩ := exists_operandSequence h hlegal
  obtain ⟨t, hexec, he⟩ :=
    exec_effect (hlegal.imp And.left And.left) hseq (runOk_appendable h)
  exact ⟨t, seq, hseq, hexec, he⟩

/-- Settles O37: the selector makes the code legal, and the status registers are part of the frame. -/
theorem legalCodesCompleteInARun : Obligations.LegalCodesCompleteInARun := by
  intro s f i _ hrun hsel hclass
  obtain ⟨t, seq, hseq, hexec, he⟩ :=
    exec_effect_of_legal hrun (selectedBy_codeIsLegal hsel hclass)
  exact ⟨t, seq, hexec, he, operandSequence_ne_nil hseq, he.keepsStatus.1⟩

/-- The size 4095 is the only one at which an iteration of a run ends its epoch (R160). -/
theorem epochGoesOn_of_ne {s : State} (h : RunOk s) (hsize : sizeAfterAppend s ≠ 4095) :
    EpochGoesOn s := by
  intro hthr
  have hup := (runOk_codeSize h).2
  refine lt_of_le_of_ne hup fun htop => hsize ?_
  rw [hthr, htop]
  rfl

/-- Settles O39: the entry that the iteration appends is that of its own code. -/
theorem kwkwkNamesItsOwnEntry : Obligations.KwkwkNamesItsOwnEntry := by
  intro s t f i _ hrun hclass hsel hsize hexec
  have hlegal := selectedBy_codeIsLegal hsel (.inr hclass)
  obtain ⟨t', seq, hseq, hexec', he⟩ := exec_effect_of_legal hrun hlegal
  obtain rfl : t' = t := by simpa [hexec'] using hexec
  refine ⟨seq, he.out, effect_reconstruct hrun hlegal hseq he (epochGoesOn_of_ne hrun hsize), ?_⟩
  simp only [operandSequence, hclass] at hseq
  obtain ⟨p, b, w, -, -, hw, rfl⟩ := seqKwkwk_ok.1 hseq
  have hpos : 0 < w.length := List.length_pos_of_ne_nil (reconstruct_ne_nil hw)
  rw [List.length_append, List.length_singleton]
  omega

end Sys2Proof.Machine
end

section
/-! Growth and the epoch (R158 to R160). -/

namespace Sys2Proof.Machine

/-- In a run `dictSize` is below the threshold of the width (R165, R168). -/
theorem runOk_below_threshold {s : State} (h : RunOk s) :
    s.dictSize.toNat < 2 ^ s.codeSize.toNat - 1 := by
  obtain ⟨f, hf, hlegal⟩ := h.format
  obtain ⟨-, hmax, -⟩ := (legal_iff _).1 hlegal
  have hmax' : s.dictSize.toNat ≤ f.maxDictSize := hmax
  obtain ⟨-, -, -, hpow, -⟩ := format_facts f
  rw [← formatOf_bits hf]
  omega

/-- Settles O43: an iteration that appends nothing leaves `dictSize` below the threshold. -/
theorem growthNeedsAnAppend : Obligations.GrowthNeedsAnAppend := by
  intro s hrun
  have hbelow := runOk_below_threshold hrun
  refine ⟨fun hthr => Bool.eq_false_iff.2 fun hfirst => ?_, hbelow⟩
  rw [reachesThreshold, sizeAfterAppend_first hfirst] at hthr
  omega

/-- The growth test is the equality with the threshold (R158). -/
theorem growthDue_iff {s : State} :
    growthDue s = true ↔ s.dictSize.toNat = 2 ^ s.codeSize.toNat - 1 := decide_eq_true_iff

theorem growthStep_of_ne {s : State} (h : s.dictSize.toNat ≠ 2 ^ s.codeSize.toNat - 1) :
    growthStep s = s := if_neg (mt growthDue_iff.1 h)

theorem growthStep_of_narrow {s : State} (h : s.dictSize.toNat = 2 ^ s.codeSize.toNat - 1)
    (hwidth : s.codeSize.toNat < 12) : growthStep s = grow s :=
  (if_pos (growthDue_iff.2 h)).trans (if_pos hwidth)

theorem growthStep_of_wide {s : State} (h : s.dictSize.toNat = 2 ^ s.codeSize.toNat - 1)
    (hwidth : 12 ≤ s.codeSize.toNat) : growthStep s = epochReset s :=
  (if_pos (growthDue_iff.2 h)).trans (if_neg (not_lt.2 hwidth))

/-- Settles O40: the three cases of step 6, its place after the record step, and the four thresholds. -/
theorem growthTestIsAnEquality : Obligations.GrowthTestIsAnEquality := by
  refine ⟨fun s => growthStep_of_ne,
    fun s hdue => ⟨growthStep_of_narrow hdue, growthStep_of_wide hdue⟩,
    fun s t c first rest happend => by simp only [finishCode, happend], fun s => ?_⟩
  simp only [growthDue_iff]
  refine ⟨?_, ?_, ?_, ?_⟩ <;> intro hwidth <;> rw [hwidth] <;> exact Iff.rfl

/-- Settles O41: step 6 is `GROW`, whose increment does not wrap. -/
theorem growWidensByOneBit : Obligations.GrowWidensByOneBit := by
  intro s hdue hwidth
  exact ⟨grow s, growthStep_of_narrow hdue hwidth, codeSize_succ hwidth, rfl⟩

/-- Settles O42: step 6 is `EPOCH_RESET`, which writes the baseline. -/
theorem epochResetStartsANewEpoch : Obligations.EpochResetStartsANewEpoch := by
  intro s hsize hwidth
  have hdue : s.dictSize.toNat = 2 ^ s.codeSize.toNat - 1 := by rw [hsize, hwidth]; rfl
  exact ⟨epochReset s, growthStep_of_wide hdue (by rw [hwidth]; decide), rfl, rfl, rfl,
    memRead_singletons, rfl⟩

end Sys2Proof.Machine
end

section
/-! What the engine's turn does with each answer of the reader (R150, R161, R201). -/

namespace Sys2Proof.Machine

/-- The engine's turn is the next step and an iteration: nothing is scheduled, no byte waits for the sink
and no fault waits (R150, R190). -/
theorem step_eq_decodeStep {s : State} (hmoves : s.moves = []) (hphase : s.phase = .run)
    (hpend : outPending s = false) (hraised : s.raised = none) : step s = decodeStep s := by
  rw [step_of_moves_nil hmoves, engineTurn_run hphase hpend hraised]

/-- Why a reader answers no code, whatever bits it holds: `InAvail` shows no byte, and they are too few
(R114). -/
def ReadStops : ReadResult → Prop
  | .code _ _ => True
  | .ended t => t.nbits.toNat < t.codeSize.toNat
  | .hold t => inAvail t = .wait ∧ t.nbits.toNat < t.codeSize.toNat

theorem readLoop_readStops (n : Nat) (s : State) : ReadStops (readLoop n s) := by
  induction n generalizing s with
  | zero => trivial
  | succ n ih =>
    simp only [readLoop]
    split_ifs with hlt
    · cases ha : inAvail s with
      | byte b => exact ih (refill b s)
      | ended => exact hlt
      | wait => exact ⟨ha, hlt⟩
    · trivial

/-- Settles O7: the step is the hold of `ReadCode`. -/
theorem sourceStallTouchesTheReaderOnly : Obligations.SourceStallTouchesTheReaderOnly := by
  intro s t f hmoves hphase hpend hraised hf hread
  have hstops : ReadStops (readCode s) := readLoop_readStops 2 s
  rw [hread] at hstops
  exact ⟨(step_eq_decodeStep hmoves hphase hpend hraised).trans (decodeStep_hold hf hread),
    readCode_frame (.inr (.inr hread)), hstops⟩

/-- Settles O15: the step is the end that `ReadCode` answers; the model's end signal falls with it. -/
theorem endOfInputEndsTheRun : Obligations.EndOfInputEndsTheRun := by
  intro s t f hmoves hphase hpend hraised hf hread
  have hstops : ReadStops (readCode s) := readLoop_readStops 2 s
  have hframe := readCode_frame (.inr (.inl hread))
  have hwidth : t.codeSize = s.codeSize := by rw [hframe]
  rw [hread] at hstops
  exact ⟨⟨false, (step_eq_decodeStep hmoves hphase hpend hraised).trans (decodeStep_ended hf hread)⟩,
    hframe, hwidth ▸ hstops⟩

/-- Settles O51: the step is the code that `ReadCode` answers, through the decoder. -/
theorem stepRunsTheDecodedInstruction : Obligations.StepRunsTheDecodedInstruction := by
  intro s t f c i hmoves hphase hpend hraised hf hread hdecode
  exact (step_eq_decodeStep hmoves hphase hpend hraised).trans (decodeStep_code hf hread hdecode)

/-- Where the bits left suffice for a code, `ReadCode` answers the code that they are (R112, R114). -/
theorem exists_readCode_code {s : State} (h : ReaderOk s) (hw : s.codeSize.toNat ≤ 12)
    (hfew : s.nbits.toNat < s.codeSize.toNat)
    (hfits : bitPos s + s.codeSize.toNat ≤ 8 * s.inBytes.length) :
    ∃ t, readCode s = .code (nextCode s) t := by
  cases hread : readCode s with
  | code c t =>
    obtain ⟨rfl, -⟩ := readCode_code h hw hfew hread
    exact ⟨t, rfl⟩
  | ended t | hold t =>
    obtain ⟨-, -, -, -, -, -, hshort⟩ := readCode_stop (t := t) h hw hfew (by simp [hread])
    omega

/-- Settles O52: bits that decode are enough for a code, so `ReadCode` answers the code that the decoder
cuts from them. -/
theorem stepRunsTheCodeInTheStream : Obligations.StepRunsTheCodeInTheStream := by
  intro s f i rest hok hmoves hphase hpend hf hdecode
  have hbits : f.bits = s.codeSize.toNat := formatOf_bits hf
  obtain ⟨hlong, hcode, -⟩ := decode_eq_ok_iff_code.1 hdecode
  have hlong' : s.codeSize.toNat ≤ 8 * s.inBytes.length - bitPos s := by
    rw [← length_unread, ← hbits]
    exact hlong
  obtain ⟨hlow, hup⟩ := runOk_codeSize (hok.run hphase)
  obtain ⟨hreader, hfew⟩ := hok.reader (by simp [hphase])
  obtain ⟨t, hread⟩ := exists_readCode_code hreader hup hfew (by omega)
  obtain ⟨-, hframe, hreader', hpos, -⟩ := readCode_code hreader hup hfew hread
  have hsel : selectorOf f t = selectorOf f s := by rw [hframe]; rfl
  have hcode' : decodeCode (selectorOf f t) (nextCode s) = .ok i := by
    rw [hsel, nextCode, ← hbits]
    exact hcode
  exact ⟨t, stepRunsTheDecodedInstruction s t f _ i hmoves hphase hpend hok.noneRaised hf hread hcode',
    hframe, hreader', hbits ▸ hpos⟩

end Sys2Proof.Machine
end

section
/-! No step of a run stops in a fault of the model or a refusal (R42, R138, R205), and so every run ends
(R162). -/

namespace Sys2Proof.Machine

/-! ### Every turn answers -/

/-- A code of a legal class completes its iteration, any other raises its fault (R150). -/
theorem exists_runCode {f : Format} {s : State} (c : Code) (h : RunOk s) (hc : c.toNat < 2 ^ f.bits) :
    ∃ t, runCode f c s = .next t := by
  unfold runCode
  cases hdecode : decodeCode (selectorOf f s) c with
  | error e => exact ⟨_, rfl⟩
  | ok i =>
    by_cases hclass : LegalClass i.codeClass
    · obtain ⟨t, -, -, hexec, -⟩ :=
        exec_effect_of_legal h (decodeCode_codeIsLegal hc hdecode hclass)
      exact ⟨t, hexec⟩
    · obtain ⟨k, -, hexec⟩ := exec_of_illegal hclass
      exact ⟨_, hexec⟩

theorem exists_decodeStep {s : State} (h : MachineOk s) (hphase : s.phase = .run) :
    ∃ t, decodeStep s = .next t := by
  obtain ⟨f, hf, -⟩ := (h.run hphase).format
  have hkeeps := machineOk_readKeeps h hphase
  cases hread : readCode s with
  | hold t => exact ⟨t, decodeStep_hold hf hread⟩
  | ended t => exact ⟨_, decodeStep_ended hf hread⟩
  | code c u =>
    rw [hread] at hkeeps
    obtain ⟨hcode, -⟩ := hkeeps
    have hu : RunOk u :=
      sameDecoder_runOk (by rw [readCode_frame (.inl ⟨c, hread⟩)]; constructor <;> rfl) (h.run hphase)
    rw [← formatOf_bits hf] at hcode
    obtain ⟨t, hrun⟩ := exists_runCode c hu hcode
    exact ⟨t, by simp [decodeStep, hf, hread, hrun]⟩

/-- In a run with no byte pending the turn is an iteration; every other turn of the engine answers
(R194, R199). -/
theorem exists_engineTurn {s : State} (h : MachineOk s) : ∃ t, engineTurn s = .next t := by
  cases hpend : outPending s with
  | true => exact ⟨_, engineTurn_pending hpend⟩
  | false =>
    by_cases hphase : s.phase = .run
    · rw [engineTurn_run hphase hpend h.noneRaised]
      exact exists_decodeStep h hphase
    · exact ⟨s, engineTurn_rest hphase hpend⟩

/-- Of the other agents' moves only those that R205 excludes are refused. -/
theorem exists_moveTurn {m : Move} {s : State} (h : MachineOk s) (hm : m.allowed s = true) :
    ∃ t, moveTurn m s = .next t := by
  cases m with
  | engine => exact exists_engineTurn h
  | offer b =>
    have hend : s.inEnd = false := by simpa [Move.allowed] using hm
    exact ⟨_, by simp only [moveTurn, sourceOffer, hend]; rfl⟩
  | drain =>
    have hphase : s.phase ≠ .run := by simpa [Move.allowed] using hm
    rcases sourceDrain_cases s with ⟨hrun, -⟩ | ⟨-, bytes, hdrain, -⟩
    · exact absurd hrun hphase
    · exact ⟨_, by simp only [moveTurn, hdrain]; rfl⟩
  | rst | start | endInput | accept | sinkReady level => exact ⟨_, rfl⟩

/-- Settles O55: by the agent whose turn it is; what the engine's turn reads holds a value by the
invariants of the run. -/
theorem noStepStops : Obligations.NoStepStops := by
  intro s hok hallowed
  cases hmoves : s.moves with
  | nil =>
    rw [step_of_moves_nil hmoves]
    exact exists_engineTurn hok
  | cons m ms =>
    have hm : m.allowed { s with moves := ms } = true := by
      have hm : m.allowed s = true := hallowed m (by rw [hmoves]; rfl)
      cases m <;> exact hm
    rw [step_of_moves_cons hmoves]
    exact exists_moveTurn (schedule_machineOk s.sinkReady ms hok) hm

/-! ### Every run ends -/

/-- From any place of an epoch on, a step for every 9 bits left and one more end the run: each iteration
takes at least 9 bits out of the stream. -/
theorem exists_runSteps_ended {n k : Nat} {s : State} (h : AtCode n s)
    (hk : (unread s).length < 9 * k) :
    ∃ t, runSteps k s = .next t ∧ (t.phase = .done ∨ t.phase = .fault) := by
  induction k generalizing n s with
  | zero => omega
  | succ k ih =>
    obtain ⟨u, hstep⟩ := noStepStops s h.ok (by simp [h.moves])
    have hok : MachineOk u := everyStepKeepsInv s u h.ok hstep
    obtain ⟨-, -, -, -, hnine, -⟩ := format_facts (scheduleFormat n)
    simp only [runSteps, hstep]
    rcases step_atCode h hstep with ⟨-, hphase, hmoves⟩ | ⟨-, -, hphase, hmoves⟩ |
      ⟨hlong, -, hnext, hunread⟩
    · exact ⟨u, runSteps_of_ended k hok hmoves (.inl hphase), .inl hphase⟩
    · exact ⟨u, runSteps_of_ended k hok hmoves (.inr hphase), .inr hphase⟩
    · exact ih hnext (by rw [hunread, List.length_drop]; omega)

/-- Settles O57: after `START` all bits of the input are left. -/
theorem everyRunEnds : Obligations.EveryRunEnds := by
  intro input
  refine exists_runSteps_ended (started_atCode input) ?_
  rw [unread_started, length_bitString]
  omega

end Sys2Proof.Machine
end

section
/-! The width schedule and the length of an epoch (R91, R92, R165). -/

namespace Sys2Proof.Machine

/-- The bits that the first `k` codes of an epoch take (R91). -/
def scheduledBits : Nat → Nat
  | 0 => 0
  | k + 1 => scheduledBits k + (scheduleFormat (k + 1)).bits

/-- The segments of the schedule: 256 codes of 9 bits, 512 of 10, 1024 of 11, then codes of 12 bits
(R91). -/
theorem scheduledBits_eq (k : Nat) :
    scheduledBits k =
      if k ≤ 256 then 9 * k
      else if k ≤ 768 then 2304 + 10 * (k - 256)
      else if k ≤ 1792 then 7424 + 11 * (k - 768)
      else 18688 + 12 * (k - 1792) := by
  induction k with
  | zero => rfl
  | succ k ih =>
    rw [scheduledBits, ih, scheduleFormat]
    split_ifs <;> simp only [Format.bits] <;> omega

/-- The turn at code `n`, where the run goes on after it, takes the width of the code out of the stream
and leaves fewer than eight bits in the buffer (R30, R116). -/
theorem step_position {n : Nat} {s t : State} (h : AtCode n s) (hstep : step s = .next t)
    (hphase : t.phase = .run) :
    bitPos t = bitPos s + (scheduleFormat n).bits ∧ t.nbits.toNat ≤ 7 := by
  have hkeeps := machineOk_readKeeps h.ok h.phase
  rw [step_eq_decodeStep h.moves h.phase (by simp [outPending, h.taken]) h.ok.noneRaised] at hstep
  rcases decodeStep_cases hstep with hread | ⟨u, -, rfl⟩ | ⟨f, c, u, -, hread, hrun⟩
  · obtain ⟨hanswer, -⟩ := readCode_ends h.ok h.phase h.width h.ended (.inr hread)
    simp [hread] at hanswer
  · simp at hphase
  · rw [hread] at hkeeps
    obtain ⟨-, -, hfew, hpos, -⟩ := hkeeps
    have hsame := runCode_sameReader hrun
    exact ⟨by rw [sameReader_bitPos hsame, hpos, h.width], by rw [hsame.nbits]; exact hfew⟩

/-- Where a run stands after `k` codes of its first epoch. -/
structure AfterCodes (k : Nat) (s : State) : Prop where
  place : AtCode (nextIndex k) s
  position : bitPos s = scheduledBits k
  few : s.nbits.toNat ≤ 7

theorem started_afterCodes (input : List Byte) : AfterCodes 0 (started input) where
  place := started_atCode input
  position := rfl
  few := Nat.zero_le 7

/-- The step of a run that has ended leaves the state as it is (R194). -/
theorem step_of_ended {s : State} (h : MachineOk s) (hmoves : s.moves = [])
    (hended : s.phase = .done ∨ s.phase = .fault) : step s = .next s := by
  obtain ⟨t, hstep, hrest⟩ := runSteps_succ_cases (runSteps_of_ended 1 h hmoves hended)
  cases hrest
  exact hstep

/-- One step within the epoch: the run goes on by one code, or it is over and rests. -/
theorem step_afterCodes {k : Nat} {s t : State} (h : AfterCodes k s) (hk : k < 3840)
    (hstep : step s = .next t) : AfterCodes (k + 1) t ∨ (t.phase ≠ .run ∧ step t = .next t) := by
  have hindex : nextIndex k = k + 1 := if_neg hk.ne
  have hplace : AtCode (k + 1) s := hindex ▸ h.place
  have hok : MachineOk t := everyStepKeepsInv s t hplace.ok hstep
  rcases step_atCode hplace hstep with ⟨-, hphase, hmoves⟩ | ⟨-, -, hphase, hmoves⟩ |
    ⟨-, -, hnext, -⟩
  · exact .inr ⟨by simp [hphase], step_of_ended hok hmoves (.inl hphase)⟩
  · exact .inr ⟨by simp [hphase], step_of_ended hok hmoves (.inr hphase)⟩
  · obtain ⟨hpos, hfew⟩ := step_position hplace hstep hnext.phase
    exact .inl ⟨hnext, by rw [hpos, h.position, scheduledBits], hfew⟩

/-- The last step of a run. -/
theorem runSteps_last {n : Nat} {s t : State} (h : runSteps (n + 1) s = .next t) :
    ∃ u, runSteps n s = .next u ∧ step u = .next t := by
  induction n generalizing s with
  | zero =>
    obtain ⟨u, hstep, hrest⟩ := runSteps_succ_cases h
    cases hrest
    exact ⟨s, rfl, hstep⟩
  | succ n ih =>
    obtain ⟨v, hstep, hrest⟩ := runSteps_succ_cases h
    obtain ⟨u, hruns, hlast⟩ := ih hrest
    exact ⟨u, by rw [runSteps, hstep]; exact hruns, hlast⟩

/-- A run that still goes on within its first epoch has taken one code with every step. -/
theorem runSteps_afterCodes {k : Nat} {input : List Byte} {t : State} (hk : k ≤ 3840)
    (hrun : runSteps k (started input) = .next t) :
    AfterCodes k t ∨ (t.phase ≠ .run ∧ step t = .next t) := by
  induction k generalizing t with
  | zero =>
    cases hrun
    exact .inl (started_afterCodes input)
  | succ k ih =>
    obtain ⟨u, hruns, hlast⟩ := runSteps_last hrun
    rcases ih (by omega) hruns with hafter | ⟨hphase, hrest⟩
    · exact step_afterCodes hafter hk hlast
    · obtain rfl : u = t := by simpa [hrest] using hlast
      exact .inr ⟨hphase, hrest⟩

/-- A new epoch begins with an empty bit buffer: its first bit is the first of a byte (R92). -/
theorem nbits_of_epoch_end {s : State} (h : AfterCodes 3840 s) : s.nbits.toNat = 0 := by
  have hpos : 8 * s.inPos - s.nbits.toNat = 43264 := h.position.trans (scheduledBits_eq 3840)
  have hfew := h.few
  omega

/-- Settles O44: the place and the position after `n` codes, read off the schedule. -/
theorem widthFollowsTheSchedule : Obligations.WidthFollowsTheSchedule := by
  intro input n t hn hrun hphase
  rcases runSteps_afterCodes hn hrun with hafter | ⟨hover, -⟩
  · have hsize := hafter.place.size
    have hwidth := hafter.place.width
    have hfirst := hafter.place.first
    have hpos := hafter.position.trans (scheduledBits_eq n)
    have hindex : n < 3840 → nextIndex n = n + 1 := fun hlt => if_neg hlt.ne
    refine ⟨?_, ?_, fun hlt => by rw [hwidth, hindex hlt], ?_, ?_, ?_, ?_, ?_⟩
    · rintro rfl
      exact ⟨hsize, hfirst⟩
    · intro hlow hlt
      have hne : n + 1 ≠ 1 := by omega
      rw [hindex hlt, if_neg hne] at hsize
      rw [hindex hlt, decide_eq_false hne] at hfirst
      exact ⟨by omega, hfirst⟩
    · intro hup
      rw [hpos, if_pos hup]
    · intro hlow hup
      split_ifs at hpos <;> omega
    · intro hlow hup
      split_ifs at hpos <;> omega
    · intro hlow
      split_ifs at hpos <;> omega
    · rintro rfl
      exact ⟨hsize, hwidth, hfirst, hpos, nbits_of_epoch_end hafter⟩
  · exact absurd hphase hover

end Sys2Proof.Machine
end

section
/-! The turns of the source and the sink (R190, R195 to R199), and the schedule: what a step leaves of
the moves to come. -/

namespace Sys2Proof.Machine

/-- A step is the engine's turn with nothing scheduled, or that of the soonest move. -/
theorem step_cases {s t : State} (h : step s = .next t) :
    (s.moves = [] ∧ engineTurn s = .next t) ∨
    (∃ m ms, s.moves = m :: ms ∧ moveTurn m { s with moves := ms } = .next t) := by
  cases hmoves : s.moves with
  | nil => exact .inl ⟨rfl, step_of_moves_nil hmoves ▸ h⟩
  | cons m ms => exact .inr ⟨m, ms, rfl, step_of_moves_cons hmoves ▸ h⟩

/-- What source and sink may have written: their own fields, and no byte that the sink has taken is
taken back (R190). -/
def StreamsOnly (s t : State) : Prop :=
  t = { s with
    inBytes := t.inBytes, inEnd := t.inEnd, outTaken := t.outTaken, sinkReady := t.sinkReady,
    accepted := t.accepted } ∧ s.accepted <+: t.accepted

theorem sinkTake_streamsOnly (s : State) : StreamsOnly s (sinkTake s) := by
  obtain ⟨n, a, htake, hprefix⟩ := sinkTake_frame s
  rw [htake]
  exact ⟨rfl, hprefix⟩

/-- A turn of the source or the sink, a drain among them (R190). -/
theorem moveTurn_streamsOnly {m : Move} {s t : State} (hengine : m ≠ .engine) (hrst : m ≠ .rst)
    (hstart : m ≠ .start) (h : moveTurn m s = .next t) : StreamsOnly s t := by
  cases m with
  | engine => exact absurd rfl hengine
  | rst => exact absurd rfl hrst
  | start => exact absurd rfl hstart
  | offer b =>
    simp only [moveTurn, sourceOffer] at h
    split_ifs at h
    cases h
    exact ⟨rfl, List.prefix_refl _⟩
  | drain =>
    rcases sourceDrain_cases s with ⟨-, hdrain⟩ | ⟨-, bytes, hdrain, -⟩ <;>
      simp only [moveTurn, hdrain] at h <;> cases h
    exact ⟨rfl, List.prefix_refl _⟩
  | accept =>
    cases h
    exact sinkTake_streamsOnly s
  | endInput | sinkReady level =>
    cases h
    exact ⟨rfl, List.prefix_refl _⟩

/-- But for a drain, and the commands, no turn takes a byte from the source's stream (R195). -/
theorem moveTurn_inBytes {m : Move} {s t : State} (hengine : m ≠ .engine) (hrst : m ≠ .rst)
    (hstart : m ≠ .start) (hdrain : m ≠ .drain) (h : moveTurn m s = .next t) :
    s.inBytes <+: t.inBytes := by
  cases m with
  | engine => exact absurd rfl hengine
  | rst => exact absurd rfl hrst
  | start => exact absurd rfl hstart
  | drain => exact absurd rfl hdrain
  | offer b =>
    simp only [moveTurn, sourceOffer] at h
    split_ifs at h
    cases h
    exact List.prefix_append _ _
  | accept =>
    cases h
    obtain ⟨n, a, htake, -⟩ := sinkTake_frame s
    rw [htake]
  | endInput | sinkReady level =>
    cases h
    exact List.prefix_refl _

theorem finishCode_moves {c : Code} {seq : List Byte} {s t : State}
    (h : finishCode c seq s = .next t) : t.moves = s.moves := by
  obtain ⟨-, ⟨-, he⟩ | ⟨-, -, -, rfl⟩⟩ := finishCode_cases h
  · obtain ⟨-, -, -, hmoves⟩ := he.keepsOutside
    exact hmoves
  · obtain ⟨n, a, hout, -⟩ := outPushAll_cases s seq
    simp [hout]

theorem decodeStep_moves {s t : State} (h : decodeStep s = .next t) : t.moves = s.moves := by
  rcases decodeStep_cases h with hread | ⟨u, hread, rfl⟩ | ⟨f, c, u, -, hread, hrun⟩
  · rw [readCode_frame (.inr (.inr hread))]
  · rw [endSpent_moves, endOfRun_moves, readCode_frame (.inr (.inl hread))]
  · have hu : u.moves = s.moves := by rw [readCode_frame (.inl ⟨c, hread⟩)]
    rw [← hu]
    rcases runCode_cases hrun with ⟨k, c', -, rfl⟩ | ⟨i, seq, -, -, -, hfin⟩
    · exact raiseFault_moves _ _ _
    · exact finishCode_moves hfin

/-- The engine's turn leaves the schedule alone (R190). -/
theorem engineTurn_moves {s t : State} (h : engineTurn s = .next t) : t.moves = s.moves := by
  rcases engineTurn_cases h with rfl | rfl | ⟨k, c, -, rfl⟩ | ⟨-, -, hdecode⟩
  · rfl
  · obtain ⟨n, a, htake, -⟩ := sinkTake_frame s
    rw [htake]
  · rfl
  · exact decodeStep_moves hdecode

theorem moveTurn_moves {m : Move} {s t : State} (h : moveTurn m s = .next t) :
    t.moves = s.moves := by
  by_cases hengine : m = .engine
  · subst hengine
    exact engineTurn_moves h
  by_cases hrst : m = .rst
  · subst hrst
    cases h
    rfl
  by_cases hstart : m = .start
  · subst hstart
    cases h
    unfold startCommand
    split <;> rfl
  · obtain ⟨hframe, -⟩ := moveTurn_streamsOnly hengine hrst hstart h
    rw [hframe]

/-- A step consumes at most the soonest move (R190). -/
theorem step_moves {s t : State} (h : step s = .next t) : t.moves = s.moves.tail := by
  rcases step_cases h with ⟨hmoves, hturn⟩ | ⟨m, ms, hmoves, hturn⟩
  · rw [engineTurn_moves hturn, hmoves, List.tail_nil]
  · rw [moveTurn_moves hturn, hmoves, List.tail_cons]

theorem runSteps_of_step {n : Nat} {s t : State} (h : step s = .next t) :
    runSteps (n + 1) s = runSteps n t := by
  simp only [runSteps, h]

/-- A run of steps is one part of it and then the other. -/
theorem runSteps_add {n k : Nat} {s t : State} (h : runSteps n s = .next t) :
    runSteps (n + k) s = runSteps k t := by
  induction n generalizing s with
  | zero =>
    cases h
    rw [Nat.zero_add]
  | succ n ih =>
    obtain ⟨u, hstep, hrest⟩ := runSteps_succ_cases h
    rw [Nat.add_right_comm, runSteps_of_step hstep]
    exact ih hrest

end Sys2Proof.Machine
end

section
/-! How a run ends (R161, R200, R226): the phases that a turn can lead to, and what the sink has by then. -/

namespace Sys2Proof.Machine

/-- The meaning of a code keeps the phase or enters a fault (R150). -/
theorem runCode_phase {f : Format} {c : Code} {s t : State} (h : runCode f c s = .next t) :
    t.phase = s.phase ∨ t.phase = .fault := by
  have hraise : ∀ k c' x, (raiseFault k c' x).phase = x.phase ∨ (raiseFault k c' x).phase = .fault := by
    intro k c' x
    rcases raiseFault_cases k c' x with ⟨-, hx⟩ | ⟨-, hx⟩ <;> rw [hx]
    · exact .inr rfl
    · exact .inl rfl
  rcases runCode_cases h with ⟨k, c', -, rfl⟩ | ⟨i, seq, -, -, -, hfin⟩
  · exact hraise k c' s
  · obtain ⟨-, ⟨-, he⟩ | ⟨-, -, -, rfl⟩⟩ := finishCode_cases hfin
    · exact .inl he.keepsStatus.1
    · obtain ⟨n, a, hout, -⟩ := outPushAll_cases s seq
      simpa only [hout] using hraise .dictOverflow i.code (outPushAll s seq)

/-- The phase that an iteration leaves: the run goes on, or it has ended and the sink has taken every
byte. But for `DictOverflow` a faulting iteration pushes nothing (R227). -/
def EndsWithAllTaken (s t : State) : Prop :=
  t.phase = .run ∨ (t.phase = .done ∧ t.outTaken = t.out.length) ∨
    (t.phase = .fault ∧ t.outTaken = t.out.length ∧ (t.cause ≠ .dictOverflow → t.out = s.out))

theorem outTaken_of_pending_false {s : State} (hle : s.outTaken ≤ s.out.length)
    (hpend : outPending s = false) : s.outTaken = s.out.length := by
  simp only [outPending, decide_eq_false_iff_not, not_lt] at hpend
  exact le_antisymm hle hpend

/-- The output step leaves the sink with every byte or with none of the new ones (R155). -/
theorem outPushAll_outTaken_le {s : State} (seq : List Byte) (h : s.outTaken = s.out.length) :
    (outPushAll s seq).outTaken ≤ (outPushAll s seq).out.length := by
  obtain ⟨n, a, hout, hholds, htakes⟩ := outPushAll_cases s seq
  rw [hout]
  cases hready : s.sinkReady with
  | true =>
    obtain ⟨hall, -⟩ := htakes hready h
    exact hall.le
  | false =>
    obtain ⟨hnone, -⟩ := hholds hready
    simp [hnone, h]

/-- Fault entry waits for the sink (R226). -/
theorem raiseFault_endsWithAllTaken {s x : State} {k : Cause} (c : Code) (hphase : x.phase = .run)
    (hle : x.outTaken ≤ x.out.length) (hout : k ≠ .dictOverflow → x.out = s.out) :
    EndsWithAllTaken s (raiseFault k c x) := by
  rcases raiseFault_cases k c x with ⟨hpend, hraise⟩ | ⟨-, hraise⟩ <;> rw [hraise]
  · exact .inr (.inr ⟨rfl, outTaken_of_pending_false hle hpend, hout⟩)
  · exact .inl hphase

theorem runCode_endsWithAllTaken {f : Format} {c : Code} {s t : State} (hphase : s.phase = .run)
    (hall : s.outTaken = s.out.length) (h : runCode f c s = .next t) : EndsWithAllTaken s t := by
  rcases runCode_cases h with ⟨k, c', -, rfl⟩ | ⟨i, seq, -, -, -, hfin⟩
  · exact raiseFault_endsWithAllTaken c' hphase hall.le fun _ => rfl
  · obtain ⟨-, ⟨-, he⟩ | ⟨-, -, -, rfl⟩⟩ := finishCode_cases hfin
    · obtain ⟨hphase', -⟩ := he.keepsStatus
      exact .inl (hphase'.trans hphase)
    · have hphase' : (outPushAll s seq).phase = .run := by
        obtain ⟨n, a, hout, -⟩ := outPushAll_cases s seq
        rw [hout]
        exact hphase
      exact raiseFault_endsWithAllTaken _ hphase' (outPushAll_outTaken_le seq hall)
        fun hk => absurd rfl hk

theorem decodeStep_endsWithAllTaken {s t : State} (hphase : s.phase = .run)
    (hall : s.outTaken = s.out.length) (h : decodeStep s = .next t) : EndsWithAllTaken s t := by
  rcases decodeStep_cases h with hread | ⟨u, hread, rfl⟩ | ⟨f, c, u, -, hread, hrun⟩
  · exact .inl (by rw [readCode_frame (.inr (.inr hread))]; exact hphase)
  · have hframe := readCode_frame (.inr (.inl hread))
    exact .inr (.inl ⟨rfl, by rw [endSpent_outTaken, endOfRun_outTaken, hframe]; exact hall⟩)
  · have hframe := readCode_frame (.inl ⟨c, hread⟩)
    have hout : u.out = s.out := by rw [hframe]
    have hends : EndsWithAllTaken u t :=
      runCode_endsWithAllTaken (by rw [hframe]; exact hphase) (by rw [hframe]; exact hall) hrun
    rwa [EndsWithAllTaken, hout] at hends

/-- A turn that changes the phase of a run has found every byte taken, and leaves every byte taken. -/
def EndsAfterTheSink (s t : State) : Prop :=
  (s.phase ≠ .done → t.phase = .done → t.outTaken = t.out.length) ∧
    (s.phase ≠ .fault → t.phase = .fault → s.outTaken = s.out.length ∧
      t.outTaken = t.out.length ∧ (t.cause ≠ .dictOverflow → t.out = s.out))

theorem endsAfterTheSink_of_phase {s t : State} (h : t.phase = s.phase) : EndsAfterTheSink s t :=
  ⟨fun hs ht => absurd (h.symm.trans ht) hs, fun hs ht => absurd (h.symm.trans ht) hs⟩

theorem engineTurn_endsAfterTheSink {s t : State} (hle : s.outTaken ≤ s.out.length)
    (h : engineTurn s = .next t) : EndsAfterTheSink s t := by
  cases hpend : outPending s with
  | true =>
    rw [engineTurn_pending hpend, Host.Outcome.next.injEq] at h
    obtain ⟨n, a, htake, -⟩ := sinkTake_frame s
    refine endsAfterTheSink_of_phase ?_
    rw [← h]
    split_ifs
    · rw [htake]
    · rfl
  | false =>
    have hall := outTaken_of_pending_false hle hpend
    rcases engineTurn_cases h with rfl | rfl | ⟨k, c, -, rfl⟩ | ⟨hphase, -, hdecode⟩
    · exact endsAfterTheSink_of_phase rfl
    · obtain ⟨n, a, htake, -⟩ := sinkTake_frame s
      exact endsAfterTheSink_of_phase (by rw [htake])
    · exact ⟨fun _ ht => by simp at ht, fun _ _ => ⟨hall, hall, fun _ => rfl⟩⟩
    · rcases decodeStep_endsWithAllTaken hphase hall hdecode with
        hrun | ⟨hdone, htaken⟩ | ⟨hfault, htaken, hout⟩
      · exact endsAfterTheSink_of_phase (hrun.trans hphase.symm)
      · exact ⟨fun _ _ => htaken, fun _ ht => by simp [hdone] at ht⟩
      · exact ⟨fun _ ht => by simp [hfault] at ht, fun _ _ => ⟨hall, htaken, hout⟩⟩

/-- No other agent ends a run: it keeps the phase, or leads to `IDLE` or `RUN` (R192, R250). -/
theorem moveTurn_phase {m : Move} {s t : State} (hengine : m ≠ .engine) (h : moveTurn m s = .next t) :
    t.phase = s.phase ∨ t.phase = .idle ∨ t.phase = .run := by
  by_cases hrst : m = .rst
  · subst hrst
    cases h
    exact .inr (.inl rfl)
  by_cases hstart : m = .start
  · subst hstart
    cases h
    unfold startCommand
    split
    · exact .inl rfl
    all_goals exact .inr (.inr rfl)
  · obtain ⟨hframe, -⟩ := moveTurn_streamsOnly hengine hrst hstart h
    exact .inl (by rw [hframe])

theorem moveTurn_endsAfterTheSink {m : Move} {s t : State} (hle : s.outTaken ≤ s.out.length)
    (h : moveTurn m s = .next t) : EndsAfterTheSink s t := by
  by_cases hengine : m = .engine
  · subst hengine
    exact engineTurn_endsAfterTheSink hle h
  · rcases moveTurn_phase hengine h with hphase | hphase | hphase
    · exact endsAfterTheSink_of_phase hphase
    all_goals exact ⟨fun _ ht => by simp [hphase] at ht, fun _ ht => by simp [hphase] at ht⟩

/-- Settles O48: the engine's turn is the one that ends a run, and only with no byte pending; the fault
of `DictOverflow` is raised behind the bytes of its own iteration, and waits for them. -/
theorem runsEndAfterEveryByteIsTaken : Obligations.RunsEndAfterEveryByteIsTaken := by
  intro s t hle hstep
  rcases step_cases hstep with ⟨-, hturn⟩ | ⟨m, ms, -, hturn⟩
  · exact engineTurn_endsAfterTheSink hle hturn
  · exact moveTurn_endsAfterTheSink (s := { s with moves := ms }) hle hturn

end Sys2Proof.Machine
end

section
/-! The commands of the host, and the moves of source and sink (R190, R192 to R205). -/

namespace Sys2Proof.Machine

/-- Settles O9: by the frame of the turn of the agent whose move it is. -/
theorem sourceAndSinkLeaveTheDecoderAlone : Obligations.SourceAndSinkLeaveTheDecoderAlone := by
  intro s t m ms hmoves hengine hrst hstart hstep
  rw [step_of_moves_cons hmoves] at hstep
  exact moveTurn_streamsOnly hengine hrst hstart hstep

/-- Outside `RUN` the command is accepted (R192). -/
theorem startCommand_of_ne_run {s : State} (h : s.phase ≠ .run) : startCommand s = startRun s := by
  cases hp : s.phase <;> simp_all [startCommand]

theorem startCommand_of_run {s : State} (h : s.phase = .run) : startCommand s = s := by
  simp [startCommand, h]

theorem step_start {s : State} {ms : List Move} (h : s.moves = .start :: ms) :
    step s = .next (startCommand { s with moves := ms }) := step_of_moves_cons h

theorem step_endInput {s : State} {ms : List Move} (h : s.moves = .endInput :: ms) :
    step s = .next { s with moves := ms, inEnd := true } := step_of_moves_cons h

theorem step_offer {s : State} {ms : List Move} {b : Byte} (h : s.moves = .offer b :: ms)
    (hend : s.inEnd = false) :
    step s = .next { s with moves := ms, inBytes := s.inBytes ++ [b] } := by
  rw [step_of_moves_cons h]
  simp [moveTurn, sourceOffer, hend]

/-- Settles O3: `startRun` writes each register, and in `RUN` the command does nothing. -/
theorem startWritesEveryRegister : Obligations.StartWritesEveryRegister := by
  intro s ms hmoves
  rw [step_start hmoves]
  constructor
  · intro hphase
    rw [startCommand_of_ne_run (s := { s with moves := ms }) hphase]
    exact ⟨_, rfl, memRead_singletons, rfl, rfl, rfl, rfl, rfl, rfl, rfl, rfl, rfl, rfl, rfl, rfl, rfl⟩
  · intro hphase
    rw [startCommand_of_run (s := { s with moves := ms }) hphase]

/-- Settles O5: the step is a turn of the engine with nothing to wait for and no run to go on with. -/
theorem engineRestsOutsideRun : Obligations.EngineRestsOutsideRun := by
  intro s hmoves hphase hpend
  rw [step_of_moves_nil hmoves, engineTurn_rest hphase hpend]

/-- Settles O6: the engine's turn waits with the byte, and `accept` takes the oldest one offered. -/
theorem sinkStallHoldsTheEngine : Obligations.SinkStallHoldsTheEngine := by
  constructor
  · intro s hmoves hpend hready
    rw [step_of_moves_nil hmoves, engineTurn_pending hpend]
    simp [hready]
  · intro s ms b hmoves hb
    rw [step_of_moves_cons hmoves]
    simp [moveTurn, sinkTake, hb]

/-- Settles O8: each move of the source, by the end signal or the phase that decides on it. -/
theorem sourceKeepsToItsProtocol : Obligations.SourceKeepsToItsProtocol := by
  refine ⟨fun s ms b hmoves hend => step_offer hmoves hend, ?_,
    fun s ms hmoves => step_endInput hmoves, ?_⟩
  · intro s ms b hmoves hend
    rw [step_of_moves_cons hmoves]
    simp [moveTurn, sourceOffer, hend]
  · intro s ms hmoves hphase
    rw [step_of_moves_cons hmoves]
    simp [moveTurn, sourceDrain, hphase]

end Sys2Proof.Machine
end

section
/-! The stream lines (R191, R195, R255). -/

namespace Sys2Proof.Machine

theorem inAvailLine_iff {s : State} : inAvailLine s = true ↔ untaken s ≠ [] := by
  simp [inAvailLine]

theorem inEndLine_iff {s : State} : inEndLine s = true ↔ s.inEnd = true ∧ untaken s = [] := by
  simp [inEndLine, inAvailLine]

/-- Where the cursor holds a value, `in_avail` tells of a byte behind it (R29, R191). -/
theorem inAvailLine_iff_lt {s : State} (h : s.phase ≠ .idle) :
    inAvailLine s = true ↔ s.inPos < s.inBytes.length := by
  rw [inAvailLine_iff, untaken_of_ne_idle h, ne_eq, List.drop_eq_nil_iff, not_le]

theorem inTake_iff {s : State} :
    inTake s = true ↔ s.phase = .run ∧ outPending s = false ∧ s.raised = none ∧
      inAvailLine s = true ∧ s.nbits.toNat < s.codeSize.toNat := by
  simp [inTake, and_assoc]

/-- An iteration consumes a byte exactly when one is to be had: between two iterations fewer bits are
held than a code has (R28, R114). -/
theorem decodeStep_takes_iff {s t : State} (hok : MachineOk s) (hphase : s.phase = .run)
    (h : decodeStep s = .next t) : s.inPos < t.inPos ↔ s.inPos < s.inBytes.length := by
  obtain ⟨hreader, hfew⟩ := hok.reader (by simp [hphase])
  obtain ⟨-, hup⟩ := runOk_codeSize (hok.run hphase)
  have hcursor := hreader.cursor
  have hstop : ∀ u, readCode s = .ended u ∨ readCode s = .hold u →
      (s.inPos < u.inPos ↔ s.inPos < s.inBytes.length) := by
    intro u hread
    obtain ⟨-, hframe, -, -, hall, -⟩ := readCode_stop hreader hup hfew hread
    have hbytes : u.inBytes = s.inBytes := by rw [hframe]
    rw [hall, hbytes]
  rcases decodeStep_cases h with hread | ⟨u, hread, rfl⟩ | ⟨f, c, u, -, hread, hrun⟩
  · exact hstop t (.inr hread)
  · exact hstop u (.inl hread)
  · obtain ⟨-, hframe, hreader', hpos, -⟩ := readCode_code hreader hup hfew hread
    have hbytes : u.inBytes = s.inBytes := by rw [hframe]
    have hcursor' := hreader'.cursor
    have hheld := hreader.held
    have htaken : s.inPos < u.inPos := by
      simp only [bitPos] at hpos
      omega
    rw [(runCode_sameReader hrun).inPos]
    rw [hbytes] at hcursor'
    exact iff_of_true htaken (htaken.trans_le hcursor')

/-- Where the engine's turn is no iteration, it takes no byte (R199, R255). -/
theorem engineTurn_inPos {s t : State} (h : engineTurn s = .next t)
    (hrest : ¬ (s.phase = .run ∧ outPending s = false)) : t.inPos = s.inPos := by
  rcases engineTurn_cases h with rfl | rfl | ⟨k, c, -, rfl⟩ | ⟨hphase, hpend, -⟩
  · rfl
  · exact (sinkTake_sameReader s).inPos
  · rfl
  · exact absurd ⟨hphase, hpend⟩ hrest

/-- `in_take` tells what the engine's turn does (R191). -/
theorem inTake_iff_takes {s t : State} (hok : MachineOk s) (h : engineTurn s = .next t) :
    inTake s = true ↔ s.inPos < t.inPos := by
  rw [inTake_iff]
  by_cases hrun : s.phase = .run ∧ outPending s = false
  · obtain ⟨hphase, hpend⟩ := hrun
    have hbegun : s.phase ≠ .idle := by simp [hphase]
    obtain ⟨-, hfew⟩ := hok.reader hbegun
    rw [engineTurn_run hphase hpend hok.noneRaised] at h
    rw [decodeStep_takes_iff hok hphase h, inAvailLine_iff_lt hbegun]
    simp [hphase, hpend, hok.noneRaised, hfew]
  · rw [engineTurn_inPos h hrun]
    exact iff_of_false (fun ⟨hphase, hpend, _⟩ => hrun ⟨hphase, hpend⟩) (lt_irrefl _)

/-- The two lines of the source, where the cursor holds a value (R191, R195). -/
theorem sourceLines_iff_inAvail {s : State} (h : s.phase ≠ .idle) :
    (inAvailLine s = true ↔ ∃ b, inAvail s = .byte b) ∧
      (inEndLine s = true ↔ inAvail s = .ended) := by
  rw [inAvailLine_iff, inEndLine_iff, inAvail_untaken h]
  cases untaken s with
  | nil => cases s.inEnd <;> simp
  | cons b rest => simp

theorem outValid_iff {s : State} : outValid s = true ↔ (outByte s).isSome = true := by
  simp [outValid, outPending, outByte]

/-- Settles O10: the lines of the source by the untaken bytes, and `in_take` by what an iteration
consumes. -/
theorem linesTellTheStreams : Obligations.LinesTellTheStreams := by
  constructor
  · intro s
    refine ⟨sourceLines_iff_inAvail, fun hidle => ?_, outValid_iff, fun hphase => ?_⟩
    · rw [inAvailLine_iff, inEndLine_iff, untaken_idle hidle]
      exact ⟨Iff.rfl, Iff.rfl⟩
    · rw [← Bool.not_eq_true, inTake_iff]
      exact fun ⟨hrun, _⟩ => hphase hrun
  · intro s t hok hmoves hstep
    rw [step_of_moves_nil hmoves] at hstep
    exact inTake_iff_takes hok hstep

end Sys2Proof.Machine
end

section
/-! One run after another (R204 to R206): what the host's procedure loads, and what a run leaves at the
source. -/

namespace Sys2Proof.Machine

/-- The bytes of an input, offered one after the other, come behind those at the source (R195). -/
theorem runSteps_offers {input : List Byte} {s : State} {ms : List Move} (hend : s.inEnd = false)
    (hmoves : s.moves = input.map Move.offer ++ ms) :
    runSteps input.length s = .next { s with moves := ms, inBytes := s.inBytes ++ input } := by
  induction input generalizing s with
  | nil => simp [runSteps, ← show s.moves = ms from hmoves]
  | cons b input ih =>
    rw [List.length_cons, runSteps_of_step (step_offer hmoves hend)]
    refine (ih ?_ ?_).trans ?_
    · exact hend
    · rfl
    · simp

/-- Bytes behind those at the source are untaken (R195); the cursor is within the input where it holds a
value. -/
theorem untaken_append {s t : State} {more : List Byte} (hphase : t.phase = s.phase)
    (hin : t.inPos = s.inPos) (hbytes : t.inBytes = s.inBytes ++ more)
    (hcursor : s.phase ≠ .idle → s.inPos ≤ s.inBytes.length) : untaken t = untaken s ++ more := by
  by_cases hidle : s.phase = .idle
  · rw [untaken_idle (hphase.trans hidle), untaken_idle hidle, hbytes]
  · rw [untaken_of_ne_idle (hphase ▸ hidle), untaken_of_ne_idle hidle, hin, hbytes,
      List.drop_append_of_le_length (hcursor hidle)]

/-- With the end signalled `START` loads the untaken bytes; of the state before it only the sink and the
moves to come are left (R192, R206). -/
theorem startRun_eq_started {s : State} (hend : s.inEnd = true) :
    startRun s = { started (untaken s) with
      sinkReady := s.sinkReady, accepted := s.accepted, moves := s.moves } := by
  have hs : s = { s with inEnd := true } := by rw [← hend]
  rw [hs]
  rfl

/-- Delivering an input, ending it and `START` load the untaken bytes and then that input (R204). -/
theorem runSteps_deliver {s : State} {input : List Byte} {ms : List Move} (hphase : s.phase ≠ .run)
    (hend : s.inEnd = false) (hcursor : s.phase ≠ .idle → s.inPos ≤ s.inBytes.length)
    (hmoves : s.moves = input.map Move.offer ++ [.endInput, .start] ++ ms) :
    runSteps (input.length + 2) s = .next { started (untaken s ++ input) with
      sinkReady := s.sinkReady, accepted := s.accepted, moves := ms } := by
  have hstart : startRun { s with moves := ms, inBytes := s.inBytes ++ input, inEnd := true } =
      { started (untaken s ++ input) with
        sinkReady := s.sinkReady, accepted := s.accepted, moves := ms } := by
    have hloaded :
        untaken { s with moves := ms, inBytes := s.inBytes ++ input, inEnd := true } =
          untaken s ++ input := untaken_append rfl rfl rfl hcursor
    rw [startRun_eq_started rfl, hloaded]
  rw [List.append_assoc] at hmoves
  rw [runSteps_add (runSteps_offers hend hmoves), runSteps_of_step (step_endInput rfl),
    runSteps_of_step (step_start rfl), ← hstart]
  exact congrArg Host.Outcome.next (startCommand_of_ne_run hphase)

/-- What the host finds after a drain: no byte untaken, the end not signalled and the cursor within the
input; the phase and the sink are as they were (R205). -/
structure Drained (s t : State) : Prop where
  phase : t.phase = s.phase
  ended : t.inEnd = false
  emptied : untaken t = []
  cursor : t.phase ≠ .idle → t.inPos ≤ t.inBytes.length
  sink : t.sinkReady = s.sinkReady ∧ t.accepted = s.accepted

theorem step_drain {s : State} {ms : List Move} (hmoves : s.moves = .drain :: ms)
    (hphase : s.phase ≠ .run) (hcursor : s.phase ≠ .idle → s.inPos ≤ s.inBytes.length) :
    ∃ t, step s = .next t ∧ Drained s t ∧ t.moves = ms := by
  rw [step_of_moves_cons hmoves]
  simp only [moveTurn, sourceDrain]
  cases hp : s.phase with
  | run => exact absurd hp hphase
  | idle =>
    exact ⟨_, rfl, ⟨hp.symm, rfl, untaken_idle rfl, fun h => absurd rfl h, rfl, rfl⟩, rfl⟩
  | done | fault =>
    have hle := hcursor (by simp [hp])
    exact ⟨_, rfl, ⟨hp.symm, rfl, by simp [untaken], fun _ => by simp [hle], rfl, rfl⟩, rfl⟩

/-- Where the reader answers the end, no byte is left (R195, R197). -/
theorem readLoop_ended {n : Nat} {s t : State} (h : readLoop n s = .ended t) :
    inAvail t = .ended := by
  induction n generalizing s with
  | zero => simp [readLoop] at h
  | succ n ih =>
    simp only [readLoop] at h
    split_ifs at h
    cases ha : inAvail s with
    | byte b => exact ih (by simpa [ha] using h)
    | ended =>
      simp only [ha, ReadResult.ended.injEq] at h
      exact h ▸ ha
    | wait => simp [ha] at h

/-- Only the end of the input leads from `RUN` to `DONE` (R161). -/
theorem engineTurn_done {s t : State} (hphase : s.phase = .run) (h : engineTurn s = .next t)
    (hdone : t.phase = .done) : ∃ u, readCode s = .ended u ∧ t = endSpent (endOfRun u) := by
  rcases engineTurn_cases h with rfl | rfl | ⟨k, c, -, rfl⟩ | ⟨-, -, hdecode⟩
  · simp [hphase] at hdone
  · obtain ⟨n, a, htake, -⟩ := sinkTake_frame s
    simp [htake, hphase] at hdone
  · simp at hdone
  · rcases decodeStep_cases hdecode with hread | hended | ⟨f, c, u, -, hread, hrun⟩
    · rw [readCode_frame (.inr (.inr hread))] at hdone
      simp [hphase] at hdone
    · exact hended
    · have hu : u.phase = .run := by rw [readCode_frame (.inl ⟨c, hread⟩)]; exact hphase
      rcases runCode_phase hrun with hp | hp <;> simp [hp, hu] at hdone

/-- A turn into `DONE` leaves no byte untaken, and its end signal is over (R161, log entry 18). -/
theorem engineTurn_done_source {s t : State} (hphase : s.phase = .run) (h : engineTurn s = .next t)
    (hdone : t.phase = .done) : t.inEnd = false ∧ untaken t = [] := by
  obtain ⟨u, hread, rfl⟩ := engineTurn_done hphase h hdone
  obtain ⟨hall, -⟩ := inAvail_ended.1 (readLoop_ended hread)
  refine ⟨rfl, ?_⟩
  rw [untaken_of_ne_idle (by simp), endSpent_inPos, endOfRun_inPos]
  exact List.drop_eq_nil_of_le hall

/-- Settles O4: the moves one after the other, a drain before them where there is one; and what the turn
that ends a run leaves at the source. -/
theorem hostProcedureLoadsAFreshRun : Obligations.HostProcedureLoadsAFreshRun := by
  refine ⟨?_, fun s input ms hphase hend hcursor hmoves => runSteps_deliver hphase hend hcursor hmoves,
    ?_⟩
  · intro s input ms hphase hcursor hmoves
    obtain ⟨u, hstep, hu, hrest⟩ := step_drain hmoves hphase hcursor
    obtain ⟨hready, haccepted⟩ := hu.sink
    rw [runSteps_of_step hstep, runSteps_deliver (by rwa [hu.phase]) hu.ended hu.cursor hrest, hu.emptied,
      List.nil_append, hready, haccepted]
  · intro s t hphase hstep hdone
    rcases step_cases hstep with ⟨-, hturn⟩ | ⟨m, ms, -, hturn⟩
    · exact engineTurn_done_source hphase hturn hdone
    · by_cases hengine : m = .engine
      · subst hengine
        exact engineTurn_done_source (s := { s with moves := ms }) hphase hturn hdone
      · rcases moveTurn_phase hengine hturn with hp | hp | hp <;> simp [hp, hphase] at hdone

end Sys2Proof.Machine
end

section
/-! The effect of an iteration determines every register (R155 to R160): two states with the same
registers have the same registers after the same code, whatever their streams and schedules are. -/

namespace Sys2Proof.Machine

/-! ### Memories with the same reads -/

theorem memRead_eq_none_of_lt {m : Memory} {i : Nat} (h : ∀ c ∈ m, i < c.1) : memRead m i = none := by
  induction m with
  | nil => rfl
  | cons c m ih =>
    rw [memRead_cons, if_neg (h c List.mem_cons_self).ne]
    exact ih fun d hd => h d (List.mem_cons_of_mem c hd)

/-- In the canonical form the entries listed are those that are read. -/
theorem mem_iff_memRead {m : Memory} (h : m.Pairwise fun a b => a.1 < b.1) (c : Nat × Entry) :
    c ∈ m ↔ memRead m c.1 = some c.2 := by
  induction m with
  | nil => simp
  | cons d m ih =>
    obtain ⟨hlow, hrest⟩ := List.pairwise_cons.1 h
    rw [List.mem_cons, memRead_cons, ih hrest]
    split_ifs with heq
    · rw [memRead_eq_none_of_lt (heq ▸ hlow)]
      simp [Prod.ext_iff, heq, eq_comm]
    · simp [Prod.ext_iff, heq]

/-- The canonical form is one for each content. -/
theorem memory_ext {m m' : Memory} (h : m.wf = true) (h' : m'.wf = true)
    (hread : ∀ i, memRead m i = memRead m' i) : m = m' := by
  obtain ⟨hsorted, -⟩ := (memory_wf_iff m).1 h
  obtain ⟨hsorted', -⟩ := (memory_wf_iff m').1 h'
  have : Std.Irrefl fun a b : Nat × Entry => a.1 < b.1 := ⟨fun a => lt_irrefl a.1⟩
  have : Std.Asymm fun a b : Nat × Entry => a.1 < b.1 := ⟨fun a b => lt_asymm⟩
  refine List.Pairwise.eq_of_mem_iff hsorted hsorted' fun c => ?_
  rw [mem_iff_memRead hsorted, mem_iff_memRead hsorted', hread]

/-! ### States with the same registers -/

/-- The decoder, the status registers and the output are the same in both states: all that R202 says
the schedule does not change. -/
structure SameResult (s t : State) : Prop where
  decoder : SameDecoder s t
  status : SameStatus s t
  out : t.out = s.out

theorem sameResult_symm {s t : State} (h : SameResult s t) : SameResult t s where
  decoder :=
    ⟨h.decoder.codeSize.symm, h.decoder.dictSize.symm, h.decoder.prevCode.symm,
      h.decoder.prevFirst.symm, h.decoder.firstOfEpoch.symm, h.decoder.dict.symm⟩
  status := ⟨h.status.phase.symm, h.status.cause.symm, h.status.faultCode.symm, h.status.raised.symm⟩
  out := h.out.symm

theorem sameResult_trans {s t u : State} (h : SameResult s t) (h' : SameResult t u) :
    SameResult s u where
  decoder :=
    ⟨h'.decoder.codeSize.trans h.decoder.codeSize, h'.decoder.dictSize.trans h.decoder.dictSize,
      h'.decoder.prevCode.trans h.decoder.prevCode, h'.decoder.prevFirst.trans h.decoder.prevFirst,
      h'.decoder.firstOfEpoch.trans h.decoder.firstOfEpoch, h'.decoder.dict.trans h.decoder.dict⟩
  status :=
    ⟨h'.status.phase.trans h.status.phase, h'.status.cause.trans h.status.cause,
      h'.status.faultCode.trans h.status.faultCode, h'.status.raised.trans h.status.raised⟩
  out := h'.out.trans h.out

theorem operandSequence_congr {s u : State} (h : SameDecoder s u) (i : Instr) :
    operandSequence i u = operandSequence i s := by
  simp only [operandSequence, seqKnown, seqKwkwk, h.prevCode, h.prevFirst,
    reconstruct_congr h.dict h.dictSize]

theorem sizeAfterAppend_congr {s u : State} (h : SameDecoder s u) :
    sizeAfterAppend u = sizeAfterAppend s := by
  simp only [sizeAfterAppend, h.firstOfEpoch, h.dictSize]

theorem reachesThreshold_congr {s u : State} (h : SameDecoder s u) :
    reachesThreshold u ↔ reachesThreshold s := by
  simp only [reachesThreshold, sizeAfterAppend_congr h, h.codeSize]

theorem epochGoesOn_congr {s u : State} (h : SameDecoder s u) : EpochGoesOn u ↔ EpochGoesOn s := by
  simp only [EpochGoesOn, reachesThreshold_congr h, h.codeSize]

/-- The growth test leaves the same width, size and flag (R158 to R160). -/
theorem effect_sizes_unique {c : Code} {seq : List Byte} {s t u v : State} (h : SameDecoder s u)
    (ht : IterationEffect c seq s t) (hv : IterationEffect c seq u v) :
    v.codeSize = t.codeSize ∧ v.dictSize = t.dictSize ∧ v.firstOfEpoch = t.firstOfEpoch := by
  have hwidth := h.codeSize
  have hsize := sizeAfterAppend_congr h
  have hthr := reachesThreshold_congr h
  suffices hnat : v.codeSize.toNat = t.codeSize.toNat ∧ v.dictSize.toNat = t.dictSize.toNat ∧
      v.firstOfEpoch = t.firstOfEpoch from
    ⟨BitVec.eq_of_toNat_eq hnat.1, BitVec.eq_of_toNat_eq hnat.2.1, hnat.2.2⟩
  by_cases hreach : reachesThreshold s
  · by_cases hnarrow : s.codeSize.toNat < 12
    · obtain ⟨hcode, hdict, hfirst⟩ := ht.widens hreach hnarrow
      obtain ⟨hcode', hdict', hfirst'⟩ := hv.widens (hthr.2 hreach) (hwidth ▸ hnarrow)
      simp [hcode, hdict, hfirst, hcode', hdict', hfirst', hwidth, hsize]
    · obtain ⟨hcode, hdict, hfirst, -⟩ := ht.resets hreach (not_lt.1 hnarrow)
      obtain ⟨hcode', hdict', hfirst', -⟩ := hv.resets (hthr.2 hreach) (hwidth ▸ not_lt.1 hnarrow)
      simp [hcode, hdict, hfirst, hcode', hdict', hfirst']
  · obtain ⟨hcode, hdict, hfirst⟩ := ht.stays hreach
    obtain ⟨hcode', hdict', hfirst'⟩ := hv.stays (mt hthr.1 hreach)
    simp [hcode, hdict, hfirst, hcode', hdict', hfirst', hwidth, hsize]

/-- The append and the epoch reset leave the same entries (R132, R160). -/
theorem effect_reads_unique {c : Code} {seq : List Byte} {s t u v : State} (h : SameDecoder s u)
    (ht : IterationEffect c seq s t) (hv : IterationEffect c seq u v) (i : Nat) :
    memRead v.dict i = memRead t.dict i := by
  have hgoes := epochGoesOn_congr h
  by_cases hgo : EpochGoesOn s
  · by_cases hnew : s.firstOfEpoch = false ∧ i = s.dictSize.toNat
    · obtain ⟨hfirst, rfl⟩ := hnew
      obtain ⟨b, p, hb, hp, hread⟩ := ht.appends hfirst hgo
      obtain ⟨b', p', hb', hp', hread'⟩ := hv.appends (h.firstOfEpoch ▸ hfirst) (hgoes.2 hgo)
      obtain rfl : b = b' := Option.some.inj (hb.symm.trans hb')
      obtain rfl : p = p' := Option.some.inj (hp.symm.trans (h.prevCode ▸ hp'))
      rw [hread, ← h.dictSize, hread']
    · rw [not_and] at hnew
      rw [ht.keepsEntries hgo i hnew,
        hv.keepsEntries (hgoes.2 hgo) i (by rwa [h.firstOfEpoch, h.dictSize]), h.dict]
  · have hgo' := mt hgoes.1 hgo
    simp only [EpochGoesOn, Classical.not_imp, not_lt] at hgo hgo'
    obtain ⟨-, -, -, hread⟩ := ht.resets hgo.1 hgo.2
    obtain ⟨-, -, -, hread'⟩ := hv.resets hgo'.1 hgo'.2
    rw [hread, hread']

/-- The effect of an iteration is one for each code, sequence and state of the registers. -/
theorem effect_unique {c : Code} {seq : List Byte} {s t u v : State} (h : SameResult s u)
    (ht : IterationEffect c seq s t) (hv : IterationEffect c seq u v) (hwf : t.dict.wf = true)
    (hwf' : v.dict.wf = true) : SameResult t v where
  decoder := by
    obtain ⟨hcode, hdict, hfirst⟩ := effect_sizes_unique h.decoder ht hv
    exact ⟨hcode, hdict, hv.prevCode.trans ht.prevCode.symm, hv.prevFirst.trans ht.prevFirst.symm,
      hfirst, memory_ext hwf' hwf (effect_reads_unique h.decoder ht hv)⟩
  status := by
    obtain ⟨hphase, hcause, hfault, hraised⟩ := ht.keepsStatus
    obtain ⟨hphase', hcause', hfault', hraised'⟩ := hv.keepsStatus
    constructor
    · rw [hphase', hphase, h.status.phase]
    · rw [hcause', hcause, h.status.cause]
    · rw [hfault', hfault, h.status.faultCode]
    · rw [hraised', hraised, h.status.raised]
  out := by rw [hv.out, ht.out, h.out]

theorem raiseFault_sameResult (k : Cause) (c : Code) {s u : State} (h : SameResult s u)
    (hs : outPending s = false) (hu : outPending u = false) :
    SameResult (raiseFault k c s) (raiseFault k c u) := by
  have hentry : ∀ x : State, outPending x = false → raiseFault k c x = takeFault k c x := by
    intro x hx
    simp [raiseFault, hx]
  rw [hentry s hs, hentry u hu]
  obtain ⟨hd, -, hout⟩ := h
  exact ⟨⟨hd.codeSize, hd.dictSize, hd.prevCode, hd.prevFirst, hd.firstOfEpoch, hd.dict⟩,
    ⟨rfl, rfl, rfl, rfl⟩, hout⟩

/-- The same code in two runs with the same registers (R150). -/
theorem runCode_sameResult {f : Format} {c : Code} {s t u v : State} (h : SameResult s u)
    (hs : MachineOk s) (hu : MachineOk u) (hphase : s.phase = .run) (hpend : outPending s = false)
    (hpend' : outPending u = false) (ht : runCode f c s = .next t) (hv : runCode f c u = .next v) :
    SameResult t v := by
  have hsel : selectorOf f u = selectorOf f s := by
    simp only [selectorOf, h.decoder.dictSize, h.decoder.firstOfEpoch]
  unfold runCode at ht hv
  rw [hsel] at hv
  cases hdecode : decodeCode (selectorOf f s) c with
  | error e =>
    simp only [hdecode, Host.Outcome.next.injEq] at ht hv
    exact ht ▸ hv ▸ raiseFault_sameResult _ _ h hpend hpend'
  | ok i =>
    simp only [hdecode] at ht hv
    by_cases hclass : LegalClass i.codeClass
    · obtain ⟨seq, hseq, hfin⟩ := operand_of_exec hclass ht
      obtain ⟨seq', hseq', hfin'⟩ := operand_of_exec hclass hv
      rw [operandSequence_congr h.decoder] at hseq'
      obtain rfl : seq = seq' := Except.ok.inj (hseq.symm.trans hseq')
      obtain ⟨-, he⟩ := runOk_finishCode (hs.run hphase) hfin
      obtain ⟨-, he'⟩ := runOk_finishCode (hu.run (h.status.phase.trans hphase)) hfin'
      exact effect_unique h he he' (finishCode_wf hfin hs.memory) (finishCode_wf hfin' hu.memory)
    · rw [exec_eq] at ht hv
      cases hc : i.codeClass with
      | known => exact absurd (.inl hc) hclass
      | kwkwk => exact absurd (.inr hc) hclass
      | noprev | invalid =>
        simp only [hc, Host.Outcome.next.injEq] at ht hv
        exact ht ▸ hv ▸ raiseFault_sameResult _ _ h hpend hpend'

end Sys2Proof.Machine
end

section
/-! The schedule does not change the result (R202). `Follows` relates a state of a run under any schedule
to one of the run over the same bytes with everything at hand; every turn of the scheduled run is
followed by one step of that run or by none. -/

namespace Sys2Proof.Machine

/-! ### The bit buffer -/

/-- The reader's registers are the same in both states, whatever bytes are still to come. -/
structure SameBuffer (s t : State) : Prop where
  acc : t.acc = s.acc
  nbits : t.nbits = s.nbits
  inPos : t.inPos = s.inPos

theorem sameBuffer_symm {s t : State} (h : SameBuffer s t) : SameBuffer t s :=
  ⟨h.acc.symm, h.nbits.symm, h.inPos.symm⟩

theorem sameBuffer_trans {s t u : State} (h : SameBuffer s t) (h' : SameBuffer t u) :
    SameBuffer s u :=
  ⟨h'.acc.trans h.acc, h'.nbits.trans h.nbits, h'.inPos.trans h.inPos⟩

theorem sameBuffer_of_reader {s t : State} (h : SameReader s t) : SameBuffer s t :=
  ⟨h.acc, h.nbits, h.inPos⟩

theorem sameBuffer_bitPos {s t : State} (h : SameBuffer s t) : bitPos t = bitPos s := by
  simp only [bitPos, h.nbits, h.inPos]

/-- The bytes of the input that the engine has consumed (R29). -/
def takenBytes (s : State) : List Byte := s.inBytes.take s.inPos

/-- The consumed bytes and the position determine what the reader holds (R28, R115). -/
theorem reader_unique {s u : State} (hs : ReaderOk s) (hu : ReaderOk u) (hpos : bitPos u = bitPos s)
    (hin : u.inPos = s.inPos) (htaken : u.inBytes.take s.inPos = takenBytes s) : SameBuffer s u where
  acc := by
    apply BitVec.eq_of_toNat_eq
    rw [hu.bits, hs.bits, hpos, hin, ← bitString_take, htaken, takenBytes, bitString_take]
  nbits := by
    have hheld := hs.held
    have hheld' := hu.held
    simp only [bitPos, hin] at hpos
    rw [hin] at hheld'
    apply BitVec.eq_of_toNat_eq
    omega
  inPos := hin

/-- After a code fewer than eight bits are held, so the position determines also the bytes consumed
(R116). -/
theorem reader_unique_after_code {s u : State} (hs : ReaderOk s) (hu : ReaderOk u)
    (hpos : bitPos u = bitPos s) (hfew : s.nbits.toNat ≤ 7) (hfew' : u.nbits.toNat ≤ 7)
    (htaken : u.inBytes.take s.inPos = takenBytes s) : SameBuffer s u := by
  have hheld := hs.held
  have hheld' := hu.held
  have hin : u.inPos = s.inPos := by
    simp only [bitPos] at hpos
    omega
  exact reader_unique hs hu hpos hin htaken

/-- Bits that lie within common bytes are the same bits. -/
theorem bits_eq_of_take_eq {xs ys : List Byte} {n p w : Nat} (h : xs.take n = ys.take n)
    (hw : p + w ≤ 8 * n) :
    ((bitString xs).drop p).take w = ((bitString ys).drop p).take w := by
  have hbits : (bitString xs).take (p + w) = (bitString ys).take (p + w) := by
    rw [← min_eq_left hw, ← List.take_take, ← List.take_take, ← bitString_take, h, bitString_take]
  have hcut : ∀ l : List Bool, (l.drop p).take w = (l.take (p + w)).drop p := by
    intro l
    rw [List.drop_take, Nat.add_sub_cancel_left]
  rw [hcut, hcut, hbits]

/-- A code that lies within common bytes is the same code. -/
theorem nextCode_of_take_eq {s u : State} {n : Nat} (hpos : bitPos u = bitPos s)
    (hwidth : u.codeSize = s.codeSize) (htake : u.inBytes.take n = s.inBytes.take n)
    (hend : bitPos s + s.codeSize.toNat ≤ 8 * n) : nextCode u = nextCode s := by
  rw [nextCode, nextCode, hpos, hwidth, bits_eq_of_take_eq htake hend]

/-! ### The run with everything at hand -/

/-- The inputs that a state stands for: they begin with the bytes it has taken, and a run in `DONE` has
taken all of its input. -/
structure InputFor (input : List Byte) (s : State) : Prop where
  begins : takenBytes s <+: input
  whole : s.phase = .done → input = takenBytes s

theorem inputFor_take {input : List Byte} {s : State} (h : InputFor input s)
    (hcursor : s.inPos ≤ s.inBytes.length) : input.take s.inPos = takenBytes s := by
  have hlen : (takenBytes s).length = s.inPos := by
    rw [takenBytes, List.length_take]
    omega
  conv_rhs => rw [List.prefix_iff_eq_take.1 h.begins, hlen]

theorem inputFor_length {input : List Byte} {s : State} (h : InputFor input s)
    (hcursor : s.inPos ≤ s.inBytes.length) : s.inPos ≤ input.length := by
  have hle := h.begins.length_le
  rw [takenBytes, List.length_take] at hle
  omega

/-- A state of the run over `input`, all of it at hand and every byte accepted at once. -/
structure DirectRun (input : List Byte) (u : State) : Prop where
  ok : MachineOk u
  moves : u.moves = []
  sink : u.sinkReady = true
  bytes : u.inBytes = input
  ended : u.phase = .run → u.inEnd = true
  taken : u.outTaken = u.out.length

theorem started_directRun (input : List Byte) : DirectRun input (started input) where
  ok := started_machineOk input
  moves := rfl
  sink := rfl
  bytes := rfl
  ended _ := rfl
  taken := rfl

theorem directRun_step {input : List Byte} {u : State} (h : DirectRun input u)
    (hphase : u.phase = .run) : step u = decodeStep u :=
  step_eq_decodeStep h.moves hphase (by simp [outPending, h.taken]) h.ok.noneRaised

theorem readCode_directRun {input : List Byte} {u v : State} (h : DirectRun input u)
    (hread : (∃ c, readCode u = .code c v) ∨ readCode u = .ended v ∨ readCode u = .hold v)
    (hok : MachineOk v) : DirectRun input v := by
  have hframe := readCode_frame hread
  constructor
  case ok => exact hok
  all_goals rw [hframe]
  · exact h.moves
  · exact h.sink
  · exact h.bytes
  · exact h.ended
  · exact h.taken

theorem runCode_directRun {input : List Byte} {f : Format} {c : Code} {u v : State}
    (h : DirectRun input u) (hphase : u.phase = .run) (hrun : runCode f c u = .next v)
    (hok : MachineOk v) : DirectRun input v := by
  rcases runCode_cases hrun with ⟨k, c', -, rfl⟩ | ⟨i, seq, -, -, -, hfin⟩
  · exact {
      ok := hok
      moves := (raiseFault_moves _ _ _).trans h.moves
      sink := (raiseFault_sinkReady _ _ _).trans h.sink
      bytes := (raiseFault_inBytes _ _ _).trans h.bytes
      ended := fun _ => (raiseFault_inEnd _ _ _).trans (h.ended hphase)
      taken := by rw [raiseFault_outTaken, raiseFault_out, h.taken] }
  · obtain ⟨-, he⟩ := runOk_finishCode (h.ok.run hphase) hfin
    obtain ⟨hbytes, hended, hsink, hmoves⟩ := he.keepsOutside
    exact {
      ok := hok
      moves := hmoves.trans h.moves
      sink := hsink.trans h.sink
      bytes := hbytes.trans h.bytes
      ended := fun _ => hended.trans (h.ended hphase)
      taken := (he.sinkTakes h.sink h.taken).1 }

/-! ### Following a run -/

/-- The direct run has come as far as the scheduled one: the same result so far, at the same position in
the stream. A stall may have left the scheduled reader with bytes that the direct one has still to
consume; once the run has ended they are level. -/
structure Follows (input : List Byte) (s u : State) : Prop where
  direct : DirectRun input u
  result : SameResult s u
  position : bitPos u = bitPos s
  buffer : s.phase ≠ .run → SameBuffer s u

/-- A turn that changes neither the result nor the position is followed by no step. -/
theorem follows_of_stays {input : List Byte} {s t u : State} (h : Follows input s u)
    (hresult : SameResult s t) (hpos : bitPos t = bitPos s)
    (hbuffer : t.phase ≠ .run → SameBuffer s t) : Follows input t u where
  direct := h.direct
  result := sameResult_trans (sameResult_symm hresult) h.result
  position := h.position.trans hpos.symm
  buffer hphase :=
    sameBuffer_trans (sameBuffer_symm (hbuffer hphase)) (h.buffer (hresult.status.phase ▸ hphase))

theorem readCode_sameResult {s t : State}
    (h : (∃ c, readCode s = .code c t) ∨ readCode s = .ended t ∨ readCode s = .hold t) :
    SameResult s t := by
  rw [readCode_frame h]
  exact ⟨by constructor <;> rfl, by constructor <;> rfl, rfl⟩

/-- What the reader delivers, seen from both runs: the code lies in the bytes that the scheduled run has
taken for it, so the direct run reads the same code and is left with the same buffer (R115). -/
theorem follows_readCode {input : List Byte} {s s₁ u : State} {c : Code} (h : Follows input s u)
    (hok : MachineOk s) (hphase : s.phase = .run) (hread : readCode s = .code c s₁)
    (hinput : InputFor input s₁) :
    ∃ u₁, readCode u = .code c u₁ ∧ SameResult s₁ u₁ ∧ SameBuffer s₁ u₁ := by
  have hwidth := h.result.decoder.codeSize
  obtain ⟨hreader, hfew⟩ := hok.reader (by simp [hphase])
  obtain ⟨hreader', hfew'⟩ := h.direct.ok.reader (by simp [h.result.status.phase, hphase])
  obtain ⟨-, hup⟩ := runOk_codeSize (hok.run hphase)
  obtain ⟨rfl, hframe, hreader₁, hpos₁, hrest₁, -⟩ := readCode_code hreader hup hfew hread
  have hbytes₁ : s₁.inBytes = s.inBytes := by rw [hframe]
  have hcursor := hreader₁.cursor
  have htake : u.inBytes.take s₁.inPos = takenBytes s₁ := by
    rw [h.direct.bytes, inputFor_take hinput hcursor]
  have hend : bitPos s + s.codeSize.toNat ≤ 8 * s₁.inPos := by
    rw [← hpos₁]
    exact Nat.sub_le _ _
  have hcode : nextCode u = nextCode s :=
    nextCode_of_take_eq h.position hwidth (by rw [htake, takenBytes, hbytes₁]) hend
  have hlong := inputFor_length hinput hcursor
  obtain ⟨u₁, hread'⟩ := exists_readCode_code hreader' (hwidth ▸ hup) hfew'
    (by rw [h.position, hwidth, h.direct.bytes]; omega)
  obtain ⟨-, hframe', hreader₁', hpos₁', hrest₁', -⟩ :=
    readCode_code hreader' (hwidth ▸ hup) hfew' hread'
  have hbytes₁' : u₁.inBytes = u.inBytes := by rw [hframe']
  have hpos : bitPos u₁ = bitPos s₁ := by rw [hpos₁', hpos₁, h.position, hwidth]
  refine ⟨u₁, hcode ▸ hread', ?_, ?_⟩
  · exact sameResult_trans (sameResult_symm (readCode_sameResult (.inl ⟨_, hread⟩)))
      (sameResult_trans h.result (readCode_sameResult (.inl ⟨_, hread'⟩)))
  · exact reader_unique_after_code hreader₁ hreader₁' hpos hrest₁ hrest₁' (hbytes₁' ▸ htake)

/-- An iteration with a code is followed by the iteration with the same code. -/
theorem follows_code {input : List Byte} {s s₁ t u : State} {f : Format} {c : Code}
    (h : Follows input s u) (hok : MachineOk s) (hphase : s.phase = .run)
    (hpend : outPending s = false) (hf : formatOf s.codeSize.toNat = some f)
    (hread : readCode s = .code c s₁) (hrun : runCode f c s₁ = .next t) (hinput : InputFor input t) :
    ∃ v, step u = .next v ∧ Follows input t v := by
  have hreader := runCode_sameReader hrun
  have hframe := readCode_frame (.inl ⟨c, hread⟩)
  have hphase₁ : s₁.phase = .run := by rw [hframe]; exact hphase
  have hpend₁ : outPending s₁ = false := by rw [hframe]; exact hpend
  have hinput₁ : InputFor input s₁ :=
    ⟨by rw [takenBytes, ← hreader.inBytes, ← hreader.inPos]; exact hinput.begins, by simp [hphase₁]⟩
  obtain ⟨u₁, hread', hresult, hbuffer⟩ := follows_readCode h hok hphase hread hinput₁
  have hwidth := h.result.decoder.codeSize
  have hphase' : u.phase = .run := h.result.status.phase.trans hphase
  have hf' : formatOf u.codeSize.toNat = some f := by rw [hwidth]; exact hf
  have hbits : s.codeSize.toNat = f.bits := (formatOf_bits hf).symm
  obtain ⟨hok₁, -, hcode, -⟩ := readCode_takes hok hphase hbits hread
  obtain ⟨hok₁', -⟩ := readCode_takes h.direct.ok hphase' (hwidth ▸ hbits) hread'
  have hdirect := readCode_directRun h.direct (.inl ⟨c, hread'⟩) hok₁'
  have hphase₁' : u₁.phase = .run := hresult.status.phase.trans hphase₁
  have hlt : c.toNat < 2 ^ f.bits := hcode ▸ (toNat_leadingCode f (unread s)).2
  obtain ⟨v, hrun'⟩ := exists_runCode c (hok₁'.run hphase₁') hlt
  have hstep : step u = .next v := by
    rw [directRun_step h.direct hphase']
    simp [decodeStep, hf', hread', hrun']
  have hbuffer' : SameBuffer t v :=
    sameBuffer_trans (sameBuffer_symm (sameBuffer_of_reader hreader))
      (sameBuffer_trans hbuffer (sameBuffer_of_reader (runCode_sameReader hrun')))
  refine ⟨v, hstep, ?_, ?_, sameBuffer_bitPos hbuffer', fun _ => hbuffer'⟩
  · exact runCode_directRun hdirect hphase₁' hrun' (everyStepKeepsInv u v h.direct.ok hstep)
  · exact runCode_sameResult hresult hok₁ hok₁' hphase₁ hpend₁ (by simp [outPending, hdirect.taken])
      hrun hrun'

/-- Where the scheduled reader finds the end, all of the input is taken, and the direct reader finds the
end there too: too few bits are left for a code (R113, R161). -/
theorem follows_readEnd {s s₁ u : State} (h : Follows s₁.inBytes s u) (hok : MachineOk s)
    (hphase : s.phase = .run) (hread : readCode s = .ended s₁) :
    ∃ u₁, readCode u = .ended u₁ ∧ SameResult s₁ u₁ ∧ SameBuffer s₁ u₁ := by
  have hwidth := h.result.decoder.codeSize
  have hphase' : u.phase = .run := h.result.status.phase.trans hphase
  obtain ⟨hreader, hfew⟩ := hok.reader (by simp [hphase])
  obtain ⟨hreader', hfew'⟩ := h.direct.ok.reader (by simp [hphase'])
  obtain ⟨-, hup⟩ := runOk_codeSize (hok.run hphase)
  obtain ⟨-, hframe, hreader₁, hpos₁, hall, -, hshort⟩ := readCode_stop hreader hup hfew (.inl hread)
  have hbytes₁ : s₁.inBytes = s.inBytes := by rw [hframe]
  cases hread' : readCode u with
  | code c u₁ =>
    obtain ⟨-, -, -, -, -, hfits⟩ := readCode_code hreader' (hwidth ▸ hup) hfew' hread'
    rw [h.position, hwidth, h.direct.bytes, hbytes₁] at hfits
    omega
  | hold u₁ =>
    obtain ⟨hanswer, -⟩ := readCode_stop hreader' (hwidth ▸ hup) hfew' (.inr hread')
    simp [hread', h.direct.ended hphase'] at hanswer
  | ended u₁ =>
    obtain ⟨-, hframe', hreader₁', hpos₁', hall', -, -⟩ :=
      readCode_stop hreader' (hwidth ▸ hup) hfew' (.inl hread')
    have hbytes : u₁.inBytes = s₁.inBytes := by rw [hframe']; exact h.direct.bytes
    have hpos : bitPos u₁ = bitPos s₁ := by rw [hpos₁', hpos₁, h.position]
    refine ⟨u₁, rfl, ?_, ?_⟩
    · exact sameResult_trans (sameResult_symm (readCode_sameResult (.inr (.inl hread))))
        (sameResult_trans h.result (readCode_sameResult (.inr (.inl hread'))))
    · exact reader_unique hreader₁ hreader₁' hpos (by rw [hall', hall, hbytes])
        (by rw [hbytes, takenBytes])

theorem endOfRun_sameResult {s u : State} (h : SameResult s u) :
    SameResult (endSpent (endOfRun s)) (endSpent (endOfRun u)) where
  decoder :=
    ⟨h.decoder.codeSize, h.decoder.dictSize, h.decoder.prevCode, h.decoder.prevFirst,
      h.decoder.firstOfEpoch, h.decoder.dict⟩
  status := ⟨rfl, h.status.cause, h.status.faultCode, h.status.raised⟩
  out := h.out

theorem endOfRun_directRun {input : List Byte} {u v : State} (h : DirectRun input u)
    (hread : readCode u = .ended v) (hok : MachineOk (endSpent (endOfRun v))) :
    DirectRun input (endSpent (endOfRun v)) := by
  have hframe := readCode_frame (.inr (.inl hread))
  constructor
  case ok => exact hok
  case ended => simp
  all_goals rw [hframe]
  · exact h.moves
  · exact h.sink
  · exact h.bytes
  · exact h.taken

/-- The end of the input is followed by the end of the input (R161). -/
theorem follows_ended {input : List Byte} {s s₁ u : State} (h : Follows input s u)
    (hok : MachineOk s) (hphase : s.phase = .run) (hread : readCode s = .ended s₁)
    (hinput : input = s₁.inBytes) :
    ∃ v, step u = .next v ∧ Follows input (endSpent (endOfRun s₁)) v := by
  subst hinput
  obtain ⟨u₁, hread', hresult, hbuffer⟩ := follows_readEnd h hok hphase hread
  have hphase' : u.phase = .run := h.result.status.phase.trans hphase
  obtain ⟨f, hf, -⟩ := (h.direct.ok.run hphase').format
  have hstep : step u = .next (endSpent (endOfRun u₁)) := by
    rw [directRun_step h.direct hphase']
    simp [decodeStep, hf, hread']
  have hbuffer' : SameBuffer (endSpent (endOfRun s₁)) (endSpent (endOfRun u₁)) :=
    ⟨hbuffer.acc, hbuffer.nbits, hbuffer.inPos⟩
  exact ⟨_, hstep, endOfRun_directRun h.direct hread' (everyStepKeepsInv u _ h.direct.ok hstep),
    endOfRun_sameResult hresult, sameBuffer_bitPos hbuffer', fun _ => hbuffer'⟩

/-! ### Every schedule -/

/-- The direct run over every input that the state stands for comes to where the state is. -/
structure Replayable (s : State) : Prop where
  ok : MachineOk s
  begun : s.phase ≠ .idle
  replay : ∀ input, InputFor input s →
    ∃ k u, runSteps k (started input) = .next u ∧ Follows input s u

theorem start_replayable (ms : List Move) :
    Replayable { startCommand State.reset with moves := ms } where
  ok := schedule_machineOk true ms (startCommand_machineOk (hardwareReset_machineOk State.reset))
  begun h := by cases h
  replay input _ := by
    refine ⟨0, started input, rfl, started_directRun input, ?_, rfl, fun h => absurd rfl h⟩
    exact ⟨by constructor <;> rfl, by constructor <;> rfl, rfl⟩

/-- A turn that changes neither result nor position, and takes back no byte taken. -/
theorem replayable_of_stays {s t : State} (h : Replayable s) (hok : MachineOk t)
    (hresult : SameResult s t) (hpos : bitPos t = bitPos s)
    (hbuffer : t.phase ≠ .run → SameBuffer s t) (htaken : takenBytes s <+: takenBytes t)
    (hwhole : t.phase = .done → takenBytes t = takenBytes s) : Replayable t where
  ok := hok
  begun := hresult.status.phase ▸ h.begun
  replay input hinput := by
    have hinput' : InputFor input s :=
      ⟨htaken.trans hinput.begins, fun hdone =>
        have hdone' := hresult.status.phase.trans hdone
        (hinput.whole hdone').trans (hwhole hdone')⟩
    obtain ⟨k, u, hrun, hfollows⟩ := h.replay input hinput'
    exact ⟨k, u, hrun, follows_of_stays hfollows hresult hpos hbuffer⟩

/-- A turn of the source or the sink, or a change of the schedule, leaves the engine's registers and the
bytes it has taken. -/
theorem replayable_of_streams {s t : State} {ms : List Move} (h : Replayable s) (hok : MachineOk t)
    (hframe : t = { s with
      inBytes := t.inBytes, inEnd := t.inEnd, outTaken := t.outTaken, sinkReady := t.sinkReady,
      accepted := t.accepted, moves := ms })
    (hbytes : s.inBytes <+: t.inBytes) : Replayable t := by
  have hbuffer : SameBuffer s t := by rw [hframe]; exact ⟨rfl, rfl, rfl⟩
  have hresult : SameResult s t := by
    rw [hframe]
    exact ⟨by constructor <;> rfl, by constructor <;> rfl, rfl⟩
  have htaken : takenBytes t = takenBytes s := by
    obtain ⟨more, hmore⟩ := hbytes
    obtain ⟨hreader, -⟩ := h.ok.reader h.begun
    rw [takenBytes, hbuffer.inPos, ← hmore, List.take_append_of_le_length hreader.cursor, takenBytes]
  exact replayable_of_stays h hok hresult (sameBuffer_bitPos hbuffer) (fun _ => hbuffer)
    (by rw [htaken]) fun _ => htaken

/-- A turn that is followed by one step of the direct run. -/
theorem replayable_of_follows {s t : State} (h : Replayable s) (hok : MachineOk t)
    (hphase : s.phase = .run) (hbegun : t.phase ≠ .idle) (htaken : takenBytes s <+: takenBytes t)
    (hfollows : ∀ input u, InputFor input t → Follows input s u →
      ∃ v, step u = .next v ∧ Follows input t v) : Replayable t where
  ok := hok
  begun := hbegun
  replay input hinput := by
    have hinput' : InputFor input s := ⟨htaken.trans hinput.begins, by simp [hphase]⟩
    obtain ⟨k, u, hrun, hu⟩ := h.replay input hinput'
    obtain ⟨v, hstep, hv⟩ := hfollows input u hinput hu
    exact ⟨k + 1, v, runSteps_succ hrun hstep, hv⟩

theorem decodeStep_inBytes {s t : State} (h : decodeStep s = .next t) : t.inBytes = s.inBytes := by
  rcases decodeStep_cases h with hread | ⟨u, hread, rfl⟩ | ⟨f, c, u, -, hread, hrun⟩
  · rw [readCode_frame (.inr (.inr hread))]
  · rw [endSpent_inBytes, endOfRun_inBytes, readCode_frame (.inr (.inl hread))]
  · rw [(runCode_sameReader hrun).inBytes, readCode_frame (.inl ⟨c, hread⟩)]

theorem decodeStep_takenBytes {s t : State} (hok : MachineOk s) (hphase : s.phase = .run)
    (h : decodeStep s = .next t) : takenBytes s <+: takenBytes t := by
  obtain ⟨-, -, hin⟩ := decodeStep_positionAdvances hok hphase h
  rw [takenBytes, takenBytes, decodeStep_inBytes h]
  exact List.take_prefix_take_left hin

theorem decodeStep_replayable {s t : State} (h : Replayable s) (hphase : s.phase = .run)
    (hpend : outPending s = false) (hdecode : decodeStep s = .next t) : Replayable t := by
  have hok := decodeStep_machineOk h.ok hphase hpend hdecode
  have htaken := decodeStep_takenBytes h.ok hphase hdecode
  rcases decodeStep_cases hdecode with hread | ⟨u, hread, rfl⟩ | ⟨f, c, u, hf, hread, hrun⟩
  · have hresult := readCode_sameResult (.inr (.inr hread))
    have hphase' : t.phase = .run := hresult.status.phase.trans hphase
    have hkeeps := machineOk_readKeeps h.ok hphase
    rw [hread] at hkeeps
    obtain ⟨-, -, hpos, -⟩ := hkeeps
    exact replayable_of_stays h hok hresult hpos (by simp [hphase']) htaken (by simp [hphase'])
  · refine replayable_of_follows h hok hphase (by simp) htaken fun input v hinput hv => ?_
    have hall : u.inPos = u.inBytes.length := by
      obtain ⟨hreader, hfew⟩ := h.ok.reader (by simp [hphase])
      obtain ⟨-, hup⟩ := runOk_codeSize (h.ok.run hphase)
      obtain ⟨-, -, -, -, hall, -⟩ := readCode_stop hreader hup hfew (.inl hread)
      exact hall
    have hwhole : input = u.inBytes := by
      rw [hinput.whole rfl, takenBytes, endSpent_inPos, endOfRun_inPos, hall]
      exact List.take_length
    exact follows_ended hv h.ok hphase hread hwhole
  · refine replayable_of_follows h hok hphase ?_ htaken fun input v hinput hv =>
      follows_code hv h.ok hphase hpend hf hread hrun hinput
    rcases decodeStep_endsWithAllTaken hphase (outTaken_of_not_pending h.ok hpend) hdecode with
      hphase' | ⟨hphase', -⟩ | ⟨hphase', -⟩ <;> simp [hphase']

theorem engineTurn_replayable {s t : State} (h : Replayable s) (hturn : engineTurn s = .next t) :
    Replayable t := by
  rcases engineTurn_cases hturn with rfl | rfl | ⟨k, c, hraised, -⟩ | ⟨hphase, hpend, hdecode⟩
  · exact h
  · obtain ⟨n, a, htake, -⟩ := sinkTake_frame s
    exact replayable_of_streams h (sinkTake_machineOk h.ok) (ms := s.moves) (by rw [htake])
      (by rw [htake])
  · simp [h.ok.noneRaised] at hraised
  · exact decodeStep_replayable h hphase hpend hdecode

theorem step_replayable {s t : State} (h : Replayable s)
    (hmoves : ∀ m ∈ s.moves, m ≠ .start ∧ m ≠ .rst ∧ m ≠ .drain) (hstep : step s = .next t) :
    Replayable t := by
  have hok := everyStepKeepsInv s t h.ok hstep
  rcases step_cases hstep with ⟨-, hturn⟩ | ⟨m, ms, hmoves', hturn⟩
  · exact engineTurn_replayable h hturn
  · obtain ⟨hstart, hrst, hdrain⟩ := hmoves m (by simp [hmoves'])
    have hs : Replayable { s with moves := ms } :=
      replayable_of_streams h (schedule_machineOk s.sinkReady ms h.ok) rfl (List.prefix_refl _)
    by_cases hengine : m = .engine
    · subst hengine
      exact engineTurn_replayable hs hturn
    · obtain ⟨hframe, -⟩ := moveTurn_streamsOnly hengine hrst hstart hturn
      exact replayable_of_streams hs hok (ms := ms) hframe
        (moveTurn_inBytes hengine hrst hstart hdrain hturn)

theorem runSteps_replayable {n : Nat} {s t : State} (h : Replayable s)
    (hmoves : ∀ m ∈ s.moves, m ≠ .start ∧ m ≠ .rst ∧ m ≠ .drain) (hrun : runSteps n s = .next t) :
    Replayable t := by
  induction n generalizing s with
  | zero =>
    cases hrun
    exact h
  | succ n ih =>
    obtain ⟨u, hstep, hrest⟩ := runSteps_succ_cases hrun
    refine ih (step_replayable h hmoves hstep) (fun m hm => hmoves m ?_) hrest
    rw [step_moves hstep] at hm
    exact List.mem_of_mem_tail hm

/-! ### The result -/

theorem runSteps_keeps {n : Nat} {s t : State} (hok : MachineOk s) (hmoves : s.moves = [])
    (hrun : runSteps n s = .next t) : MachineOk t ∧ t.moves = [] := by
  induction n generalizing s with
  | zero =>
    cases hrun
    exact ⟨hok, hmoves⟩
  | succ n ih =>
    obtain ⟨u, hstep, hrest⟩ := runSteps_succ_cases hrun
    exact ih (everyStepKeepsInv s u hok hstep) (by rw [step_moves hstep, hmoves, List.tail_nil]) hrest

/-- A run that has ended somewhere has ended there for `Decode` too: it rests where it ends (R162,
R194). -/
theorem decodeRun_of_ended {input : List Byte} {k : Nat} {u : State}
    (hrun : runSteps k (started input) = .next u) (hended : u.phase = .done ∨ u.phase = .fault) :
    decodeRun input = .next u := by
  obtain ⟨v, hdecode, hended'⟩ := everyRunEnds input
  have hstart := started_machineOk input
  obtain ⟨hok, hmoves⟩ := runSteps_keeps hstart rfl hrun
  obtain ⟨hok', hmoves'⟩ := runSteps_keeps hstart rfl hdecode
  have hu := runSteps_of_ended (8 * input.length / 9 + 1) hok hmoves hended
  have hv := runSteps_of_ended k hok' hmoves' hended'
  rw [← runSteps_add hrun] at hu
  rw [← runSteps_add hdecode, Nat.add_comm, hu] at hv
  rw [hdecode, hv]

/-- Settles O60: every state of a scheduled run is followed by a state of the direct run, and where the
run has ended the two have the same registers. -/
theorem scheduleDoesNotChangeTheResult : Obligations.ScheduleDoesNotChangeTheResult := by
  intro ms t hmoves hrun hphase input hbegins hwhole
  have ht : Replayable t := runSteps_replayable (start_replayable ms) hmoves hrun
  obtain ⟨k, u, hdirect, hu⟩ := ht.replay input ⟨hbegins, hwhole⟩
  have hstatus := hu.result.status
  have hdecoder := hu.result.decoder
  have hbuffer := hu.buffer hphase
  have hended : u.phase = .done ∨ u.phase = .fault := by
    rw [hstatus.phase]
    have hbegun := ht.begun
    cases hp : t.phase <;> simp_all
  exact ⟨u, decodeRun_of_ended hdirect hended, hu.result.out, hstatus.phase, hstatus.cause,
    hstatus.faultCode, hdecoder.codeSize, hdecoder.dictSize, hdecoder.prevCode, hdecoder.prevFirst,
    hdecoder.firstOfEpoch, hdecoder.dict, hbuffer.acc, hbuffer.nbits, hbuffer.inPos⟩

end Sys2Proof.Machine
end

section
/-! The faults (R220 to R228): how they are raised and entered, the classes that raise them, what a
faulting iteration has done, and that a fault lasts. -/

namespace Sys2Proof

/-! ### The class of a decoded code -/

/-- The row has the class and the format that it was looked up with, whatever bits its code drops (R95). -/
theorem rowInstr_class_format {k : CodeClass} {f : Format} {c : Code} {i : Instr}
    (h : rowInstr k f c = some i) : i.codeClass = k ∧ i.format = f := by
  cases k <;> cases f <;> simp only [rowInstr, Option.some.injEq, reduceCtorEq] at h <;> subst h <;>
    exact ⟨rfl, rfl⟩

/-- The decoder keeps the class of the code and the format it was read in (R83, R84). -/
theorem decodeCode_class_format {σ : Selector} {c : Code} {i : Instr} (h : decodeCode σ c = .ok i) :
    i.codeClass = classify σ c.toNat ∧ i.format = σ.format :=
  rowInstr_class_format (decodeCode_eq_ok_iff_row.1 h)

end Sys2Proof

namespace Sys2Proof.Machine

/-! ### Raising a fault -/

theorem outPending_eq_true_iff {s : State} : outPending s = true ↔ s.outTaken < s.out.length :=
  decide_eq_true_iff

theorem outPending_eq_false_iff {s : State} : outPending s = false ↔ s.out.length ≤ s.outTaken :=
  decide_eq_false_iff_not.trans not_lt

/-- With every byte accepted a `raise` is fault entry (R226). -/
theorem raiseFault_of_taken {s : State} (k : Cause) (c : Code) (h : outPending s = false) :
    raiseFault k c s = takeFault k c s := by
  simp [raiseFault, h]

/-- With a byte pending a raised fault waits (log entry 17). -/
theorem raiseFault_of_pending {s : State} (k : Cause) (c : Code) (h : outPending s = true) :
    raiseFault k c s = { s with raised := some (k, c) } := by
  simp [raiseFault, h]

theorem exec_of_invalid {i : Instr} (s : State) (h : i.codeClass = .invalid) :
    exec i s = .next (raiseFault .invalidCode i.code s) := by
  rw [exec_eq, h]

theorem exec_of_noprev {i : Instr} (s : State) (h : i.codeClass = .noprev) :
    exec i s = .next (raiseFault .noPrevious i.code s) := by
  rw [exec_eq, h]

/-- Settles O35: the decoder keeps the class, and in every format the meaning of the class is one
`raise`, entered or waiting as the sink decides. -/
theorem invalidTakesItsFault : Obligations.InvalidTakesItsFault := by
  refine ⟨fun σ c i hdecode => ?_, fun s hpend => ?_, fun s hpend => ?_⟩
  · obtain ⟨hclass, hformat⟩ := decodeCode_class_format hdecode
    exact ⟨by rw [hclass, classify_eq_invalid_iff], hformat⟩
  · have hentered (i : Instr) (hi : i.codeClass = .invalid) :
        exec i s = .next (takeFault .invalidCode i.code s) := by
      rw [exec_of_invalid s hi, raiseFault_of_taken _ _ hpend]
    exact ⟨fun c => hentered _ rfl, fun c => hentered _ rfl, fun c => hentered _ rfl,
      fun c => hentered _ rfl⟩
  · have hwaits (i : Instr) (hi : i.codeClass = .invalid) :
        exec i s = .next { s with raised := some (.invalidCode, i.code) } := by
      rw [exec_of_invalid s hi, raiseFault_of_pending _ _ hpend]
    exact ⟨fun c => hwaits _ rfl, fun c => hwaits _ rfl, fun c => hwaits _ rfl, fun c => hwaits _ rfl⟩

/-- Settles O36: the meaning of the class is one `raise`; a selector of a run has this class at size 256
alone. -/
theorem noprevTakesItsFault : Obligations.NoprevTakesItsFault := by
  refine ⟨fun σ c i hdecode => ?_, fun s c hpend => ?_, fun s c hpend => ?_,
    fun σ c hlegal hsel => ?_⟩
  · obtain ⟨hclass, -⟩ := decodeCode_class_format hdecode
    rw [hclass, classify_eq_noprev_iff]
  · rw [exec_of_noprev s rfl, raiseFault_of_taken _ _ hpend]
    rfl
  · rw [exec_of_noprev s rfl, raiseFault_of_pending _ _ hpend]
    rfl
  · obtain ⟨-, hclass⟩ := selectedBy_iff.1 hsel
    exact BitVec.eq_of_toNat_eq (legal_noprev hlegal hclass).1

/-! ### Overflow, and a fault that waits -/

/-- While a byte is pending the engine's turn gives the sink its byte or holds (R199). -/
theorem engineTurn_pending_frame {s t : State} (hpend : outPending s = true)
    (h : engineTurn s = .next t) :
    ∃ n a, t = { s with outTaken := n, accepted := a } ∧ s.accepted <+: a := by
  rw [engineTurn_pending hpend, Host.Outcome.next.injEq] at h
  subst h
  split_ifs
  · exact sinkTake_frame s
  · exact ⟨s.outTaken, s.accepted, rfl, List.prefix_refl _⟩

/-- Settles O18: the overflow is a `raise` behind the output step, which the sink decides on; a fault
that waits is all that the engine's turn looks at once no byte is pending. -/
theorem overflowFaultsAfterTheOutput : Obligations.OverflowFaultsAfterTheOutput := by
  refine ⟨fun s c p seq hfull hfirst hprev hseq => ?_,
    fun s t k c hmoves hphase hraised hstep => ?_⟩
  · refine ⟨_, finishCode_of_full c hseq hfull hfirst hprev, ?_⟩
    obtain ⟨n, a, hout, -⟩ := outPushAll_cases s seq
    cases hpend : outPending (outPushAll s seq) with
    | false =>
      rw [raiseFault_of_taken _ _ hpend]
      rw [hout] at hpend ⊢
      exact ⟨rfl, fun _ => rfl, fun hlt => absurd hlt (not_lt.2 (outPending_eq_false_iff.1 hpend))⟩
    | true =>
      rw [raiseFault_of_pending _ _ hpend]
      rw [hout] at hpend ⊢
      exact ⟨rfl, fun hle => absurd hle (not_le.2 (outPending_eq_true_iff.1 hpend)), fun _ => rfl⟩
  · rw [step_of_moves_nil hmoves] at hstep
    constructor <;> intro hpend
    · obtain ⟨n, a, rfl, -⟩ := engineTurn_pending_frame hpend hstep
      rfl
    · rw [engineTurn_raised hphase hpend hraised, Host.Outcome.next.injEq] at hstep
      exact hstep.symm

/-! ### The faulting iteration -/

/-- In a run a code that ends it in a fault has recorded its cause and itself, and done nothing else
(R153, R154, R227): a legal code keeps the phase. -/
theorem runCode_fault {f : Format} {c : Code} {s t : State} (h : RunOk s) (hphase : s.phase = .run)
    (hpend : outPending s = false) (hc : c.toNat < 2 ^ f.bits) (hrun : runCode f c s = .next t)
    (hfault : t.phase = .fault) :
    ∃ k, (k = .invalidCode ∨ k = .noPrevious) ∧ t = takeFault k c s := by
  unfold runCode at hrun
  cases hdecode : decodeCode (selectorOf f s) c with
  | error e =>
    simp only [hdecode, Host.Outcome.next.injEq] at hrun
    exact ⟨.noPrevious, .inr rfl, by rw [← hrun, raiseFault_of_taken _ _ hpend]⟩
  | ok i =>
    simp only [hdecode] at hrun
    obtain ⟨-, rfl⟩ := (decodeCode_eq_ok_iff (σ := selectorOf f s) hc).1 hdecode
    by_cases hclass : LegalClass i.codeClass
    · obtain ⟨seq, -, hfin⟩ := operand_of_exec hclass hrun
      obtain ⟨-, he⟩ := runOk_finishCode h hfin
      obtain ⟨hkeeps, -⟩ := he.keepsStatus
      simp [hkeeps, hphase] at hfault
    · obtain ⟨k, hk, hexec⟩ := exec_of_illegal hclass
      rw [hexec, Host.Outcome.next.injEq] at hrun
      exact ⟨k, hk, by rw [← hrun, raiseFault_of_taken _ _ hpend]⟩

/-- Only a code leads from `RUN` to `FAULT`, by the entry of one of two faults in the state that
`ReadCode` left (R150, R227). -/
theorem engineTurn_fault {s t : State} (hok : MachineOk s) (hphase : s.phase = .run)
    (h : engineTurn s = .next t) (hfault : t.phase = .fault) :
    ∃ k c u, (k = .invalidCode ∨ k = .noPrevious) ∧ readCode s = .code c u ∧ t = takeFault k c u := by
  rcases engineTurn_cases h with rfl | rfl | ⟨k, c, hraised, -⟩ | ⟨-, hpend, hdecode⟩
  · simp [hphase] at hfault
  · obtain ⟨n, a, htake, -⟩ := sinkTake_frame s
    simp [htake, hphase] at hfault
  · simp [hok.noneRaised] at hraised
  · rcases decodeStep_cases hdecode with hread | ⟨u, -, rfl⟩ | ⟨f, c, u, hf, hread, hrun⟩
    · rw [readCode_frame (.inr (.inr hread))] at hfault
      simp [hphase] at hfault
    · simp at hfault
    · have hframe := readCode_frame (.inl ⟨c, hread⟩)
      have hu : RunOk u := sameDecoder_runOk (by rw [hframe]; constructor <;> rfl) (hok.run hphase)
      have hkeeps := machineOk_readKeeps hok hphase
      rw [hread] at hkeeps
      obtain ⟨hcode, -⟩ := hkeeps
      rw [← formatOf_bits hf] at hcode
      obtain ⟨k, hk, rfl⟩ := runCode_fault hu (by rw [hframe]; exact hphase)
        (by rw [hframe]; exact hpend) hcode hrun hfault
      exact ⟨k, c, u, hk, hread, rfl⟩

/-- Settles O46: the turn has read the next code and entered its fault. -/
theorem faultsArePrecise : Obligations.FaultsArePrecise := by
  intro s t hok hmoves hphase hstep hfault
  rw [step_of_moves_nil hmoves] at hstep
  obtain ⟨k, c, u, hk, hread, rfl⟩ := engineTurn_fault hok hphase hstep hfault
  obtain ⟨hreader, hfew⟩ := hok.reader (by simp [hphase])
  obtain ⟨rfl, hframe, -, hpos, -⟩ :=
    readCode_code hreader (runOk_codeSize (hok.run hphase)).2 hfew hread
  refine ⟨hk, rfl, hpos, ?_⟩
  rw [hframe]
  simp [takeFault, hok.noneRaised]

/-! ### A fault lasts -/

/-- Outside `RUN` the engine's turn is at most an acceptance (R194, R199). -/
theorem engineTurn_streamsOnly {s t : State} (hphase : s.phase ≠ .run) (h : engineTurn s = .next t) :
    StreamsOnly s t := by
  cases hpend : outPending s with
  | true =>
    obtain ⟨n, a, rfl, hprefix⟩ := engineTurn_pending_frame hpend h
    exact ⟨rfl, hprefix⟩
  | false =>
    rw [engineTurn_rest hphase hpend, Host.Outcome.next.injEq] at h
    subst h
    exact ⟨rfl, List.prefix_refl _⟩

/-- No register of the engine is written: source, sink and schedule alone may move on. -/
def EngineStands (s t : State) : Prop :=
  t = { s with
    inBytes := t.inBytes, inEnd := t.inEnd, outTaken := t.outTaken, sinkReady := t.sinkReady,
    accepted := t.accepted, moves := t.moves }

theorem engineStands_trans {s t u : State} (h₁ : EngineStands s t) (h₂ : EngineStands t u) :
    EngineStands s u :=
  h₂.trans (by rw [h₁])

theorem engineStands_of_streamsOnly {s t : State} {ms : List Move}
    (h : StreamsOnly { s with moves := ms } t) : EngineStands s t := by
  obtain ⟨hframe, -⟩ := h
  rw [EngineStands, hframe]

/-- Outside `RUN` a step that is no command of the host writes no register of the engine (R194). -/
theorem step_engineStands {s t : State} (hphase : s.phase ≠ .run)
    (hmoves : ∀ m ∈ s.moves, m ≠ .start ∧ m ≠ .rst) (h : step s = .next t) : EngineStands s t := by
  rcases step_cases h with ⟨-, hturn⟩ | ⟨m, ms, hms, hturn⟩
  · exact engineStands_of_streamsOnly (engineTurn_streamsOnly hphase hturn)
  · obtain ⟨hstart, hrst⟩ := hmoves m (by simp [hms])
    refine engineStands_of_streamsOnly (ms := ms) ?_
    by_cases hengine : m = .engine
    · subst hengine
      exact engineTurn_streamsOnly hphase hturn
    · exact moveTurn_streamsOnly hengine hrst hstart hturn

theorem runSteps_engineStands {n : Nat} {s t : State} (hphase : s.phase ≠ .run)
    (hmoves : ∀ m ∈ s.moves, m ≠ .start ∧ m ≠ .rst) (h : runSteps n s = .next t) :
    EngineStands s t := by
  induction n generalizing s with
  | zero =>
    cases h
    rfl
  | succ n ih =>
    obtain ⟨u, hstep, hrest⟩ := runSteps_succ_cases h
    have hu : EngineStands s u := step_engineStands hphase hmoves hstep
    refine engineStands_trans hu (ih ?_ (fun m hm => hmoves m ?_) hrest)
    · rw [hu]
      exact hphase
    · rw [step_moves hstep] at hm
      exact List.mem_of_mem_tail hm

/-- Settles O45: no step meanwhile writes a register of the engine. -/
theorem faultLastsUntilStartOrReset : Obligations.FaultLastsUntilStartOrReset := by
  intro n s t hphase hmoves hrun
  have ht : EngineStands s t := runSteps_engineStands (by simp [hphase]) hmoves hrun
  rw [ht]
  exact ⟨hphase, rfl, rfl, rfl, rfl, rfl, rfl⟩

end Sys2Proof.Machine
end

section
/-! Hardware reset: the state it gives, from power-on and from any state (R250, R253). -/

namespace Sys2Proof.Machine

/-- The state after power-on is one that `rst` gives: nothing is at the source, nothing accepted. -/
theorem hardwareReset_reset : hardwareReset State.reset = State.reset := rfl

/-- The reset withdraws a byte that is offered to the sink (R250). -/
@[simp] theorem hardwareReset_outPending (s : State) : outPending (hardwareReset s) = false :=
  outPending_eq_false_iff.2 (by simp)

/-- The bytes not yet taken stay at the source (log entry 6); in `IDLE` they are all it has. -/
@[simp] theorem hardwareReset_untaken (s : State) : untaken (hardwareReset s) = untaken s := by
  rw [untaken_idle (hardwareReset_phase s), hardwareReset_inBytes]

theorem step_rst {s : State} {ms : List Move} (h : s.moves = .rst :: ms) :
    step s = .next (hardwareReset { s with moves := ms }) := step_of_moves_cons h

/-- Settles O1: the step is the engine's turn outside `RUN`, which rests. -/
theorem resetRestsInIdle : Obligations.ResetRestsInIdle := by
  have hrest : step State.reset = .next State.reset :=
    engineRestsOutsideRun State.reset rfl (by decide) (hardwareReset_outPending State.reset)
  exact ⟨rfl, rfl, rfl, rfl, rfl, rfl, memRead_nil, hrest⟩

/-- Settles O2: the step is `hardwareReset`, which keeps of the state before it the untaken bytes, what
the sink has accepted and, outside `RUN`, the end signal. -/
theorem hardwareResetAbandonsTheRun : Obligations.HardwareResetAbandonsTheRun := by
  intro s ms hmoves
  exact ⟨_, step_rst hmoves, rfl, rfl, rfl, rfl, rfl, memRead_nil, hardwareReset_outPending _, rfl,
    hardwareReset_untaken { s with moves := ms }, rfl, rfl,
    hardwareReset_inEnd_run (s := { s with moves := ms }),
    hardwareReset_inEnd_of_ne_run (s := { s with moves := ms })⟩

/-- Settles O53: hardware reset meets the invariant from every state, and so does its result here. -/
theorem invHoldsAtReset : Obligations.InvHoldsAtReset := by
  have hok : MachineOk (hardwareReset State.reset) := hardwareReset_machineOk State.reset
  rwa [hardwareReset_reset] at hok

end Sys2Proof.Machine
end
